-- ==== Sys2Proof/Word.lean ====
section
/-! DEFINITION. The value types of the block, by width (R5, R6, R7, R72). Every one is a plain bit vector. -/

namespace Sys2Proof

/-- A word: 32 bits, the unit of compression (R5). -/
abbrev Word := BitVec 32

/-- One byte of a window (R50). -/
abbrev Byte := BitVec 8

/-- A dictionary slot number, 0 to 15 (R6). -/
abbrev Slot := BitVec 4

/-- A 2-bit tag code (R72). -/
abbrev Tag := BitVec 2

/-- A low-bits value, `w[9:0]` (R7). -/
abbrev Low := BitVec 10

/-- The high bits of a word, `w[31:10]` (R7). -/
abbrev High := BitVec 22

/-- The dictionary `D[0..15]` as a register file (R25). -/
abbrev Dict := Vector Word 16

/-- The hash ROM: 256 slots indexed by an 8-bit key (R27). -/
abbrev HashTable := Vector Slot 256

end Sys2Proof
end

