-- ==== Sys2Proof/Config.lean ====
section
/-! DEFINITION. What an implementation of the block fixes: the format's constants (R6, R8), the named
parameters (R9 to R11) as plain data, and the two values the spec leaves OPEN, as constants without a body.
State holds the parameters, so a claim over every state is a claim over every parameter (log 4). -/

namespace Sys2Proof

/-- Where the elements of the packed 2-bit and 4-bit sections lie (R10, R120). -/
inductive PackLayout where
  | interleaved
  | sequential
deriving DecidableEq, Repr, Inhabited

/-- The parameters of one instance, apart from HASH_TABLE (R10, R11). -/
structure Params where
  /-- PACK_LAYOUT (R10); one value governs both packed units (R125). -/
  packLayout : PackLayout
  /-- IN_CAP, bytes (R11). -/
  inCap : Nat
  /-- OUT_CAP, bytes (R11). -/
  outCap : Nat
  /-- BASE, the byte address of the block's region (R11, R52). -/
  base : Nat
deriving DecidableEq, Repr

namespace Config

/-- PAGE_WORDS (R8). -/
abbrev pageWords : Nat := 1024

/-- PAGE_BYTES (R8). -/
abbrev pageBytes : Nat := 4096

/-- TAG_AREA_WORDS (R8). -/
abbrev tagAreaWords : Nat := 64

/-- What the reference hash table would hold at a key: the spec does not give it (R9, N1). No body: nothing
can be proved of a value (log 4). -/
opaque hashRaw : Nat → Slot

/-- BASE, left OPEN by R11 and D23: no body (log 4). -/
opaque base : Nat

/-- One entry of a conforming table (R9): 0 at key 0, a slot in 1..15 elsewhere. Every conforming table is
this one for some `hashRaw`. -/
def hashEntry (k : Nat) : Slot :=
  if k = 0 then 0 else if hashRaw k = 0 then 1 else hashRaw k

/-- HASH_TABLE after reset: any conforming table and nothing more is known of it (R9, R100; log 4). -/
def hashTable : HashTable :=
  ⟨⟨(List.range 256).map hashEntry⟩, by simp⟩

/-- The parameters after reset: the spec's choices of R10 and R11, BASE open (log 4). -/
def params : Params :=
  { packLayout := .interleaved, inCap := 8192, outCap := 8192, base := base }

end Config

end Sys2Proof
end

