-- ==== Sys2Proof/Syntax.lean ====
section
/-! DEFINITION. The syntax, whole: the seven instructions of the opcode table (R70, R72), what the outside
can do to the block (R58, R85, R250), and the two notations of the spec (R85 to R87). -/

namespace Sys2Proof

/-- The instructions: the three command words and the four tags of spec/opcode_table.json. None has operand
bits of its own: a command works on the windows (R70), a tag takes its operands from the side-streams (R84). -/
inductive Instr where
  /-- ENCODE, command word 0x00000001 (R150). -/
  | encode
  /-- DECODE_STD, command word 0x00000002 (R180). -/
  | decodeStd
  /-- DECODE_ALT, command word 0x00000003 (R181). -/
  | decodeAlt
  /-- ZERO, tag 0b00 (R193). -/
  | tagZero
  /-- PARTIAL, tag 0b01 (R195). -/
  | tagPartial
  /-- MISS, tag 0b10 (R196). -/
  | tagMiss
  /-- EXACT, tag 0b11 (R194). -/
  | tagExact
deriving DecidableEq, Repr

/-- One host access: an absolute byte address, a size in bytes, and for a write the data in the low bits.
Any address and size can be written down; which of them the block permits is R58. -/
inductive HostAccess where
  | read (addr size : Nat)
  | write (addr size : Nat) (data : Word)
deriving DecidableEq, Repr

/-- What happens next at the block's boundary (log 1): a host access (R58), one round of `POLL DONE` (R85),
one unit of the block's own work (R259), or hardware reset (R250, R251). -/
inductive Input where
  | access (a : HostAccess)
  | poll
  | tick
  | reset
deriving DecidableEq, Repr

/-- The four registers by name (R85). -/
inductive HostReg where
  | cmd
  | status
  | inLen
  | outLen
deriving DecidableEq, Repr

/-- The host notation (R85) and its one family of pseudo-instructions (R86). -/
inductive HostStmt where
  | wr (r : HostReg) (value : Word)
  | rd (r : HostReg)
  | fill (offset : Nat) (words : List Word)
  | pollDone
  | dump (offset count : Nat)
  | run (command : Instr) (len : Word)
deriving DecidableEq, Repr

/-- One tag of the tag-program notation, with its operands written beside it (R87). -/
inductive TagOp where
  | zero
  | exact (q : Slot)
  | partialWord (q : Slot) (lb : Low)
  | miss (w : Word)
deriving DecidableEq, Repr

end Sys2Proof
end

