-- ==== Sys2Proof/WellFormed.lean ====
section
/-! DEFINITION. Which terms of the syntax and which parameters the spec admits. An instruction has no operand
bits, so every instruction is well formed (R70, R73); the checks with something to refuse are those of the
host notation (R85, R86), of tag programs (R87) and of the parameters (R9, R11). -/

namespace Sys2Proof

/-- Every command and every tag code is legal as it stands: there are no operand fields to check (R70, R73). -/
def Instr.wellFormed : Instr → Bool
  | .encode => true
  | .decodeStd => true
  | .decodeAlt => true
  | .tagZero => true
  | .tagPartial => true
  | .tagMiss => true
  | .tagExact => true

/-- The three commands, the operands of RUN (R86). -/
def Instr.isCommand : Instr → Bool
  | .encode => true
  | .decodeStd => true
  | .decodeAlt => true
  | .tagZero => false
  | .tagPartial => false
  | .tagMiss => false
  | .tagExact => false

/-- FILL and DUMP move whole words at word-aligned byte offsets (their accesses are 32-bit, R58); RUN names one
of the three commands (R86). -/
def HostStmt.wellFormed : HostStmt → Bool
  | .wr _ _ => true
  | .rd _ => true
  | .fill offset _ => offset % 4 == 0
  | .pollDone => true
  | .dump offset _ => offset % 4 == 0
  | .run command _ => command.isCommand

/-- A tag program has one tag per page word (R73, R87). -/
def tagProgramOk (ops : List TagOp) : Bool :=
  ops.length == Config.pageWords

/-- The capacity ranges of R11. -/
def Params.wellFormed (p : Params) : Bool :=
  decide (4096 ≤ p.inCap) && decide (p.inCap ≤ 8192) && decide (4368 ≤ p.outCap) && decide (p.outCap ≤ 8192)

/-- The two constraints on HASH_TABLE (R9): entry 0 is 0, every other entry is in 1..15. -/
def hashTableOk (t : HashTable) : Bool :=
  decide (∀ k : Fin 256, t[k] = 0 ↔ k.val = 0)

end Sys2Proof
end

