-- ==== Sys2Proof/Decode.lean ====
section
/-! DEFINITION. The decoder of command words and tags, total and rejecting by name, and after it the encoder,
written from the same tables (R70 to R73). -/

namespace Sys2Proof

/-- Why a bit pattern is no instruction. -/
inductive Illegal where
  /-- A command word with `CMD[31:4] ≠ 0`, or a tag byte with a bit above the tag (R71). -/
  | reservedBits
  /-- A command word whose OP is 0x0 or 0x4..0xF (R71). -/
  | unassignedOp
  /-- A byte string that is not one command word long. -/
  | wrongLength
deriving DecidableEq, Repr

/-- The tag codes (R72). -/
abbrev codeZero : Tag := 0b00#2
/-- PARTIAL (R72). -/
abbrev codePartial : Tag := 0b01#2
/-- MISS (R72). -/
abbrev codeMiss : Tag := 0b10#2
/-- EXACT (R72). -/
abbrev codeExact : Tag := 0b11#2

/-- The OP field of a command word, `CMD[3:0]` (R70). -/
abbrev opField (w : Word) : BitVec 4 := w.extractLsb' 0 4

/-- The reserved field of a command word, `CMD[31:4]` (R70). -/
abbrev reservedField (w : Word) : BitVec 28 := w.extractLsb' 4 28

/-- The command decoder (R70, R71): the reserved bits are part of the match. -/
def decodeCommand (w : Word) : Except Illegal Instr :=
  if reservedField w = 0 then
    if opField w = 0x1 then .ok .encode
    else if opField w = 0x2 then .ok .decodeStd
    else if opField w = 0x3 then .ok .decodeAlt
    else .error .unassignedOp
  else .error .reservedBits

/-- The tag decoder (R72); all four codes are legal (R73). -/
def decodeTag (t : Tag) : Instr :=
  if t = codeZero then .tagZero
  else if t = codePartial then .tagPartial
  else if t = codeMiss then .tagMiss
  else .tagExact

/-- A command word from its four bytes, lowest address first (R53). -/
def decodeCommandBytes : List Byte → Except Illegal Instr
  | [b0, b1, b2, b3] => decodeCommand (b3 ++ b2 ++ b1 ++ b0)
  | _ => .error .wrongLength

/-- A tag standing alone in a byte, in bits 1:0. -/
def decodeTagByte (b : Byte) : Except Illegal Instr :=
  if b.extractLsb' 2 6 = 0 then .ok (decodeTag (b.extractLsb' 0 2)) else .error .reservedBits

/-- An encoded instruction: a command word or a tag code, the two formats of the opcode table. -/
inductive Code where
  | command (w : Word)
  | tag (t : Tag)
deriving DecidableEq, Repr

/-- Decoding either format. -/
def decode : Code → Except Illegal Instr
  | .command w => decodeCommand w
  | .tag t => .ok (decodeTag t)

/-- The encoder, from the tables of R70 and R72. -/
def encode : Instr → Code
  | .encode => .command 0x00000001
  | .decodeStd => .command 0x00000002
  | .decodeAlt => .command 0x00000003
  | .tagZero => .tag codeZero
  | .tagPartial => .tag codePartial
  | .tagMiss => .tag codeMiss
  | .tagExact => .tag codeExact

/-- The decoder's answer for an opcode-table row of `nbits` bits that are `w`: a tag row has 2 bits, in one
byte; a command row has 32, laid out little-endian. -/
def decodeTableWord (nbits w : Nat) : Option Instr :=
  if nbits ≤ 8 then
    if w < 2 ^ 8 then (decodeTagByte (BitVec.ofNat 8 w)).toOption else none
  else if w < 2 ^ 32 then
    (decodeCommandBytes ((List.range 4).map fun k => BitVec.ofNat 8 (w >>> (8 * k)))).toOption
  else none

end Sys2Proof
end

