-- ==== Sys2Proof/Machine/State.lean ====
section
/-! DEFINITION. The state, whole and plain (R20 to R33), the reasons a step can stop, and the state after
reset (R250). -/

namespace Sys2Proof.Machine

/-- A window's contents: the bytes that have a value, by byte offset, offsets strictly rising. A byte that is
not listed has no value (R250, log 10). -/
abbrev Memory := List Host.Cell

/-- The canonical form of a window: offsets strictly rising. No entry can equal what an unlisted offset reads
as, because an unlisted offset has no value. -/
abbrev Memory.wf (m : Memory) : Prop := m.Pairwise fun c d => c.1 < d.1

/-- The sequencer phase (R32). -/
inductive Phase where
  | idle
  | encRun
  | decRun
deriving DecidableEq, Repr

/-- The encoder's working state (R29); `i` is the program counter of an ENCODE (R31). -/
structure EncWork where
  /-- The index of the next input word, 0..1024. -/
  i : Nat
  /-- The tags so far. -/
  tags : List Tag
  /-- QPosArray. -/
  Q : List Slot
  /-- LowBitsArray. -/
  L : List Low
  /-- FullPatterns. -/
  F : List Word
deriving DecidableEq, Repr

/-- The decoder's working state (R30); `t` is the program counter of a decode (R31). -/
structure DecWork where
  /-- The header size in words, 4 or 3. -/
  hw : Nat
  /-- Header field `qpos_start` (R185). -/
  qposStart : Nat
  /-- Header field `low_start` (R185). -/
  lowStart : Nat
  /-- Header field `low_end` (R185). -/
  lowEnd : Nat
  /-- The 1024 tags (R187). -/
  tags : List Tag
  /-- Full patterns (R188). -/
  F : List Word
  /-- Unpacked slot numbers (R189). -/
  Q : List Slot
  /-- Unpacked low-bits values (R190). -/
  L : List Low
  /-- The cursor into `F`. -/
  cf : Nat
  /-- The cursor into `Q`. -/
  cq : Nat
  /-- The cursor into `L`. -/
  cl : Nat
  /-- The index of the next tag, 0..1024. -/
  t : Nat
  /-- The words rebuilt so far: the staged output (R56). -/
  out : List Word
deriving DecidableEq, Repr

/-- The per-command working state: none outside a command and before a started command has set it up (R250,
log 6), else the encoder's or the decoder's. -/
inductive Work where
  | none
  | enc (w : EncWork)
  | dec (w : DecWork)
deriving DecidableEq, Repr

/-- The state of the block (R20), with the parameters it is built with (log 4) and the model's own two fields
`inputs` and `readLog` (log 1, log 2). -/
structure State where
  /-- CMD (R21). -/
  cmd : Word
  /-- STATUS (R22). -/
  status : Word
  /-- IN_LEN (R23). -/
  inLen : Word
  /-- OUT_LEN (R24). -/
  outLen : Word
  /-- The input window IN (R52). -/
  inMem : Memory
  /-- The output window OUT (R52). -/
  outMem : Memory
  /-- The dictionary `D[0..15]` (R25). -/
  dict : Dict
  /-- The ROM HASH_TABLE (R27). -/
  hashTable : HashTable
  /-- The other parameters (R10, R11). -/
  params : Params
  /-- The sequencer phase (R32). -/
  phase : Phase
  /-- The working state of the running command (R29 to R31). -/
  work : Work
  /-- The model's own: what the outside does next, in order (log 1). -/
  inputs : List Input
  /-- The model's own: the values host reads returned, newest first (log 2). -/
  readLog : List Word
deriving DecidableEq, Repr

/-- The faults: a read of a byte that has no value (R250), and a result that does not fit in OUT (log 8). All are
safe: the model stops where hardware goes on. -/
inductive Fault where
  /-- Raised by a command or a host read that reads an IN byte not written since reset (R250). Safe. -/
  | inByteUnwritten (offset : Nat)
  /-- Raised by a host read of an OUT byte no successful command has written since reset (R250). Safe. -/
  | outByteUnwritten (offset : Nat)
  /-- Raised by a command whose result of this many bytes has no room in OUT: it would write at an offset that is
  no byte of the window (R52), which R56 says the block never does. ENCODE's 4372-byte buffer where OUT_CAP is 4368
  to 4371 (log 8). Safe. -/
  | outputBeyondWindow (bytes : Nat)
deriving DecidableEq, Repr

/-- The refusals: what the spec tells a model to refuse, and element steps no run reaches. -/
inductive Refusal where
  /-- An instruction without a meaning in this model; raised by no arm that has one. Safe. -/
  | notModelled (mnemonic : String)
  /-- A host access that is misaligned, of another width, or sub-word to a register (R58). Safe. -/
  | hostAccessForm
  /-- A host access below BASE: not an address of this block (R50, log 9). Safe. -/
  | addressBelowBase
  /-- A host write to IN or IN_LEN while BUSY = 1 (R255). Safe. -/
  | hostWriteWhileBusy
  /-- A tag executed, or its residue checked, with no decode running (R30, log 14); no run reaches it. Safe. -/
  | noDecodeRunning
  /-- An encoder step with no ENCODE running (R29, log 14); no run reaches it. Safe. -/
  | noEncodeRunning
  /-- A decode whose tag sequence ends before tag `t` (R30, log 14); no run reaches it. Safe. -/
  | noTagToFetch
deriving DecidableEq, Repr

/-- What an operation answers: a value, a fault or a refusal. -/
abbrev Result (α : Type) := Host.Outcome α Fault Refusal

/-- The sentinel dictionary: every slot holds the word 1 (R104). -/
def sentinelDict : Dict := Vector.replicate 16 1

/-- The block right after hardware reset (R250): the four registers 0, IDLE, no working state, no byte of IN or
OUT with a value. The dictionary's value is the model's choice (log 5), the parameters are log 4's, and nothing
from outside is pending (log 1). -/
def State.reset : State where
  cmd := 0
  status := 0
  inLen := 0
  outLen := 0
  inMem := []
  outMem := []
  dict := sentinelDict
  hashTable := Config.hashTable
  params := Config.params
  phase := .idle
  work := .none
  inputs := []
  readLog := []

/-- Writes `cmd` and nothing else. -/
def State.setCmd (s : State) (v : Word) : State := { s with cmd := v }

/-- Writes `status` and nothing else. -/
def State.setStatus (s : State) (v : Word) : State := { s with status := v }

/-- Writes `inLen` and nothing else. -/
def State.setInLen (s : State) (v : Word) : State := { s with inLen := v }

/-- Writes `outLen` and nothing else. -/
def State.setOutLen (s : State) (v : Word) : State := { s with outLen := v }

/-- Writes `inMem` and nothing else. -/
def State.setInMem (s : State) (v : Memory) : State := { s with inMem := v }

/-- Writes `outMem` and nothing else. -/
def State.setOutMem (s : State) (v : Memory) : State := { s with outMem := v }

/-- Writes `dict` and nothing else. -/
def State.setDict (s : State) (v : Dict) : State := { s with dict := v }

/-- Writes `phase` and nothing else. -/
def State.setPhase (s : State) (v : Phase) : State := { s with phase := v }

/-- Writes `work` and nothing else. -/
def State.setWork (s : State) (v : Work) : State := { s with work := v }

/-- Writes `inputs` and nothing else. -/
def State.setInputs (s : State) (v : List Input) : State := { s with inputs := v }

/-- Writes `readLog` and nothing else. -/
def State.setReadLog (s : State) (v : List Word) : State := { s with readLog := v }

end Sys2Proof.Machine
end

