-- ==== Sys2Proof/Machine/Pack.lean ====
section
/-! DEFINITION. The bit-packing units (R120 to R133): stateless transforms between element sequences and words.
The source's unpack tables have no architectural effect and are not modelled (R133). -/

namespace Sys2Proof.Machine

/-- `ceil(a / b)` (R13). -/
def ceilDiv (a b : Nat) : Nat := (a + b - 1) / b

/-- `POS2(j)` (R120). -/
def pos2 : PackLayout → Nat → Nat
  | .interleaved, j => 8 * (j % 4) + 2 * (j / 4)
  | .sequential, j => 2 * j

/-- `POS4(j)` (R120). -/
def pos4 : PackLayout → Nat → Nat
  | .interleaved, j => 8 * (j % 4) + 4 * (j / 4)
  | .sequential, j => 4 * j

/-- `POS10(k)`: value `k` of a triple lies in bits `[10k+9 : 10k]` (R126, R127). -/
def pos10 (k : Nat) : Nat := 10 * k

/-- One packed word: element `j`, from `j` upward, at bit position `pos j`. -/
def packWordFrom {k : Nat} (pos : Nat → Nat) (j : Nat) : List (BitVec k) → Word
  | [] => 0
  | e :: rest => (e.setWidth 32 <<< pos j) ||| packWordFrom pos (j + 1) rest

/-- The first `m` groups of `n` elements, one after another. -/
def chunks {α : Type} (n : Nat) : Nat → List α → List (List α)
  | 0, _ => []
  | m + 1, xs => xs.take n :: chunks n m (xs.drop n)

/-- Zero elements appended up to `total` elements (R123, R126). -/
def padTo {k : Nat} (total : Nat) (xs : List (BitVec k)) : List (BitVec k) :=
  xs ++ List.replicate (total - xs.length) 0

/-- Elements `0 .. n-1` of one packed word. -/
def unpackWord (k : Nat) (pos : Nat → Nat) (n : Nat) (w : Word) : List (BitVec k) :=
  (List.range n).map fun j => w.extractLsb' (pos j) k

/-- PACK2: 1024 tags into 64 words (R121). `unpack2` undoes it and it undoes `unpack2` (R130). -/
def pack2 (lay : PackLayout) (tags : List Tag) : List Word :=
  (chunks 16 Config.tagAreaWords tags).map (packWordFrom (pos2 lay) 0)

/-- UNPACK2: 16 tags from each word (R122); inverse to `pack2` on 64 words (R130). -/
def unpack2 (lay : PackLayout) (ws : List Word) : List Tag :=
  ws.flatMap (unpackWord 2 (pos2 lay) 16)

/-- PACK4: `ceil(n/8)` words, zero-padded to a multiple of 8 elements (R123); `unpack4` gives the elements back with
the padding zeros behind them (R130). -/
def pack4 (lay : PackLayout) (q : List Slot) : List Word :=
  let m := ceilDiv q.length 8
  (chunks 8 m (padTo (8 * m) q)).map (packWordFrom (pos4 lay) 0)

/-- UNPACK4: 8 slot numbers from each word (R124); `pack4` gives the words back (R130). -/
def unpack4 (lay : PackLayout) (ws : List Word) : List Slot :=
  ws.flatMap (unpackWord 4 (pos4 lay) 8)

/-- PACK10: `ceil(n/3)` words, zero-padded to a multiple of 3 elements, bits 31:30 zero (R126); `unpack10` gives the
elements back with the padding zeros behind them (R130). -/
def pack10 (l : List Low) : List Word :=
  let m := ceilDiv l.length 3
  (chunks 3 m (padTo (3 * m) l)).map (packWordFrom pos10 0)

/-- UNPACK10: 3 values from each word, bits 31:30 ignored (R127, R129). -/
def unpack10 (ws : List Word) : List Low :=
  ws.flatMap (unpackWord 10 pos10 3)

end Sys2Proof.Machine
end

