-- ==== Sys2Proof/Machine/Flags.lean ====
section
/-! DEFINITION. The flag computations: the fields of STATUS (R22), the error codes (R220), and the STATUS words a
running and an ended command leave (R227, R228, R252). No condition codes exist (R22). -/

namespace Sys2Proof.Machine

/-- The error codes (R220). -/
inductive ErrCode where
  | none
  | inputError
  | formatHeader
  | formatResidue
  | formatUnderflow
  | illegalCmd
deriving DecidableEq, Repr

/-- The numeric value of an error code in STATUS.ERR (R220). -/
def errValue : ErrCode → BitVec 4
  | .none => 0
  | .inputError => 1
  | .formatHeader => 2
  | .formatResidue => 3
  | .formatUnderflow => 4
  | .illegalCmd => 5

/-- STATUS.BUSY, bit 0 (R22). -/
def busyBit (w : Word) : Bool := w.getLsbD 0

/-- STATUS.DONE, bit 1 (R22). -/
def doneBit (w : Word) : Bool := w.getLsbD 1

/-- STATUS.ERR, bits 7:4 (R22). -/
def errField (w : Word) : BitVec 4 := w.extractLsb' 4 4

/-- The reserved bits 3:2 of STATUS (R22). -/
def statusReservedLow (w : Word) : BitVec 2 := w.extractLsb' 2 2

/-- The reserved bits 31:8 of STATUS (R22). -/
def statusReservedHigh (w : Word) : BitVec 24 := w.extractLsb' 8 24

/-- STATUS while a command runs: BUSY = 1, DONE = 0, ERR = 0 (R252, R256). -/
def statusRunning : Word := 0x00000001

/-- STATUS after a command ended: BUSY = 0, DONE = 1, ERR the code (R227, R228). -/
def statusEnded (e : ErrCode) : Word := 0x00000002 ||| ((errValue e).setWidth 32 <<< 4)

/-- Is a command running (R22)? -/
def isBusy (s : State) : Bool := busyBit s.status

end Sys2Proof.Machine
end

