-- ==== Sys2Proof/Machine/Memory.lean ====
section
/-! DEFINITION. The named operations over a window: reading bytes, writing a run of bytes, and the little-endian
layout of words (R52 to R56). -/

namespace Sys2Proof.Machine

/-- Go on with a value, or stop with the reason there is none. -/
def andThen {α β : Type} (r : Result α) (f : α → Result β) : Result β :=
  match r with
  | .next a => f a
  | .fault e => .fault e
  | .refused e => .refused e

/-- The byte at an offset, if it has a value (R250). -/
def memGet (m : Memory) (off : Nat) : Option Byte :=
  match m with
  | [] => none
  | c :: rest => if c.1 = off then some c.2 else memGet rest off

/-- The cells of a run of bytes from an offset upward. -/
def runCells (off : Nat) : List Byte → Memory
  | [] => []
  | b :: rest => (off, b) :: runCells (off + 1) rest

/-- Writes a run of bytes from an offset upward: every other byte keeps its value, or its lack of one. -/
def writeRun (m : Memory) (off : Nat) (bytes : List Byte) : Memory :=
  (m.filter fun c => decide (c.1 < off)) ++ runCells off bytes
    ++ (m.filter fun c => decide (off + bytes.length ≤ c.1))

/-- Reads `n` bytes from an offset upward; the first byte without a value stops the read. -/
def readBytes (missing : Nat → Fault) (m : Memory) (off : Nat) : Nat → Result (List Byte)
  | 0 => .next []
  | n + 1 =>
    match memGet m off with
    | none => .fault (missing off)
    | some b => andThen (readBytes missing m (off + 1) n) fun bs => .next (b :: bs)

/-- The first `n` bytes of a word, lowest first: byte `j` holds bits `[8j+7 : 8j]` (R53). -/
def wordBytes (n : Nat) (w : Word) : List Byte :=
  (List.range n).map fun j => w.extractLsb' (8 * j) 8

/-- The word whose low bytes these are, lowest first, the rest 0 (R53). -/
def joinBytes : List Byte → Word
  | [] => 0
  | b :: rest => b.setWidth 32 ||| (joinBytes rest <<< 8)

/-- The bytes of a sequence of words at consecutive word offsets (R53). -/
def wordsBytes (ws : List Word) : List Byte :=
  ws.flatMap (wordBytes 4)

/-- `MemRead(IN, off, n)`: the block's read of the input window (R55). It has no side effect. -/
def memReadIn (s : State) (off n : Nat) : Result (List Byte) :=
  readBytes .inByteUnwritten s.inMem off n

/-- `LE32(IN, k)`: the input word at word offset `k` (R13, R53, R54). -/
def le32 (s : State) (k : Nat) : Result Word :=
  andThen (memReadIn s (4 * k) 4) fun bs => .next (joinBytes bs)

/-- The input words at word offsets `k .. k+n-1`. -/
def readWords (s : State) (k : Nat) : Nat → Result (List Word)
  | 0 => .next []
  | n + 1 => andThen (le32 s k) fun w => andThen (readWords s (k + 1) n) fun ws => .next (w :: ws)

/-- The staged writes of a command made visible in OUT together, from offset 0 (R56, R162, R199). -/
def commitOut (s : State) (ws : List Word) : State :=
  s.setOutMem (writeRun s.outMem 0 (wordsBytes ws))

end Sys2Proof.Machine
end

