-- ==== Sys2Proof/Machine/Operands.lean ====
section
/-! DEFINITION. The operand units: the split of a word (R7), the hash lookup (R101), the dictionary controller
(R104 to R107) and the next element of a side-stream (R84, R192). -/

namespace Sys2Proof.Machine

/-- `high(w) = w[31:10]` (R7). -/
def highBits (w : Word) : High := w.extractLsb' 10 22

/-- `low(w) = w[9:0]` (R7). -/
def lowBits (w : Word) : Low := w.extractLsb' 0 10

/-- The hash key `(w >> 10) & 0xFF`, that is `w[17:10]` (R101, R102). -/
def hashKey (w : Word) : BitVec 8 := w.extractLsb' 10 8

/-- `HASH(w)`: the slot the ROM gives for the key (R101). -/
def hashSlot (table : HashTable) (w : Word) : Slot := table[(hashKey w).toNat]'(hashKey w).isLt

/-- DICT_INIT: every slot holds the sentinel (R104). -/
def dictInit (s : State) : State := s.setDict sentinelDict

/-- DICT_LOOKUP's word (R105); its high half is `highBits` of it (R26). -/
def dictWord (d : Dict) (slot : Slot) : Word := d[slot.toNat]'slot.isLt

/-- DICT_LOOKUP: the pair of the slot's word and its high bits (R105). -/
def dictLookup (d : Dict) (slot : Slot) : Word × High := (dictWord d slot, highBits (dictWord d slot))

/-- DICT_STORE: the slot is overwritten, no other slot changes (R106, R107). Storing 0 is legal (R106); who does it is
log 18's. -/
def dictStore (d : Dict) (slot : Slot) (w : Word) : Dict := d.set slot.toNat w slot.isLt

/-- A word from a dictionary word's high bits and a low-bits element: `(dw & 0xFFFFFC00) | zext(lb)` (R84, R195). -/
def rebuildWord (dw : Word) (lb : Low) : Word := (dw &&& 0xFFFFFC00) ||| lb.setWidth 32

/-- The element a cursor stands on, none where the stream is exhausted (R197). -/
def streamNext {α : Type} (stream : List α) (cursor : Nat) : Option α := stream[cursor]?

end Sys2Proof.Machine
end

