-- ==== Sys2Proof/Machine/Ops.lean ====
section
/-! DEFINITION. Starting a command (R252), ending it with an error, the block's one exception (R227), and ending
it without one (R228). There is no return from an error: the next start clears it (R230). -/

namespace Sys2Proof.Machine

/-- The end every command has in common: its working state is discarded, STATUS tells the code, OUT_LEN the
output length, and the sequencer is IDLE (R227, R228, R32). -/
def endCommand (e : ErrCode) (len : Nat) (s : State) : State :=
  (((s.setStatus (statusEnded e)).setOutLen (BitVec.ofNat 32 len)).setPhase .idle).setWork .none

/-- `raise E` (R227): OUT_LEN is 0, staged writes are dropped, OUT, IN, IN_LEN and CMD stay as they were. -/
def raiseError (e : ErrCode) (s : State) : State :=
  endCommand e 0 s

/-- A command that ends without error (R228): its staged words become visible in OUT, OUT_LEN is its length. Words
without room in OUT have no such end: the block writes only below OUT_CAP (R56) and never shows a truncated result
(R229), so the model stops (log 8). -/
def endOk (words : List Word) (len : Nat) (s : State) : Result State :=
  if 4 * words.length ≤ s.params.outCap then .next (endCommand .none len (commitOut s words))
  else .fault (.outputBeyondWindow (4 * words.length))

/-- The phase a command runs in (R32, R252). -/
def phaseOf : Instr → Phase
  | .encode => .encRun
  | .decodeStd => .decRun
  | .decodeAlt => .decRun
  | .tagZero => .idle
  | .tagPartial => .idle
  | .tagMiss => .idle
  | .tagExact => .idle

/-- The registers as a CMD write while BUSY = 0 leaves them: the word latched, OUT_LEN and STATUS cleared (R252). -/
def latchCommand (c : Word) (s : State) : State :=
  ((s.setCmd c).setOutLen 0).setStatus 0

/-- Command start (R252): an illegal word ends at once with ILLEGAL_CMD (R221), a legal one sets BUSY and moves
the sequencer. The started command has no working state yet; it sets up its own (R152, R191). -/
def startCommand (c : Word) (s : State) : State :=
  match decodeCommand c with
  | .error _ => raiseError .illegalCmd (latchCommand c s)
  | .ok i => (((latchCommand c s).setStatus statusRunning).setPhase (phaseOf i)).setWork .none

/-- Hardware reset at any moment (R250, R251): everything of the block is as after reset; the ROM and the
parameters are constant (R27), and what the outside does next and has read is not the block's. -/
def hardReset (s : State) : State :=
  { State.reset with hashTable := s.hashTable, params := s.params, inputs := s.inputs, readLog := s.readLog }

end Sys2Proof.Machine
end

