-- ==== Sys2Proof/Machine/Tags.lean ====
section
/-! DEFINITION. The four tags as the decoder executes them (R192 to R197): tag consumer and word reconstructor.
Each takes its operands from the side-streams at the cursors, appends one word to the staged output and moves
on to the next tag; an exhausted stream ends the command with FORMAT_UNDERFLOW (R197). -/

namespace Sys2Proof.Machine

/-- One word appended to the output, and on to the next tag (R192). -/
def emitWord (v : Word) (w : DecWork) : DecWork :=
  { w with out := w.out ++ [v], t := w.t + 1 }

/-- ZERO: emits 0; dictionary and cursors unchanged (R193). -/
def execTagZero (s : State) : Result State :=
  match s.work with
  | .dec w => .next (s.setWork (.dec (emitWord 0 w)))
  | _ => .refused .noDecodeRunning

/-- EXACT: one QPos element; emits the slot's word, dictionary unchanged (R194). -/
def execTagExact (s : State) : Result State :=
  match s.work with
  | .dec w =>
    match streamNext w.Q w.cq with
    | none => .next (raiseError .formatUnderflow s)
    | some q => .next (s.setWork (.dec (emitWord (dictWord s.dict q) { w with cq := w.cq + 1 })))
  | _ => .refused .noDecodeRunning

/-- PARTIAL: one QPos and one low-bits element; the rebuilt word is stored back and emitted (R195). DEDUCED: the
rebuilt word can be 0 (the slot's high bits 0 and `lb = 0`) and is stored as R195's pseudocode says, although R106 says
in passing that only MISS can store 0 (log 18). -/
def execTagPartial (s : State) : Result State :=
  match s.work with
  | .dec w =>
    match streamNext w.Q w.cq, streamNext w.L w.cl with
    | some q, some lb =>
      let v := rebuildWord (dictWord s.dict q) lb
      .next ((s.setDict (dictStore s.dict q v)).setWork
        (.dec (emitWord v { w with cq := w.cq + 1, cl := w.cl + 1 })))
    | _, _ => .next (raiseError .formatUnderflow s)
  | _ => .refused .noDecodeRunning

/-- MISS: one full pattern, stored at its hash slot and emitted (R196). -/
def execTagMiss (s : State) : Result State :=
  match s.work with
  | .dec w =>
    match streamNext w.F w.cf with
    | none => .next (raiseError .formatUnderflow s)
    | some v =>
      .next ((s.setDict (dictStore s.dict (hashSlot s.hashTable v) v)).setWork
        (.dec (emitWord v { w with cf := w.cf + 1 })))
  | _ => .refused .noDecodeRunning

end Sys2Proof.Machine
end

