-- ==== Sys2Proof/Machine/Decoder.lean ====
section
/-! DEFINITION. The decoder (R180 to R203): header parser, side-stream unpacker, the walk over the tags, the
residue check and the end, shared by both layouts. -/

namespace Sys2Proof.Machine

/-- `NW`, the buffer's length in whole words (R185). -/
def inWords (s : State) : Nat := s.inLen.toNat / 4

/-- DEC_HEADER's field extraction (R185): the three words at `hw-3`, `hw-2`, `hw-1`. The standard layout's word 0
is read first and ignored (R203, log 11). -/
def readHeader (hw : Nat) (s : State) : Result (Nat × Nat × Nat) :=
  andThen (readWords s 0 (hw - 3)) fun _ =>
  andThen (le32 s (hw - 3)) fun q =>
  andThen (le32 s (hw - 2)) fun l =>
  andThen (le32 s (hw - 1)) fun e =>
    .next (q.toNat, l.toNat, e.toNat)

/-- DEC_HEADER's validation: the offsets that fail with FORMAT_HEADER (R186). -/
abbrev headerBad (hw nw : Nat) (h : Nat × Nat × Nat) : Prop :=
  nw < max (max h.1 h.2.1) h.2.2 ∨ h.2.1 < h.1 ∨ h.2.2 < h.2.1 ∨ h.1 < hw + Config.tagAreaWords

/-- DEC_UNPACK (R187 to R190) and DEC_INIT's cursors and output (R191). -/
def unpackStreams (hw : Nat) (h : Nat × Nat × Nat) (s : State) : Result DecWork :=
  andThen (readWords s hw Config.tagAreaWords) fun tagWords =>
  andThen (readWords s (hw + Config.tagAreaWords) (h.1 - (hw + Config.tagAreaWords))) fun full =>
  andThen (readWords s h.1 (h.2.1 - h.1)) fun qWords =>
  andThen (readWords s h.2.1 (h.2.2 - h.2.1)) fun lWords =>
    .next
      { hw := hw, qposStart := h.1, lowStart := h.2.1, lowEnd := h.2.2
        tags := unpack2 s.params.packLayout tagWords
        F := full
        Q := unpack4 s.params.packLayout qWords
        L := unpack10 lWords
        cf := 0, cq := 0, cl := 0, t := 0, out := [] }

/-- A decode up to its walk: input check (R222), short buffer (R184), header (R185, R186), unpacking (R187 to
R190), fresh dictionary (R191). -/
def decBegin (hw : Nat) (s : State) : Result State :=
  if s.params.inCap < s.inLen.toNat then .next (raiseError .inputError s)
  else if s.inLen.toNat < 4 * hw then .next (raiseError .formatHeader s)
  else
    andThen (readHeader hw s) fun h =>
      if headerBad hw (inWords s) h then .next (raiseError .formatHeader s)
      else andThen (unpackStreams hw h s) fun w => .next ((dictInit s).setWork (.dec w))

/-- DEC_STEP: the tag at `t`, by its code (R192). -/
def decStep (s : State) : Result State :=
  match s.work with
  | .dec w =>
    match w.tags[w.t]? with
    | none => .refused .noTagToFetch
    | some tag =>
      if tag = codeZero then execTagZero s
      else if tag = codeExact then execTagExact s
      else if tag = codePartial then execTagPartial s
      else execTagMiss s
  | _ => .refused .noDecodeRunning

/-- DEC_RESIDUE: is some element beyond its cursor nonzero (R198)? -/
def hasResidue (w : DecWork) : Bool :=
  (w.F.drop w.cf).any (fun v => v ≠ 0) || (w.Q.drop w.cq).any (fun v => v ≠ 0)
    || (w.L.drop w.cl).any (fun v => v ≠ 0)

/-- DEC_RESIDUE and DEC_EMIT (R198, R199): the page becomes OUT and the command ends with OUT_LEN = 4096. -/
def decEnd (s : State) : Result State :=
  match s.work with
  | .dec w =>
    if hasResidue w then .next (raiseError .formatResidue s)
    else endOk w.out Config.pageBytes s
  | _ => .next s

/-- `n` turns of the walk; a command that has already ended takes none (R182). -/
def decLoop : Nat → State → Result State
  | 0, s => .next s
  | n + 1, s =>
    match s.work with
    | .dec _ => andThen (decStep s) (decLoop n)
    | _ => .next s

/-- DEC_CORE with its input check, from the start of the command to its end (R180 to R182, R259). -/
def decCommand (hw : Nat) (s : State) : Result State :=
  andThen (decBegin hw s) fun s1 => andThen (decLoop Config.pageWords s1) decEnd

/-- DECODE_STD: the shared core with a 4-word header (R180). -/
def execDecodeStd (s : State) : Result State := decCommand 4 s

/-- DECODE_ALT: the shared core with a 3-word header (R181). -/
def execDecodeAlt (s : State) : Result State := decCommand 3 s

end Sys2Proof.Machine
end

