-- ==== Sys2Proof/Machine/Encoder.lean ====
section
/-! DEFINITION. The encoder (R150 to R166): ENCODE's input check and set-up, the per-word step, and the end. -/

namespace Sys2Proof.Machine

/-- ENC_EXACT: the slot joins QPosArray (R154). -/
def encExact (slot : Slot) (w : EncWork) : EncWork :=
  { w with i := w.i + 1, tags := w.tags ++ [codeExact], Q := w.Q ++ [slot] }

/-- ENC_ZERO: a tag and nothing else (R155). -/
def encZero (w : EncWork) : EncWork :=
  { w with i := w.i + 1, tags := w.tags ++ [codeZero] }

/-- ENC_PARTIAL: the slot joins QPosArray and the low bits join LowBitsArray (R156). -/
def encPartial (slot : Slot) (v : Word) (w : EncWork) : EncWork :=
  { w with i := w.i + 1, tags := w.tags ++ [codePartial], Q := w.Q ++ [slot], L := w.L ++ [lowBits v] }

/-- ENC_MISS: the word joins FullPatterns (R157). -/
def encMiss (v : Word) (w : EncWork) : EncWork :=
  { w with i := w.i + 1, tags := w.tags ++ [codeMiss], F := w.F ++ [v] }

/-- The classifier, tag generator and side-stream builder on one word (R153), in the priority order EXACT, ZERO,
PARTIAL, MISS (R158). PARTIAL and MISS store the word; EXACT need not, ZERO does not (R159). -/
def encElement (table : HashTable) (v : Word) (p : Dict × EncWork) : Dict × EncWork :=
  let slot := hashSlot table v
  let found := dictLookup p.1 slot
  if v = found.1 then (p.1, encExact slot p.2)
  else if v = 0 then (p.1, encZero p.2)
  else if highBits v = found.2 then (dictStore p.1 slot v, encPartial slot v p.2)
  else (dictStore p.1 slot v, encMiss v p.2)

/-- ENC init: no word read, no tag, no stream element (R152). -/
def encWorkInit : EncWork := { i := 0, tags := [], Q := [], L := [], F := [] }

/-- The encoder's dictionary and streams after these words, in order, from a fresh start (R152, R153, R257). -/
def encodeWords (table : HashTable) (page : List Word) : Dict × EncWork :=
  page.foldl (fun p v => encElement table v p) (sentinelDict, encWorkInit)

/-- ENC_STEP: the next input word, classified against the dictionary the last one left (R153, R257). -/
def encStep (s : State) : Result State :=
  match s.work with
  | .enc w =>
    andThen (le32 s w.i) fun v =>
      let p := encElement s.hashTable v (s.dict, w)
      .next ((s.setDict p.1).setWork (.enc p.2))
  | _ => .refused .noEncodeRunning

/-- Header offsets of a canonical buffer with an `hw`-word header (R77); ENC_HEADER is `hw = 4` (R161). -/
def sectionStarts (hw nF nQ nL : Nat) : Nat × Nat × Nat :=
  let qposStart := hw + Config.tagAreaWords + nF
  let lowStart := qposStart + ceilDiv nQ 8
  let lowEnd := lowStart + ceilDiv nL 3
  (qposStart, lowStart, lowEnd)

/-- The header words: the standard layout has a leading reserved word 0, the alternate has none (R74, R75). -/
def headerWords (hw : Nat) (starts : Nat × Nat × Nat) : List Word :=
  (if hw = 4 then [0] else [])
    ++ [BitVec.ofNat 32 starts.1, BitVec.ofNat 32 starts.2.1, BitVec.ofNat 32 starts.2.2]

/-- A canonical buffer: header, tags, full patterns, packed QPos, packed low bits, with no gaps (R76, R162). -/
def bufferWords (hw : Nat) (lay : PackLayout) (tags : List Tag) (Q : List Slot) (L : List Low) (F : List Word) :
    List Word :=
  headerWords hw (sectionStarts hw F.length Q.length L.length)
    ++ pack2 lay tags ++ F ++ pack4 lay Q ++ pack10 L

/-- The word offset one past the low-bits section: the buffer's length in words (R77). DEDUCED: R161's formula gives
up to 1093 words, although R24 and R163 derive a maximum of 1092 from it (log 7). -/
def bufferLength (hw : Nat) (Q : List Slot) (L : List Low) (F : List Word) : Nat :=
  (sectionStarts hw F.length Q.length L.length).2.2

/-- ENC_HEADER and ENC_EMIT: the standard-layout buffer becomes OUT and the command ends (R161, R162, R228). -/
def encEnd (s : State) : Result State :=
  match s.work with
  | .enc w =>
    endOk (bufferWords 4 s.params.packLayout w.tags w.Q w.L w.F) (4 * bufferLength 4 w.Q w.L w.F) s
  | _ => .next s

/-- The buffer ENCODE makes of a page (R162): a function of the page, HASH_TABLE and PACK_LAYOUT alone (R165). -/
def encodedBuffer (table : HashTable) (lay : PackLayout) (page : List Word) : List Word :=
  let w := (encodeWords table page).2
  bufferWords 4 lay w.tags w.Q w.L w.F

/-- ENCODE up to its loop: the input check, then DICT_INIT and empty streams (R151, R152, R222). -/
def encBegin (s : State) : Result State :=
  if s.params.inCap < s.inLen.toNat ∨ s.inLen.toNat ≠ Config.pageBytes then .next (raiseError .inputError s)
  else .next ((dictInit s).setWork (.enc encWorkInit))

/-- `n` turns of ENCODE's loop; a command that has already ended takes none (R150). -/
def encLoop : Nat → State → Result State
  | 0, s => .next s
  | n + 1, s =>
    match s.work with
    | .enc _ => andThen (encStep s) (encLoop n)
    | _ => .next s

/-- ENCODE from its input check to its end, as one atomic command (R150, R259). -/
def execEncode (s : State) : Result State :=
  andThen (encBegin s) fun s1 => andThen (encLoop Config.pageWords s1) encEnd

end Sys2Proof.Machine
end

