-- ==== Sys2Proof/Machine/Dispatch.lean ====
section
/-! DEFINITION. One arm per instruction of the opcode table. -/

namespace Sys2Proof.Machine

def exec (i : Instr) (s : State) : Host.Outcome State Fault Refusal :=
  match i with
  | .encode => Sys2Proof.Machine.execEncode s
  | .decodeStd => Sys2Proof.Machine.execDecodeStd s
  | .decodeAlt => Sys2Proof.Machine.execDecodeAlt s
  | .tagZero => Sys2Proof.Machine.execTagZero s
  | .tagPartial => Sys2Proof.Machine.execTagPartial s
  | .tagMiss => Sys2Proof.Machine.execTagMiss s
  | .tagExact => Sys2Proof.Machine.execTagExact s

end Sys2Proof.Machine
end

