-- ==== Sys2Proof/Machine/HostPort.lean ====
section
/-! DEFINITION. What the host can do: the address map (R50 to R52), the permitted access forms (R58), reads and
writes (R33, R59, R254 to R256), and the two notations' expansions (R85 to R87). By offset from BASE: registers
0x0000..0x00FF, IN 0x2000..0x3FFF, OUT 0x4000..0x5FFF, the rest reserved. -/

namespace Sys2Proof.Machine

/-- The access forms the block permits, by offset from BASE and size in bytes (R58): aligned words in the
register window, naturally aligned 1, 2 or 4 bytes elsewhere (log 9). -/
abbrev accessPermitted (off size : Nat) : Prop :=
  (off < 0x100 ∧ size = 4 ∧ off % 4 = 0)
    ∨ (0x100 ≤ off ∧ (size = 1 ∨ size = 2 ∨ size = 4) ∧ off % size = 0)

/-- Is the offset a byte of IN (R52)? -/
abbrev isInByte (p : Params) (off : Nat) : Prop :=
  0x2000 ≤ off ∧ off < 0x4000 ∧ off - 0x2000 < p.inCap

/-- Is the offset a byte of OUT (R52)? -/
abbrev isOutByte (p : Params) (off : Nat) : Prop :=
  0x4000 ≤ off ∧ off < 0x6000 ∧ off - 0x4000 < p.outCap

/-- A register of the register window; its unmapped offsets read 0 (R21 to R24, R33). -/
def readReg (s : State) (off : Nat) : Word :=
  if off = 0x000 then s.cmd
  else if off = 0x004 then s.status
  else if off = 0x008 then s.inLen
  else if off = 0x00C then s.outLen
  else 0

/-- One byte outside the register window: IN, OUT, or a reserved address, which reads 0 (R52, R250). -/
def readByteAt (s : State) (off : Nat) : Result Byte :=
  if isInByte s.params off then
    match memGet s.inMem (off - 0x2000) with
    | some b => .next b
    | none => .fault (.inByteUnwritten (off - 0x2000))
  else if isOutByte s.params off then
    match memGet s.outMem (off - 0x4000) with
    | some b => .next b
    | none => .fault (.outByteUnwritten (off - 0x4000))
  else .next 0

/-- `n` bytes outside the register window, each by its own address. -/
def readBytesAt (s : State) (off : Nat) : Nat → Result (List Byte)
  | 0 => .next []
  | n + 1 => andThen (readByteAt s off) fun b => andThen (readBytesAt s (off + 1) n) fun bs => .next (b :: bs)

/-- What a permitted read at an offset returns: a register, or little-endian bytes (R53, R58). -/
def readOffset (s : State) (off size : Nat) : Result Word :=
  if off < 0x100 then .next (readReg s off)
  else andThen (readBytesAt s off size) fun bs => .next (joinBytes bs)

/-- A host read returns its value to the host, which the model logs (log 2); nothing of the block changes (R59). -/
def logRead (v : Word) (s : State) : State := s.setReadLog (v :: s.readLog)

/-- A write to a register: CMD starts a command (R252) unless one runs (R254); IN_LEN is written (R23) unless a
command runs (R255); every other offset ignores it (R22, R24, R33, R59). -/
def writeReg (off : Nat) (v : Word) (s : State) : Result State :=
  if off = 0x000 then
    if isBusy s then .next s else .next (startCommand v s)
  else if off = 0x008 then
    if isBusy s then .refused .hostWriteWhileBusy else .next (s.setInLen v)
  else .next s

/-- A write outside the register window: bytes of IN are written (R52) unless a command runs (R255); OUT and the
reserved addresses ignore it (R59), and so do the bytes at or beyond IN_CAP (R52). -/
def writeWindow (off size : Nat) (v : Word) (s : State) : Result State :=
  if isInByte s.params off then
    if isBusy s then .refused .hostWriteWhileBusy
    else
      let at0 := off - 0x2000
      .next (s.setInMem (writeRun s.inMem at0 ((wordBytes size v).take (s.params.inCap - at0))))
  else .next s

/-- A permitted write at an offset (R58, R59). -/
def writeOffset (off size : Nat) (v : Word) (s : State) : Result State :=
  if off < 0x100 then writeReg off v s else writeWindow off size v s

/-- The offset from BASE of a permitted access; any other access is refused (R58, log 9). -/
def accessOffset (s : State) (addr size : Nat) : Result Nat :=
  if addr < s.params.base then .refused .addressBelowBase
  else if accessPermitted (addr - s.params.base) size then .next (addr - s.params.base)
  else .refused .hostAccessForm

/-- One host access, atomic (R58 to R61). -/
def hostAccess (a : HostAccess) (s : State) : Result State :=
  match a with
  | .read addr size =>
    andThen (accessOffset s addr size) fun off =>
      andThen (readOffset s off size) fun v => .next (logRead v s)
  | .write addr size data =>
    andThen (accessOffset s addr size) fun off => writeOffset off size data s

/-- A register's offset (R51). -/
def regOffset : HostReg → Nat
  | .cmd => 0x000
  | .status => 0x004
  | .inLen => 0x008
  | .outLen => 0x00C

/-- Writes of words at consecutive word offsets (R85, FILL). -/
def fillInputs (addr : Nat) : List Word → List Input
  | [] => []
  | w :: rest => .access (.write addr 4 w) :: fillInputs (addr + 4) rest

/-- Reads of `n` words at consecutive word offsets (R85, DUMP). -/
def dumpInputs (addr : Nat) : Nat → List Input
  | 0 => []
  | n + 1 => .access (.read addr 4) :: dumpInputs (addr + 4) n

/-- A register write (R85, WR). -/
def regWrite (base : Nat) (r : HostReg) (v : Word) : Input := .access (.write (base + regOffset r) 4 v)

/-- The command word of RUN's operand (R86). -/
def commandWord (i : Instr) : Word :=
  match encode i with
  | .command w => w
  | .tag t => t.setWidth 32

/-- What a statement of the host notation expands to (R85, R86). -/
def expandStmt (base : Nat) : HostStmt → List Input
  | .wr r v => [regWrite base r v]
  | .rd r => [.access (.read (base + regOffset r) 4)]
  | .fill off ws => fillInputs (base + 0x2000 + off) ws
  | .pollDone => [.poll]
  | .dump off n => dumpInputs (base + 0x4000 + off) n
  | .run i len => [regWrite base .inLen len, regWrite base .cmd (commandWord i), .poll]

/-- A host program: its statements in order (R85). -/
def expandProgram (base : Nat) (p : List HostStmt) : List Input := p.flatMap (expandStmt base)

/-- The tag of a tag-program entry (R87). -/
def opTag : TagOp → Tag
  | .zero => codeZero
  | .exact _ => codeExact
  | .partialWord _ _ => codePartial
  | .miss _ => codeMiss

/-- Its QPos operand, if it has one (R87). -/
def opQ : TagOp → List Slot
  | .exact q => [q]
  | .partialWord q _ => [q]
  | .zero => []
  | .miss _ => []

/-- Its low-bits operand, if it has one (R87). -/
def opL : TagOp → List Low
  | .partialWord _ lb => [lb]
  | .zero => []
  | .exact _ => []
  | .miss _ => []

/-- Its full-pattern operand, if it has one (R87). -/
def opF : TagOp → List Word
  | .miss w => [w]
  | .zero => []
  | .exact _ => []
  | .partialWord _ _ => []

/-- A tag program assembled into an encoded buffer with an `hw`-word header (R87). -/
def assembleTags (hw : Nat) (lay : PackLayout) (ops : List TagOp) : List Word :=
  bufferWords hw lay (ops.map opTag) (ops.flatMap opQ) (ops.flatMap opL) (ops.flatMap opF)

end Sys2Proof.Machine
end

