-- ==== Sys2Proof/Machine/Turn.lean ====
section
/-! DEFINITION. Whose turn it is and what the turn does: the block fetches its next instruction and runs it, or
does the internal work between instructions; the host makes an access; reset comes (log 1, log 3). -/

namespace Sys2Proof.Machine

/-- The instruction the block runs next: a started command whose working state is not set up yet, from CMD
(R252), or the tag at `t` of a running decode (R192). Between them, and in ENCODE's loop, there is none. -/
def fetch (s : State) : Option Instr :=
  match s.phase, s.work with
  | .idle, _ => none
  | _, .none => (decodeCommand s.cmd).toOption
  | _, .dec w => if w.t < Config.pageWords then (w.tags[w.t]?).map decodeTag else none
  | _, .enc _ => none

/-- The block's work where there is no instruction to fetch: nothing while IDLE; ENC_STEP or ENCODE's end (R153,
R162); a decode's end after tag 1023 (R198, R199). A command word that is illegal ends with ILLEGAL_CMD (R221). -/
def internalWork (s : State) : Result State :=
  match s.phase, s.work with
  | .idle, _ => .next s
  | _, .none => .next (raiseError .illegalCmd s)
  | _, .enc w => if w.i < Config.pageWords then encStep s else encEnd s
  | _, .dec w => if w.t < Config.pageWords then .refused .noTagToFetch else decEnd s

/-- The first unit of a command: its checks and set-up, up to its loop (R150, R182, log 3). -/
def beginCommand (i : Instr) (s : State) : Result State :=
  match i with
  | .encode => encBegin s
  | .decodeStd => decBegin 4 s
  | .decodeAlt => decBegin 3 s
  | .tagZero => exec .tagZero s
  | .tagPartial => exec .tagPartial s
  | .tagMiss => exec .tagMiss s
  | .tagExact => exec .tagExact s

/-- The block's turn while nothing from the host can fall inside a command: the fetched instruction, whole (R259). -/
def blockTurn (s : State) : Result State :=
  match fetch s with
  | some i => exec i s
  | none => internalWork s

/-- One unit of the block's work, between two of which the host may act: a command's set-up, one element, a
command's end (log 3). -/
def blockUnit (s : State) : Result State :=
  match fetch s with
  | some i => beginCommand i s
  | none => internalWork s

/-- One round of `POLL DONE` (R85): a read of STATUS that shows DONE = 1 ends the poll and is logged; otherwise
the block has its turn and the host polls again (log 13). -/
def pollRound (rest : List Input) (s : State) : Result State :=
  if doneBit s.status then .next (logRead s.status (s.setInputs rest)) else blockTurn s

/-- One turn, by what `inputs` says comes next (log 1). -/
def turn (s : State) : Result State :=
  match s.inputs with
  | [] => blockTurn s
  | .tick :: rest => blockUnit (s.setInputs rest)
  | .poll :: rest => pollRound rest s
  | .access a :: rest => hostAccess a (s.setInputs rest)
  | .reset :: rest => .next (hardReset (s.setInputs rest))

/-- A state whose next fetch is the command word `w`: latched in CMD and started, with nothing from the host
pending. An illegal word is a CMD write still to be made, which ends at once (R252). -/
def placeCommand (w : Word) (s : State) : State :=
  match decodeCommand w with
  | .ok _ => (startCommand w s).setInputs []
  | .error _ => (endCommand .none 0 s).setInputs [regWrite s.params.base .cmd w]

/-- A state whose next fetch is the tag `t`: a DECODE_STD at its first tag, with one zero word of each
side-stream section as the tag's operands, and with nothing from the host pending (log 12). -/
def placeTag (t : Tag) (s : State) : State :=
  ((startCommand (commandWord .decodeStd) s).setInputs []).setWork
    (.dec { hw := 4, qposStart := 69, lowStart := 70, lowEnd := 71
            tags := t :: List.replicate 1023 codeZero
            F := List.replicate 1 0, Q := List.replicate 8 0, L := List.replicate 3 0
            cf := 0, cq := 0, cl := 0, t := 0, out := [] })

end Sys2Proof.Machine
end

