-- ==== Sys2Proof/Machine/Step.lean ====
section
/-! DEFINITION. One step of the machine, and where its next instruction stands. -/

namespace Sys2Proof.Machine

/-- One step: the next turn of whoever moves next. -/
def step (s : State) : Host.Outcome State Fault Refusal := turn s

/-- `s` with the instruction of `nbits` bits that are `w` placed where `step` fetches its next one: a tag in the
tag sequence of a running decode, a command word in CMD (log 12). -/
def State.withFetchWord (s : State) (nbits w : Nat) : State :=
  if nbits ≤ 8 then placeTag (BitVec.ofNat 2 w) s else placeCommand (BitVec.ofNat 32 w) s

end Sys2Proof.Machine
end

