-- ==== Sys2Proof/Safety.lean ====
section
/-! DEFINITION. The terms claims are stated in: the invariant of the block, what a window holds, what it takes for
a command to find its input, and what a tag program means. -/

namespace Sys2Proof.Machine

/-- STATUS reads as the spec lays it out (R22, R220): reserved bits 0, BUSY and DONE never together, a code in
0..5, and a nonzero code only with DONE. -/
structure StatusOk (w : Word) : Prop where
  reservedLow : statusReservedLow w = 0
  reservedHigh : statusReservedHigh w = 0
  exclusive : ¬ (busyBit w = true ∧ doneBit w = true)
  code : (errField w).toNat ≤ 5
  codeWhenDone : errField w ≠ 0 → doneBit w = true

/-- The legal values of OUT_LEN (R24): 0, a decode's 4096, or an encoded buffer's length. The upper bound is the
one R161's formula gives, not R24's 4368 (log 7). -/
def OutLenOk (w : Word) : Prop :=
  w.toNat = 0 ∨ w.toNat = 4096 ∨ (272 ≤ w.toNat ∧ w.toNat ≤ 4372 ∧ w.toNat % 4 = 0)

/-- A window in canonical form, with bytes below its capacity only (R52). -/
structure WindowOk (cap : Nat) (m : Memory) : Prop where
  sorted : Memory.wf m
  bounded : ∀ c ∈ m, c.1 < cap

/-- The encoder's stream invariants (R29, R160), no zero in the dictionary or among the full patterns (R166). -/
structure EncOk (d : Dict) (w : EncWork) : Prop where
  pc : w.i ≤ 1024
  tags : w.tags.length = w.i
  qCount : w.Q.length = w.tags.count codeExact + w.tags.count codePartial
  lCount : w.L.length = w.tags.count codePartial
  fCount : w.F.length = w.tags.count codeMiss
  dictNonzero : ∀ q : Slot, dictWord d q ≠ 0
  fullNonzero : ∀ v ∈ w.F, v ≠ 0

/-- The decoder's invariants (R30): the streams have the lengths the header gives (R83), each cursor stands where
the tags so far put it (R258), and there is one output word per tag so far. -/
structure DecOk (w : DecWork) : Prop where
  header : w.hw = 3 ∨ w.hw = 4
  order : w.hw + 64 ≤ w.qposStart ∧ w.qposStart ≤ w.lowStart ∧ w.lowStart ≤ w.lowEnd
  tags : w.tags.length = 1024
  fLength : w.F.length = w.qposStart - w.hw - 64
  qLength : w.Q.length = 8 * (w.lowStart - w.qposStart)
  lLength : w.L.length = 3 * (w.lowEnd - w.lowStart)
  pc : w.t ≤ 1024
  out : w.out.length = w.t
  cf : w.cf = (w.tags.take w.t).count codeMiss
  cq : w.cq = (w.tags.take w.t).count codeExact + (w.tags.take w.t).count codePartial
  cl : w.cl = (w.tags.take w.t).count codePartial
  cfBound : w.cf ≤ w.F.length
  cqBound : w.cq ≤ w.Q.length
  clBound : w.cl ≤ w.L.length

/-- The working state fits the phase and the latched command (R29, R30, R32, R252). -/
def WorkOk (s : State) : Prop :=
  match s.work with
  | .none => s.phase ≠ .idle → (decodeCommand s.cmd).toOption.map phaseOf = some s.phase
  | .enc w => s.phase = .encRun ∧ decodeCommand s.cmd = .ok .encode ∧ EncOk s.dict w
  | .dec w => s.phase = .decRun
      ∧ decodeCommand s.cmd = .ok (if w.hw = 4 then .decodeStd else .decodeAlt) ∧ DecOk w

/-- What every reachable state of the block satisfies. -/
structure StateInv (s : State) : Prop where
  table : hashTableOk s.hashTable = true
  params : s.params.wellFormed = true
  status : StatusOk s.status
  outLen : OutLenOk s.outLen
  outLenZero : busyBit s.status = true ∨ errField s.status ≠ 0 → s.outLen = 0
  idle : s.phase = .idle ↔ busyBit s.status = false
  inWindow : WindowOk s.params.inCap s.inMem
  outWindow : WindowOk s.params.outCap s.outMem
  work : WorkOk s

/-- The first `n` bytes of IN have values: what R253 asks of a host before it starts a command on them. -/
def InReadable (s : State) (n : Nat) : Prop := ∀ k < n, ∃ b, memGet s.inMem k = some b

/-- A window holds these bytes from offset 0 upward. -/
def Holds (m : Memory) (bytes : List Byte) : Prop := ∀ k < bytes.length, memGet m k = bytes[k]?

/-- The host's next access is this write, at an offset from BASE (R50, R58). -/
def HostWrites (s : State) (off size : Nat) (v : Word) (rest : List Input) : Prop :=
  s.inputs = .access (.write (s.params.base + off) size v) :: rest

/-- The host's next access is this read, at an offset from BASE (R50, R58). -/
def HostReads (s : State) (off size : Nat) (rest : List Input) : Prop :=
  s.inputs = .access (.read (s.params.base + off) size) :: rest

/-- A started command that has not done any work yet: latched, BUSY, no working state (R252). -/
structure Started (i : Instr) (s : State) : Prop where
  latched : decodeCommand s.cmd = .ok i
  busy : s.status = statusRunning
  phase : s.phase = phaseOf i
  work : s.work = .none

/-- `n` steps, stopping at the first fault or refusal. -/
def stepN : Nat → State → Result State
  | 0, s => .next s
  | n + 1, s => andThen (step s) (stepN n)

/-- One tag of a tag program on a dictionary: the dictionary after it and the word it emits (R87, R193 to R196). -/
def opEffect (table : HashTable) (d : Dict) : TagOp → Dict × Word
  | .zero => (d, 0)
  | .exact q => (d, dictWord d q)
  | .partialWord q lb =>
    let v := rebuildWord (dictWord d q) lb
    (dictStore d q v, v)
  | .miss v => (dictStore d (hashSlot table v) v, v)

/-- The words a tag program emits, each tag on the dictionary its predecessor left (R192, R257). -/
def opWords (table : HashTable) (d : Dict) : List TagOp → List Word
  | [] => []
  | op :: rest => (opEffect table d op).2 :: opWords table (opEffect table d op).1 rest

/-- The alternate-layout form of a standard buffer: word 0 removed, 1 subtracted from each offset (R201). -/
def altForm : List Word → List Word
  | _ :: q :: l :: e :: rest => (q - 1) :: (l - 1) :: (e - 1) :: rest
  | ws => ws

end Sys2Proof.Machine
end

