-- ==== Sys2Proof/Certificates/Slice0/Obligations.lean ====
section
/-! DEFINITION. The statements. Each docstring names the rule of spec/ it formalises; where a clause rests on a
choice of the model, it names the log entry. -/

open Sys2Proof Sys2Proof.Machine

/-! ### Encoding -/

/-- The decoder inverts the encoder and accepts nothing else: a command word or tag code decodes to `i` exactly when
it is the code of `i` (R70, R72). -/
def Obligations.DecodeIsInverseOfEncode : Prop :=
  ∀ (c : Code) (i : Instr), decode c = .ok i ↔ encode i = c

/-- The words of the opcode table, written out, decode to their instructions (R70, R72). -/
def Obligations.TableWordsDecode : Prop :=
  decodeCommand 0b00000000000000000000000000000001#32 = .ok .encode ∧
  decodeCommand 0b00000000000000000000000000000010#32 = .ok .decodeStd ∧
  decodeCommand 0b00000000000000000000000000000011#32 = .ok .decodeAlt ∧
  decodeTag 0b00#2 = .tagZero ∧ decodeTag 0b01#2 = .tagPartial ∧
  decodeTag 0b10#2 = .tagMiss ∧ decodeTag 0b11#2 = .tagExact

/-- The illegal command words are those with OP in 0x0, 0x4..0xF or a nonzero reserved field, and writing one to CMD
while BUSY = 0 ends at once with ILLEGAL_CMD, IN and OUT untouched (R71, R221). -/
def Obligations.IllegalCommandWordEndsAtOnce : Prop :=
  (∀ c : Word, (∃ e, decodeCommand c = .error e) ↔
    c.extractLsb' 0 4 = 0 ∨ 4 ≤ (c.extractLsb' 0 4).toNat ∨ c.extractLsb' 4 28 ≠ 0) ∧
  ∀ (s : State) (rest : List Input) (c : Word) (e : Illegal), isBusy s = false → HostWrites s 0x000 4 c rest →
    decodeCommand c = .error e →
    step s = .next { s with inputs := rest, cmd := c, status := 0x00000052, outLen := 0, phase := .idle, work := .none }

/-! ### The step, reset and the invariant -/

/-- A step runs the decoded instruction, the command latched in CMD or the tag at `t`, when nothing from the host is
pending or the host polls and DONE = 0 (R192, R252; log 1, and the poll log 13); a tag also under a tick (log 3). -/
def Obligations.StepRunsFetchedInstruction : Prop :=
  (∀ (s : State) (i : Instr) (rest : List Input), s.phase ≠ .idle → s.work = .none → decodeCommand s.cmd = .ok i →
    s.inputs = [] ∨ (s.inputs = .poll :: rest ∧ doneBit s.status = false) → step s = exec i s) ∧
  (∀ (s : State) (w : DecWork) (tag : Tag) (rest : List Input), s.phase ≠ .idle → s.work = .dec w → w.t < 1024 →
    w.tags[w.t]? = some tag →
    (s.inputs = [] ∨ (s.inputs = .poll :: rest ∧ doneBit s.status = false) → step s = exec (decodeTag tag) s) ∧
    (s.inputs = .tick :: rest → step s = exec (decodeTag tag) { s with inputs := rest }))

/-- Reset at any moment abandons whatever runs: the four registers are 0, the sequencer is IDLE with no working
state, no byte of IN or OUT has a value, and the ROM and parameters are as before (R251, with R250). -/
def Obligations.ResetAbandonsEverything : Prop :=
  ∀ (s : State) (rest : List Input), s.inputs = .reset :: rest →
    ∃ t, step s = .next t ∧ t.cmd = 0 ∧ t.status = 0 ∧ t.inLen = 0 ∧ t.outLen = 0 ∧
      busyBit t.status = false ∧ doneBit t.status = false ∧ errField t.status = 0 ∧
      t.phase = .idle ∧ t.work = .none ∧ (∀ k, memGet t.inMem k = none) ∧ (∀ k, memGet t.outMem k = none) ∧
      t.hashTable = s.hashTable ∧ t.params = s.params ∧ t.inputs = rest

/-- The invariant holds after reset, whatever the OPEN hash table is (R9, R250). -/
def Obligations.ResetSatisfiesInvariant : Prop := StateInv State.reset

/-- Every step keeps the invariant: STATUS's layout and exclusions (R22), OUT_LEN's legal values (R24, with log 7's
bound), the windows' canonical form within their capacities (R52), IDLE exactly when BUSY = 0 (R32), the streams'
counts of both engines (R29, R30, R258), no zero in ENCODE's dictionary (R166). -/
def Obligations.StepKeepsInvariant : Prop :=
  ∀ s t : State, StateInv s → step s = .next t → StateInv t

/-- The only refusals a block in a legal state answers with are of host accesses, those the spec refuses:
forms outside R58, writes to IN or IN_LEN while BUSY (R255), and addresses that are not the block's (log 9). -/
def Obligations.OnlyHostAccessesAreRefused : Prop :=
  ∀ (s : State) (r : Refusal), StateInv s → step s = .refused r →
    ∃ a rest, s.inputs = .access a :: rest ∧
      (r = .hostAccessForm ∨ r = .addressBelowBase ∨ (r = .hostWriteWhileBusy ∧ isBusy s = true))

/-- The ROM and the parameters never change (R27). -/
def Obligations.RomAndParametersConstant : Prop :=
  ∀ s t : State, step s = .next t → t.hashTable = s.hashTable ∧ t.params = s.params

/-- The block never writes CMD, IN_LEN or IN, and OUT changes only when a command ends without error: each of them
otherwise changes by a host access or a reset alone (R21, R23, R55, R56). -/
def Obligations.OnlyRuledAgentsWrite : Prop :=
  ∀ s t : State, step s = .next t →
    (∀ rest, s.inputs ≠ .reset :: rest) →
    ((∀ a rest, s.inputs ≠ .access a :: rest) → t.cmd = s.cmd ∧ t.inLen = s.inLen ∧ t.inMem = s.inMem) ∧
    (t.outMem ≠ s.outMem → isBusy t = false ∧ t.status = 0x00000002 ∧ t.phase = .idle)

/-! ### The host port -/

/-- A legal command word written to CMD while BUSY = 0 is latched, clears OUT_LEN, DONE and ERR, sets BUSY and moves
the sequencer; IN, OUT, IN_LEN and the dictionary stay (R252's first clause). -/
def Obligations.CmdWriteStartsCommand : Prop :=
  ∀ (s : State) (rest : List Input) (c : Word) (i : Instr), isBusy s = false → HostWrites s 0x000 4 c rest →
    decodeCommand c = .ok i →
    step s = .next { s with
      inputs := rest, cmd := c, status := 0x00000001, outLen := 0, work := .none
      phase := if i = .encode then .encRun else .decRun }

/-- A CMD write while BUSY = 1 is ignored (R254). -/
def Obligations.CmdWriteWhileBusyIgnored : Prop :=
  ∀ (s : State) (rest : List Input) (c : Word), isBusy s = true → HostWrites s 0x000 4 c rest →
    step s = .next { s with inputs := rest }

/-- A write to IN_LEN or to a byte of IN while BUSY = 1 is refused, in every permitted form (R255). -/
def Obligations.InputWritesWhileBusyRefused : Prop :=
  ∀ (s : State) (rest : List Input) (v : Word), isBusy s = true →
    (HostWrites s 0x008 4 v rest → step s = .refused .hostWriteWhileBusy) ∧
    (∀ off size, (size = 1 ∨ size = 2 ∨ size = 4) → off % size = 0 → off < 0x2000 → off < s.params.inCap →
      HostWrites s (0x2000 + off) size v rest → step s = .refused .hostWriteWhileBusy)

/-- IN_LEN takes any 32-bit value while BUSY = 0, nothing else changes, and the next read returns it (R23). -/
def Obligations.InLenReadsBackWhatIsWritten : Prop :=
  ∀ (s : State) (rest : List Input) (v : Word), isBusy s = false → HostWrites s 0x008 4 v rest →
    ∃ t, step s = .next t ∧ t = { s with inputs := rest, inLen := v } ∧
      ∀ more, HostReads t 0x008 4 more → step t = .next { t with inputs := more, readLog := v :: t.readLog }

/-- The registers read their values, the register window's other words read 0 and ignore writes (R33, R51). -/
def Obligations.RegisterWindowReads : Prop :=
  ∀ (s : State) (rest : List Input) (off : Nat) (v : Word), off < 0x100 → off % 4 = 0 →
    (HostReads s off 4 rest → step s = .next { s with inputs := rest, readLog :=
      (if off = 0x000 then s.cmd else if off = 0x004 then s.status else if off = 0x008 then s.inLen
        else if off = 0x00C then s.outLen else 0) :: s.readLog }) ∧
    (0x010 ≤ off → HostWrites s off 4 v rest → step s = .next { s with inputs := rest })

/-- No host read has a side effect: a read that answers only returns a value. Writes to STATUS, OUT_LEN, OUT and
every address that is no byte of IN are ignored, in every permitted form, BUSY or not (R59). -/
def Obligations.OnlyCmdAndInWritesTakeEffect : Prop :=
  (∀ (s t : State) (addr size : Nat) (rest : List Input), s.inputs = .access (.read addr size) :: rest →
    step s = .next t → ∃ v, t = { s with inputs := rest, readLog := v :: s.readLog }) ∧
  (∀ (s : State) (rest : List Input) (v : Word),
    (HostWrites s 0x004 4 v rest ∨ HostWrites s 0x00C 4 v rest → step s = .next { s with inputs := rest }) ∧
    (∀ off size, (size = 1 ∨ size = 2 ∨ size = 4) → off % size = 0 → 0x100 ≤ off →
      ¬ (0x2000 ≤ off ∧ off < 0x4000 ∧ off - 0x2000 < s.params.inCap) → HostWrites s off size v rest →
      step s = .next { s with inputs := rest }))

/-- An access that is misaligned, of another width, or sub-word to a register is refused, read or write (R58; the
clause for reserved addresses outside the register window is log 9's). -/
def Obligations.UnpermittedAccessFormsRefused : Prop :=
  ∀ (s : State) (rest : List Input) (off size : Nat) (v : Word),
    (off < 0x100 ∧ ¬ (size = 4 ∧ off % 4 = 0)) ∨
      (0x100 ≤ off ∧ ¬ ((size = 1 ∨ size = 2 ∨ size = 4) ∧ off % size = 0)) →
    HostReads s off size rest ∨ HostWrites s off size v rest → step s = .refused .hostAccessForm

/-- A permitted write to IN while BUSY = 0 puts the data's bytes there, lowest first, and leaves every other byte of
IN, all of OUT and everything else as it was (R52, R53, R58). -/
def Obligations.InWindowWriteIsLittleEndian : Prop :=
  ∀ (s : State) (rest : List Input) (off size : Nat) (v : Word), isBusy s = false →
    (size = 1 ∨ size = 2 ∨ size = 4) → off % size = 0 → off < 0x2000 → off < s.params.inCap →
    HostWrites s (0x2000 + off) size v rest →
    ∃ m, step s = .next { s with inputs := rest, inMem := m } ∧
      (∀ j, j < size → off + j < s.params.inCap → memGet m (off + j) = some (v.extractLsb' (8 * j) 8)) ∧
      (∀ a, a < off ∨ off + size ≤ a → memGet m a = memGet s.inMem a)

/-- A permitted read of IN or OUT returns the bytes there, lowest first, the upper bits 0; if one of its bytes has no
value it faults (R53, R58, R250). -/
def Obligations.WindowReadsAreLittleEndian : Prop :=
  ∀ (s : State) (rest : List Input) (off size : Nat), (size = 1 ∨ size = 2 ∨ size = 4) → off % size = 0 →
    off + size ≤ 0x2000 →
    (off + size ≤ s.params.inCap → HostReads s (0x2000 + off) size rest →
      (∀ f : Nat → Byte, (∀ j, j < size → memGet s.inMem (off + j) = some (f j)) →
        ∃ v, step s = .next { s with inputs := rest, readLog := v :: s.readLog } ∧ v.toNat < 2 ^ (8 * size) ∧
          ∀ j, j < size → v.extractLsb' (8 * j) 8 = f j) ∧
      ((∃ j, j < size ∧ memGet s.inMem (off + j) = none) → ∃ k, step s = .fault (.inByteUnwritten k))) ∧
    (off + size ≤ s.params.outCap → HostReads s (0x4000 + off) size rest →
      (∀ f : Nat → Byte, (∀ j, j < size → memGet s.outMem (off + j) = some (f j)) →
        ∃ v, step s = .next { s with inputs := rest, readLog := v :: s.readLog } ∧ v.toNat < 2 ^ (8 * size) ∧
          ∀ j, j < size → v.extractLsb' (8 * j) 8 = f j) ∧
      ((∃ j, j < size ∧ memGet s.outMem (off + j) = none) → ∃ k, step s = .fault (.outByteUnwritten k)))

/-- A permitted read of a reserved address outside the register window, below IN, in the part of IN or OUT at or beyond
its capacity, or above OUT, returns 0 (R52). A wider read across the capacity returns 0 in the bytes beyond it. The
access widths there, and that the region has no upper end, are the model's choice (log 9). -/
def Obligations.ReservedAddressesReadZero : Prop :=
  ∀ (s : State) (rest : List Input) (off size : Nat), (size = 1 ∨ size = 2 ∨ size = 4) → off % size = 0 →
    ((0x100 ≤ off ∧ off < 0x2000) ∨ (0x2000 + s.params.inCap ≤ off ∧ off < 0x4000) ∨
        (0x4000 + s.params.outCap ≤ off ∧ off < 0x6000) ∨ 0x6000 ≤ off →
      HostReads s off size rest → step s = .next { s with inputs := rest, readLog := 0 :: s.readLog }) ∧
    (off + size ≤ 0x2000 → HostReads s (0x2000 + off) size rest →
      (∀ j, j < size → off + j < s.params.inCap → memGet s.inMem (off + j) ≠ none) →
      ∃ v, step s = .next { s with inputs := rest, readLog := v :: s.readLog } ∧
        ∀ j, j < size → s.params.inCap ≤ off + j → v.extractLsb' (8 * j) 8 = 0) ∧
    (off + size ≤ 0x2000 → HostReads s (0x4000 + off) size rest →
      (∀ j, j < size → off + j < s.params.outCap → memGet s.outMem (off + j) ≠ none) →
      ∃ v, step s = .next { s with inputs := rest, readLog := v :: s.readLog } ∧
        ∀ j, j < size → s.params.outCap ≤ off + j → v.extractLsb' (8 * j) 8 = 0)

/-- While BUSY = 1, STATUS reads 1 (BUSY, no DONE, no ERR), OUT_LEN reads 0, and OUT keeps its contents from before
the command as long as the command runs (R256). -/
def Obligations.ReadsWhileBusyAreSafe : Prop :=
  ∀ s : State, StateInv s → isBusy s = true →
    (∀ rest, HostReads s 0x004 4 rest → step s = .next { s with inputs := rest, readLog := 1 :: s.readLog }) ∧
    (∀ rest, HostReads s 0x00C 4 rest → step s = .next { s with inputs := rest, readLog := 0 :: s.readLog }) ∧
    (∀ t, step s = .next t → isBusy t = true → t.outMem = s.outMem ∧ t.outLen = 0)

/-- POLL DONE ends with a read of STATUS that shows DONE = 1, and until then the host stays at the poll while the
block has its turns (R85; log 13). -/
def Obligations.PollWaitsForDone : Prop :=
  ∀ (s : State) (rest : List Input), s.inputs = .poll :: rest →
    (doneBit s.status = true → step s = .next { s with inputs := rest, readLog := s.status :: s.readLog }) ∧
    (doneBit s.status = false → ∀ t, step s = .next t → t.inputs = .poll :: rest ∧ t.readLog = s.readLog)

/-! ### Hash, dictionary, packing -/

/-- Two words whose bits 17:10 agree share a slot, and with a conforming table slot 0 is reached by exactly the words
whose bits 17:10 are 0 (R102, R103). -/
def Obligations.HashReadsBits17To10 : Prop :=
  ∀ (table : HashTable) (v w : Word),
    (v.extractLsb' 10 8 = w.extractLsb' 10 8 → hashSlot table v = hashSlot table w) ∧
    (hashTableOk table = true → (hashSlot table v = 0 ↔ v.extractLsb' 10 8 = 0))

/-- DICT_INIT presets every slot to (1, 0); DICT_STORE changes its slot to (w, w >> 10) and no other (R104 to R107). -/
def Obligations.DictionaryStoreAndLookup : Prop :=
  (∀ (s : State) (q : Slot), dictLookup (dictInit s).dict q = (1, 0)) ∧
  (∀ (d : Dict) (q r : Slot) (w : Word),
    dictLookup (dictStore d q w) q = (w, (w >>> 10).setWidth 22) ∧
    (r ≠ q → dictLookup (dictStore d q w) r = dictLookup d r))

/-- Where PACK2, PACK4 and PACK10 put each element: element `16w+j` of word `w` at bit `8(j mod 4) + 2(j div 4)` under
INTERLEAVED and `2j` under SEQUENTIAL, element `8w+j` at bit `8(j mod 4) + 4(j div 4)` or `4j`, element `3g+k` at bit
`10k`, padding elements and bits 31:30 zero, and the section sizes (R120, R121, R123, R126, R131). -/
def Obligations.PackersPlaceEveryElement : Prop :=
  (∀ (lay : PackLayout) (tags : List Tag), tags.length = 1024 →
    (pack2 lay tags).length = 64 ∧
    ∀ w j, w < 64 → j < 16 →
      (lay = .interleaved →
        ((pack2 lay tags)[w]?).map (fun x => x.extractLsb' (8 * (j % 4) + 2 * (j / 4)) 2) = tags[16 * w + j]?) ∧
      (lay = .sequential → ((pack2 lay tags)[w]?).map (fun x => x.extractLsb' (2 * j) 2) = tags[16 * w + j]?)) ∧
  (∀ (lay : PackLayout) (q : List Slot),
    (pack4 lay q).length = (q.length + 7) / 8 ∧
    ∀ w j, w < (q.length + 7) / 8 → j < 8 →
      (lay = .interleaved → ((pack4 lay q)[w]?).map (fun x => x.extractLsb' (8 * (j % 4) + 4 * (j / 4)) 4)
        = some ((q[8 * w + j]?).getD 0)) ∧
      (lay = .sequential →
        ((pack4 lay q)[w]?).map (fun x => x.extractLsb' (4 * j) 4) = some ((q[8 * w + j]?).getD 0))) ∧
  (∀ l : List Low,
    (pack10 l).length = (l.length + 2) / 3 ∧
    ∀ g, g < (l.length + 2) / 3 →
      (∀ k, k < 3 → ((pack10 l)[g]?).map (fun x => x.extractLsb' (10 * k) 10) = some ((l[3 * g + k]?).getD 0)) ∧
      ((pack10 l)[g]?).map (fun x => x.extractLsb' 30 2) = some 0)

/-- The round-trip laws for both layouts, and the other direction: PACK2 and PACK4 are bijections (R130). -/
def Obligations.PackUnpackRoundTrip : Prop :=
  ∀ lay : PackLayout,
    (∀ tags : List Tag, tags.length = 1024 → unpack2 lay (pack2 lay tags) = tags) ∧
    (∀ q : List Slot, unpack4 lay (pack4 lay q) = q ++ List.replicate (8 * ((q.length + 7) / 8) - q.length) 0) ∧
    (∀ l : List Low, unpack10 (pack10 l) = l ++ List.replicate (3 * ((l.length + 2) / 3) - l.length) 0) ∧
    (∀ ws : List Word, ws.length = 64 → pack2 lay (unpack2 lay ws) = ws) ∧
    (∀ ws : List Word, pack4 lay (unpack4 lay ws) = ws)

/-- UNPACK10 ignores bits 31:30 of each word, and PACK10 writes them 0 (R129). -/
def Obligations.LowBitsTopBitsIgnored : Prop :=
  (∀ ws : List Word, unpack10 ws = unpack10 (ws.map (fun w => w &&& 0x3FFFFFFF))) ∧
  (∀ (l : List Low) (w : Word), w ∈ pack10 l → w.extractLsb' 30 2 = 0)

/-! ### ENCODE -/

/-- One ENC_STEP: the four classifications with their guards in priority order, their stream entries and their
dictionary updates, and nothing else of the block changed (R154 to R158). -/
def Obligations.EncoderClassifiesEachWord : Prop :=
  ∀ (s : State) (w : EncWork) (v : Word) (rest : List Input), s.phase = .encRun → s.work = .enc w → w.i < 1024 →
    le32 s w.i = .next v → s.inputs = .tick :: rest →
    let slot := hashSlot s.hashTable v
    let found := dictWord s.dict slot
    (v = found → step s = .next { s with
      inputs := rest
      work := .enc { w with i := w.i + 1, tags := w.tags ++ [0b11#2], Q := w.Q ++ [slot] } }) ∧
    (v ≠ found → v = 0 → step s = .next { s with
      inputs := rest
      work := .enc { w with i := w.i + 1, tags := w.tags ++ [0b00#2] } }) ∧
    (v ≠ found → v ≠ 0 → v >>> 10 = found >>> 10 → step s = .next { s with
      inputs := rest
      dict := dictStore s.dict slot v
      work := .enc { w with i := w.i + 1, tags := w.tags ++ [0b01#2], Q := w.Q ++ [slot]
                            L := w.L ++ [v.setWidth 10] } }) ∧
    (v ≠ found → v ≠ 0 → v >>> 10 ≠ found >>> 10 → step s = .next { s with
      inputs := rest
      dict := dictStore s.dict slot v
      work := .enc { w with i := w.i + 1, tags := w.tags ++ [0b10#2], F := w.F ++ [v] } })

/-- After a word is classified in its slot, the slot holds it exactly when the word is not 0 (unless it held 0), and
no other slot has changed: PARTIAL and MISS store, EXACT need not, ZERO does not (R159). -/
def Obligations.EncoderStoresExactlyNonzeroWords : Prop :=
  ∀ (table : HashTable) (v : Word) (d : Dict) (w : EncWork) (r : Slot),
    dictWord (encElement table v (d, w)).1 r
      = if r = hashSlot table v ∧ v ≠ 0 then v else dictWord d r

/-- A command whose IN_LEN exceeds IN_CAP, and an ENCODE whose IN_LEN is not 4096, ends with INPUT_ERROR: OUT_LEN 0,
everything else as before the command, no byte of IN read (R151, R222). -/
def Obligations.BadLengthIsInputError : Prop :=
  ∀ (i : Instr) (s : State), i.isCommand = true →
    s.params.inCap < s.inLen.toNat ∨ (i = .encode ∧ s.inLen.toNat ≠ 4096) →
    exec i s = .next { s with status := 0x00000012, outLen := 0, phase := .idle, work := .none }

/-- ENCODE of a page whose bytes are in IN completes: OUT begins with the page's encoded buffer, OUT_LEN is its
length, and the other bytes of OUT and all of the rest but the dictionary stay (R150, R162, R228). That the buffer
fits in OUT is a premise because of log 8: EncodeStopsWhereTheBufferDoesNotFit is the other case. -/
def Obligations.EncodeProducesTheBuffer : Prop :=
  ∀ (s : State) (page : List Word), s.inLen.toNat = 4096 → 4096 ≤ s.params.inCap → page.length = 1024 →
    Holds s.inMem (wordsBytes page) →
    let buffer := encodedBuffer s.hashTable s.params.packLayout page
    4 * buffer.length ≤ s.params.outCap →
    ∃ d m, exec .encode s = .next { s with
        dict := d, outMem := m, status := 0x00000002, outLen := BitVec.ofNat 32 (4 * buffer.length)
        phase := .idle, work := .none } ∧
      Holds m (wordsBytes buffer) ∧ ∀ k, 4 * buffer.length ≤ k → memGet m k = memGet s.outMem k

/-- Where the page's buffer does not fit in OUT (4372 bytes with OUT_CAP 4368 to 4371), ENCODE stops: the block writes
OUT only below OUT_CAP (R56) and shows no truncated result (R229). That it stops there is the model's choice (log 8). -/
def Obligations.EncodeStopsWhereTheBufferDoesNotFit : Prop :=
  ∀ (s : State) (page : List Word), s.inLen.toNat = 4096 → 4096 ≤ s.params.inCap → page.length = 1024 →
    Holds s.inMem (wordsBytes page) →
    let buffer := encodedBuffer s.hashTable s.params.packLayout page
    s.params.outCap < 4 * buffer.length → exec .encode s = .fault (.outputBeyondWindow (4 * buffer.length))

/-- The buffer's shape: the four header words, then the 64 tag words, the full patterns, the packed QPos and the
packed low bits, each where the previous one ends (R161's formula, R162, R74). -/
def Obligations.EncodedBufferHasTheStandardLayout : Prop :=
  ∀ (table : HashTable) (lay : PackLayout) (page : List Word),
    let w := (encodeWords table page).2
    let buffer := encodedBuffer table lay page
    let q := 68 + w.F.length
    let l := q + (w.Q.length + 7) / 8
    let e := l + (w.L.length + 2) / 3
    buffer.length = e ∧
    buffer.take 4 = [0, BitVec.ofNat 32 q, BitVec.ofNat 32 l, BitVec.ofNat 32 e] ∧
    (buffer.drop 4).take 64 = pack2 lay w.tags ∧ (buffer.drop 68).take (q - 68) = w.F ∧
    (buffer.drop q).take (l - q) = pack4 lay w.Q ∧ buffer.drop l = pack10 w.L

/-- The streams of a page: one tag per word, ZERO exactly on the zero words; QPosArray the hash slots of the EXACT and
PARTIAL words, LowBitsArray the low bits of the PARTIAL words, FullPatterns the MISS words, none of them 0, each in
the order of the words and as many as their tags (R160, with R166). -/
def Obligations.EncoderStreamsFollowTheTags : Prop :=
  ∀ (table : HashTable) (page : List Word),
    let w := (encodeWords table page).2
    let tagged := page.zip w.tags
    w.tags.length = page.length ∧
    (∀ (v : Word) (tag : Tag), (v, tag) ∈ tagged → (tag = 0b00#2 ↔ v = 0)) ∧
    w.Q = tagged.filterMap (fun p => if p.2 = 0b11#2 ∨ p.2 = 0b01#2 then some (hashSlot table p.1) else none) ∧
    w.L = tagged.filterMap (fun p => if p.2 = 0b01#2 then some (p.1.setWidth 10) else none) ∧
    w.F = tagged.filterMap (fun p => if p.2 = 0b10#2 then some p.1 else none) ∧
    w.Q.length = w.tags.count 0b11#2 + w.tags.count 0b01#2 ∧ w.L.length = w.tags.count 0b01#2 ∧
    w.F.length = w.tags.count 0b10#2 ∧
    (∀ v ∈ w.F, v ≠ 0)

/-- The length of a page's buffer: at least 68 words, 68 exactly for the all-zero page, and at most 1093, which is what
R161's formula gives; R163's 1092 holds of every page but those tagged 1023 MISS and one PARTIAL (log 7). -/
def Obligations.EncodedBufferLengthBounds : Prop :=
  ∀ (table : HashTable) (lay : PackLayout) (page : List Word), page.length = 1024 →
    68 ≤ (encodedBuffer table lay page).length ∧ (encodedBuffer table lay page).length ≤ 1093 ∧
    ((encodedBuffer table lay page).length = 68 ↔ ∀ v ∈ page, v = 0) ∧
    (1092 < (encodedBuffer table lay page).length ↔
      (encodeWords table page).2.tags.count 0b10#2 = 1023 ∧ (encodeWords table page).2.tags.count 0b01#2 = 1)

/-- R163's maximum is not one: with every table and layout some page is all MISS and takes the 1092 words R163 gives it,
and some page of one PARTIAL and 1023 MISS takes 1093 by R161's formula (log 7). -/
def Obligations.EncodedBufferExceedsR163 : Prop :=
  ∀ (table : HashTable) (lay : PackLayout),
    (∃ page : List Word, page.length = 1024 ∧ (encodeWords table page).2.tags.count 0b10#2 = 1024 ∧
      (encodedBuffer table lay page).length = 1092) ∧
    (∃ page : List Word, page.length = 1024 ∧ (encodeWords table page).2.tags.count 0b10#2 = 1023 ∧
      (encodeWords table page).2.tags.count 0b01#2 = 1 ∧ (encodedBuffer table lay page).length = 1093)

/-! ### The decoder -/

/-- ZERO emits 0 and moves to the next tag; nothing else changes (R193). -/
def Obligations.TagZeroEmitsZero : Prop :=
  ∀ (s : State) (w : DecWork), s.work = .dec w →
    exec .tagZero s = .next { s with work := .dec { w with out := w.out ++ [0], t := w.t + 1 } }

/-- EXACT consumes one QPos element and emits that slot's word, the dictionary unchanged; with the QPos stream
exhausted it ends the command with FORMAT_UNDERFLOW (R194). -/
def Obligations.TagExactEmitsTheSlot : Prop :=
  ∀ (s : State) (w : DecWork), s.work = .dec w →
    (∀ q, w.Q[w.cq]? = some q → exec .tagExact s = .next { s with
      work := .dec { w with cq := w.cq + 1, out := w.out ++ [dictWord s.dict q], t := w.t + 1 } }) ∧
    (w.cq = w.Q.length → exec .tagExact s
      = .next { s with status := 0x00000042, outLen := 0, phase := .idle, work := .none })

/-- PARTIAL consumes one QPos and one low-bits element, rebuilds `(D[i] >> 10 << 10) | lb`, stores it back and emits
it; with either stream exhausted it ends the command with FORMAT_UNDERFLOW (R195). -/
def Obligations.TagPartialRebuildsAndStores : Prop :=
  ∀ (s : State) (w : DecWork), s.work = .dec w →
    (∀ q lb, w.Q[w.cq]? = some q → w.L[w.cl]? = some lb →
      let v := (dictWord s.dict q >>> 10 <<< 10) ||| lb.setWidth 32
      exec .tagPartial s = .next { s with
        dict := dictStore s.dict q v
        work := .dec { w with cq := w.cq + 1, cl := w.cl + 1, out := w.out ++ [v], t := w.t + 1 } }) ∧
    (w.cq = w.Q.length ∨ w.cl = w.L.length → exec .tagPartial s
      = .next { s with status := 0x00000042, outLen := 0, phase := .idle, work := .none })

/-- MISS consumes one full pattern, stores it at its hash slot and emits it; with the stream exhausted it ends the
command with FORMAT_UNDERFLOW (R196). -/
def Obligations.TagMissStoresAtTheHashSlot : Prop :=
  ∀ (s : State) (w : DecWork), s.work = .dec w →
    (∀ v, w.F[w.cf]? = some v → exec .tagMiss s = .next { s with
      dict := dictStore s.dict (hashSlot s.hashTable v) v
      work := .dec { w with cf := w.cf + 1, out := w.out ++ [v], t := w.t + 1 } }) ∧
    (w.cf = w.F.length → exec .tagMiss s
      = .next { s with status := 0x00000042, outLen := 0, phase := .idle, work := .none })

/-- The frame of the four tags: CMD, IN_LEN, the ROM, the parameters, every byte of IN and of OUT are unchanged; unless
the tag underflows, so are STATUS, OUT_LEN and the phase, every dictionary slot but the one PARTIAL or MISS names, the
header fields and the streams (R193 to R197). -/
def Obligations.TagFrame : Prop :=
  ∀ (i : Instr) (s t : State), i.isCommand = false → exec i s = .next t →
    t.cmd = s.cmd ∧ t.inLen = s.inLen ∧ t.hashTable = s.hashTable ∧ t.params = s.params ∧
    t.inputs = s.inputs ∧ t.readLog = s.readLog ∧
    (∀ k, memGet t.inMem k = memGet s.inMem k) ∧ (∀ k, memGet t.outMem k = memGet s.outMem k) ∧
    ∀ w w', s.work = .dec w → t.work = .dec w' →
      t.status = s.status ∧ t.outLen = s.outLen ∧ t.phase = s.phase ∧
      w'.hw = w.hw ∧ w'.qposStart = w.qposStart ∧ w'.lowStart = w.lowStart ∧ w'.lowEnd = w.lowEnd ∧
      w'.tags = w.tags ∧ w'.F = w.F ∧ w'.Q = w.Q ∧ w'.L = w.L ∧ w'.t = w.t + 1 ∧
      (∃ v, w'.out = w.out ++ [v]) ∧
      (i = .tagZero ∨ i = .tagExact → ∀ r, dictWord t.dict r = dictWord s.dict r) ∧
      (i = .tagPartial → ∀ q r, w.Q[w.cq]? = some q → r ≠ q → dictWord t.dict r = dictWord s.dict r) ∧
      (i = .tagMiss → ∀ v r, w.F[w.cf]? = some v → r ≠ hashSlot s.hashTable v →
        dictWord t.dict r = dictWord s.dict r)

/-- A stream that runs out stops the walk: the command ends with FORMAT_UNDERFLOW, OUT is not written, and no later
tag is executed, because the block is IDLE and does nothing more (R197). -/
def Obligations.UnderflowStopsTheWalk : Prop :=
  ∀ (i : Instr) (s : State) (w : DecWork), s.work = .dec w →
    ((i = .tagExact ∨ i = .tagPartial) ∧ w.cq = w.Q.length) ∨ (i = .tagPartial ∧ w.cl = w.L.length) ∨
      (i = .tagMiss ∧ w.cf = w.F.length) →
    ∃ t, exec i s = .next t ∧ t.status = 0x00000042 ∧ t.outLen = 0 ∧ t.outMem = s.outMem ∧
      (s.inputs = [] → step t = .next t)

/-- A decode whose buffer is too short for its header ends with FORMAT_HEADER before IN is read (R184). -/
def Obligations.ShortBufferIsFormatHeader : Prop :=
  ∀ s : State, s.inLen.toNat ≤ s.params.inCap →
    (s.inLen.toNat < 16 → exec .decodeStd s
      = .next { s with status := 0x00000022, outLen := 0, phase := .idle, work := .none }) ∧
    (s.inLen.toNat < 12 → exec .decodeAlt s
      = .next { s with status := 0x00000022, outLen := 0, phase := .idle, work := .none })

/-- A decode whose input bytes have values fails with FORMAT_HEADER, OUT_LEN 0 and OUT untouched, exactly when an
offset exceeds the buffer's length in words, the offsets decrease, or `qpos_start` lies inside header or tag area
(R185, R186) OUT has room for a page, as R11 asks. -/
def Obligations.HeaderChecksDecideFormatHeader : Prop :=
  ∀ (s : State) (i : Instr) (hw : Nat) (q l e : Word),
    (i = .decodeStd ∧ hw = 4) ∨ (i = .decodeAlt ∧ hw = 3) → s.inLen.toNat ≤ s.params.inCap →
    4 * hw ≤ s.inLen.toNat → InReadable s s.inLen.toNat →
    le32 s (hw - 3) = .next q → le32 s (hw - 2) = .next l → le32 s (hw - 1) = .next e →
    4096 ≤ s.params.outCap →
    ∃ t, exec i s = .next t ∧
      (t.status = 0x00000022 ↔
        s.inLen.toNat / 4 < q.toNat ∨ s.inLen.toNat / 4 < l.toNat ∨ s.inLen.toNat / 4 < e.toNat ∨
        l.toNat < q.toNat ∨ e.toNat < l.toNat ∨ q.toNat < hw + 64) ∧
      (t.status = 0x00000022 → t.outLen = 0 ∧ t.outMem = s.outMem)

/-- After the 1024th tag: a nonzero element beyond a cursor ends the command with FORMAT_RESIDUE, OUT untouched;
otherwise the 1024 words become OUT, OUT_LEN is 4096, and the other bytes of OUT stay (R198, R199). -/
def Obligations.ResidueDecidesTheEnd : Prop :=
  ∀ (s : State) (w : DecWork), s.phase = .decRun → s.work = .dec w → w.t = 1024 → w.out.length = 1024 →
    4096 ≤ s.params.outCap → s.inputs = [] →
    let residue := (∃ k v, w.cf ≤ k ∧ w.F[k]? = some v ∧ v ≠ 0) ∨ (∃ k v, w.cq ≤ k ∧ w.Q[k]? = some v ∧ v ≠ 0)
      ∨ (∃ k v, w.cl ≤ k ∧ w.L[k]? = some v ∧ v ≠ 0)
    (residue → step s = .next { s with status := 0x00000032, outLen := 0, phase := .idle, work := .none }) ∧
    (¬ residue → ∃ m,
      step s = .next { s with outMem := m, status := 0x00000002, outLen := 4096, phase := .idle, work := .none } ∧
      Holds m (wordsBytes w.out) ∧ ∀ k, 4096 ≤ k → memGet m k = memGet s.outMem k)

/-- Both decoders execute tag programs: a buffer assembled from 1024 tags with their operands, in either layout, with
any trailing bytes, decodes to the words the tags emit one after another on a fresh dictionary (R87, R182 to R199). -/
def Obligations.DecodeExecutesTagPrograms : Prop :=
  ∀ (s : State) (i : Instr) (hw : Nat) (ops : List TagOp),
    (i = .decodeStd ∧ hw = 4) ∨ (i = .decodeAlt ∧ hw = 3) → tagProgramOk ops = true →
    let buffer := assembleTags hw s.params.packLayout ops
    4 * buffer.length ≤ s.inLen.toNat → s.inLen.toNat ≤ s.params.inCap → Holds s.inMem (wordsBytes buffer) →
    4096 ≤ s.params.outCap →
    ∃ d m, exec i s = .next { s with
        dict := d, outMem := m, status := 0x00000002, outLen := 4096, phase := .idle, work := .none } ∧
      Holds m (wordsBytes (opWords s.hashTable sentinelDict ops)) ∧
      ∀ k, 4096 ≤ k → memGet m k = memGet s.outMem k

/-- The round trip: ENCODE of a page gives a buffer, DECODE_STD of that buffer and DECODE_ALT of its alternate form
give the page back, with the same HASH_TABLE and PACK_LAYOUT (R201). The buffers' fitting in OUT and IN are premises
(log 7, log 8). -/
def Obligations.EncodeThenDecodeIsIdentity : Prop :=
  ∀ (s : State) (page : List Word), s.inLen.toNat = 4096 → 4096 ≤ s.params.inCap → page.length = 1024 →
    Holds s.inMem (wordsBytes page) →
    let buffer := encodedBuffer s.hashTable s.params.packLayout page
    4 * buffer.length ≤ s.params.outCap →
    ∃ t, exec .encode s = .next t ∧ t.status = 0x00000002 ∧ t.outLen.toNat = 4 * buffer.length ∧
      Holds t.outMem (wordsBytes buffer) ∧
      ∀ s2 : State, s2.hashTable = s.hashTable → s2.params.packLayout = s.params.packLayout →
        4096 ≤ s2.params.outCap → s2.inLen.toNat ≤ s2.params.inCap →
        (Holds s2.inMem (wordsBytes buffer) → s2.inLen.toNat = 4 * buffer.length →
          ∃ t2, exec .decodeStd s2 = .next t2 ∧ t2.status = 0x00000002 ∧ t2.outLen = 4096 ∧
            Holds t2.outMem (wordsBytes page)) ∧
        (Holds s2.inMem (wordsBytes (altForm buffer)) → s2.inLen.toNat = 4 * (altForm buffer).length →
          ∃ t2, exec .decodeAlt s2 = .next t2 ∧ t2.status = 0x00000002 ∧ t2.outLen = 4096 ∧
            Holds t2.outMem (wordsBytes page))

/-- DECODE_STD gives the same result whatever the reserved word 0 holds (R203). -/
def Obligations.ReservedWordIgnored : Prop :=
  ∀ (s t : State) (v : Word), (∀ k < 4, ∃ b, memGet s.inMem k = some b) → exec .decodeStd s = .next t →
    exec .decodeStd { s with inMem := writeRun s.inMem 0 (wordBytes 4 v) }
      = .next { t with inMem := writeRun s.inMem 0 (wordBytes 4 v) }

/-- A decode that ends without error has put exactly 4096 bytes in OUT, whatever the input length (R200). -/
def Obligations.DecodeOutputIsOnePage : Prop :=
  ∀ (i : Instr) (s t : State), i = .decodeStd ∨ i = .decodeAlt → exec i s = .next t →
    t.status = 0x00000002 →
    t.outLen = 4096 ∧ ∃ ws : List Word, ws.length = 1024 ∧ Holds t.outMem (wordsBytes ws) ∧
      ∀ k, 4096 ≤ k → memGet t.outMem k = memGet s.outMem k

/-! ### Whole commands -/

/-- Every command ends: with the input bytes it may read written, it answers a next state, in which it has ended with
one of the codes it can raise (R226, R259). That its longest result fits in OUT is a premise (log 8). -/
def Obligations.CommandsEnd : Prop :=
  ∀ (i : Instr) (s : State), i.isCommand = true →
    (s.inLen.toNat ≤ s.params.inCap → InReadable s s.inLen.toNat) →
    (if i = .encode then 4372 else 4096) ≤ s.params.outCap →
    ∃ t, exec i s = .next t ∧ t.phase = .idle ∧ t.work = .none ∧
      (t.status = 0x00000002 ∨ t.status = 0x00000012 ∨
        (i ≠ .encode ∧ (t.status = 0x00000022 ∨ t.status = 0x00000032 ∨ t.status = 0x00000042)))

/-- An ENCODE that meets an input byte with no value faults there (R250). -/
def Obligations.EncodeOfUnwrittenByteFaults : Prop :=
  ∀ s : State, s.inLen.toNat = 4096 → 4096 ≤ s.params.inCap → (∃ k, k < 4096 ∧ memGet s.inMem k = none) →
    ∃ k, k < 4096 ∧ memGet s.inMem k = none ∧ exec .encode s = .fault (.inByteUnwritten k)

/-- A decode that meets an input byte with no value faults there: in its header, which for DECODE_STD begins with the
reserved word (log 11), or, if the header passes its checks, anywhere in the tag area and the three sections (R250). -/
def Obligations.DecodeOfUnwrittenByteFaults : Prop :=
  ∀ (s : State) (i : Instr) (hw : Nat), (i = .decodeStd ∧ hw = 4) ∨ (i = .decodeAlt ∧ hw = 3) →
    s.inLen.toNat ≤ s.params.inCap → 4 * hw ≤ s.inLen.toNat →
    ((∃ k, k < 4 * hw ∧ memGet s.inMem k = none) →
      ∃ k, k < 4 * hw ∧ memGet s.inMem k = none ∧ exec i s = .fault (.inByteUnwritten k)) ∧
    (∀ q l e : Word, InReadable s (4 * hw) →
      le32 s (hw - 3) = .next q → le32 s (hw - 2) = .next l → le32 s (hw - 1) = .next e →
      hw + 64 ≤ q.toNat → q.toNat ≤ l.toNat → l.toNat ≤ e.toNat → e.toNat ≤ s.inLen.toNat / 4 →
      (∃ k, k < 4 * e.toNat ∧ memGet s.inMem k = none) →
      ∃ k, k < 4 * e.toNat ∧ memGet s.inMem k = none ∧ exec i s = .fault (.inByteUnwritten k))

/-- Nothing else makes a command fault: an input byte below IN_LEN with no value (R250), or a result without room in
OUT (log 8), which is a page in a window below 4096 bytes or ENCODE's buffer. -/
def Obligations.CommandFaultsAreUnwrittenBytesOrNoRoom : Prop :=
  ∀ (i : Instr) (s : State) (f : Fault), i.isCommand = true → exec i s = .fault f →
    (∃ k, f = .inByteUnwritten k ∧ k < s.inLen.toNat ∧ s.inLen.toNat ≤ s.params.inCap ∧ memGet s.inMem k = none) ∨
    (∃ n, f = .outputBeyondWindow n ∧ s.params.outCap < n ∧ (if i = .encode then 272 ≤ n ∧ n ≤ 4372 else n = 4096))

/-- An instruction that ends its command with an error leaves BUSY 0, DONE 1, the code in ERR, OUT_LEN 0, IDLE and no
working state; OUT, IN, IN_LEN and CMD are as before (R227). -/
def Obligations.ErrorsLeaveNoEffect : Prop :=
  ∀ (i : Instr) (s t : State), busyBit s.status = true → exec i s = .next t → busyBit t.status = false →
    errField t.status ≠ 0 →
    doneBit t.status = true ∧ t.outLen = 0 ∧ t.phase = .idle ∧ t.work = .none ∧
    t.outMem = s.outMem ∧ t.inMem = s.inMem ∧ t.inLen = s.inLen ∧ t.cmd = s.cmd

/-- A command leaves OUT either with one complete result, its first OUT_LEN bytes, all of them bytes of the window, or
as it was before, and then with an error: nothing truncated is ever visible (R229, R56). -/
def Obligations.OutputIsAllOrNothing : Prop :=
  ∀ (i : Instr) (s t : State), i.isCommand = true → exec i s = .next t →
    (t.status = 0x00000002 ∧ t.outLen.toNat ≤ s.params.outCap ∧ ∃ ws : List Word,
      t.outLen.toNat = 4 * ws.length ∧ 68 ≤ ws.length ∧
      Holds t.outMem (wordsBytes ws) ∧ ∀ k, 4 * ws.length ≤ k → memGet t.outMem k = memGet s.outMem k) ∨
    (errField t.status ≠ 0 ∧ ∀ k, memGet t.outMem k = memGet s.outMem k)

/-- The frame of the three commands: CMD, IN_LEN, the ROM and the parameters are unchanged, so is every byte of IN, and
so is every byte of OUT at or beyond OUT_LEN (R56, R164, R183). -/
def Obligations.CommandFrame : Prop :=
  ∀ (i : Instr) (s t : State), i.isCommand = true → exec i s = .next t →
    t.cmd = s.cmd ∧ t.inLen = s.inLen ∧ t.hashTable = s.hashTable ∧ t.params = s.params ∧
    t.inputs = s.inputs ∧ t.readLog = s.readLog ∧
    (∀ k, memGet t.inMem k = memGet s.inMem k) ∧
    (∀ k, t.outLen.toNat ≤ k → memGet t.outMem k = memGet s.outMem k)

/-- A command's result is a function of its input bytes, HASH_TABLE and PACK_LAYOUT alone: two states that agree on
those, whatever their dictionaries, windows, registers and earlier commands, give the same STATUS, OUT_LEN and output
bytes (R16, R165). That the second OUT has room for what fits in the first is a premise (log 8). -/
def Obligations.ResultDependsOnInputAlone : Prop :=
  ∀ (i : Instr) (s1 s2 t1 : State), i.isCommand = true → s1.hashTable = s2.hashTable →
    s1.params.packLayout = s2.params.packLayout → s1.inLen = s2.inLen →
    (s1.inLen.toNat ≤ s1.params.inCap ↔ s2.inLen.toNat ≤ s2.params.inCap) →
    min s1.params.outCap 4372 ≤ s2.params.outCap →
    (∀ k < s1.inLen.toNat, memGet s1.inMem k = memGet s2.inMem k) → exec i s1 = .next t1 →
    ∃ t2, exec i s2 = .next t2 ∧ t2.status = t1.status ∧ t2.outLen = t1.outLen ∧
      ∀ k < t1.outLen.toNat, memGet t2.outMem k = memGet t1.outMem k

/-- RUN's three statements, from a block with no command running: the length is written, the command word starts the
command, the block runs it, and the poll ends by reading the STATUS it leaves (R86, R252, R253; log 1, log 13). That
the longest result fits in OUT is a premise (log 8). -/
def Obligations.RunExpansionRunsTheCommand : Prop :=
  ∀ (s : State) (rest : List Input) (i : Instr) (len : Word), i.isCommand = true → isBusy s = false →
    s.inputs = expandStmt s.params.base (.run i len) ++ rest →
    (len.toNat ≤ s.params.inCap → InReadable s len.toNat) →
    (if i = .encode then 4372 else 4096) ≤ s.params.outCap →
    let started : State := { s with
      inputs := .poll :: rest, inLen := len, cmd := commandWord i, status := 0x00000001, outLen := 0, work := .none
      phase := if i = .encode then .encRun else .decRun }
    ∃ t, exec i started = .next t ∧ stepN 4 s = .next { t with inputs := rest, readLog := t.status :: s.readLog }

/-- Running a started command one unit at a time ends exactly as the atomic command does, in its next state or in its
fault: set-up, 1024 elements, end (R259; log 3). -/
def Obligations.TicksReachTheAtomicResult : Prop :=
  ∀ (i : Instr) (s : State), Started i s →
    stepN 1026 (s.setInputs (List.replicate 1026 .tick)) = exec i (s.setInputs [])
end

