-- ==== Sys2Proof/Laws/Memory.lean ====
section
/-! SUPPORT. What the window operations do: reading after a write, the canonical form, the byte layout of words, and
inversion of the reads. -/

namespace Sys2Proof.Machine

@[simp] theorem andThen_next {α β : Type} (a : α) (f : α → Result β) : andThen (.next a) f = f a := rfl
@[simp] theorem andThen_fault {α β : Type} (e : Fault) (f : α → Result β) : andThen (.fault e) f = .fault e := rfl
@[simp] theorem andThen_refused {α β : Type} (e : Refusal) (f : α → Result β) :
    andThen (.refused e) f = .refused e := rfl

/-- A chain answers a value exactly when its first part does and the rest does on that value. -/
theorem andThen_eq_next {α β : Type} {r : Result α} {f : α → Result β} {b : β} :
    andThen r f = .next b ↔ ∃ a, r = .next a ∧ f a = .next b := by
  cases r <;> simp

theorem memGet_append (m n : Memory) (a : Nat) : memGet (m ++ n) a = (memGet m a).or (memGet n a) := by
  induction m with
  | nil => simp [memGet]
  | cons c rest ih =>
    by_cases h : c.1 = a <;> simp [memGet, h, ih]

theorem memGet_filter (p : Nat → Bool) (m : Memory) (a : Nat) :
    memGet (m.filter fun c => p c.1) a = if p a then memGet m a else none := by
  induction m with
  | nil => simp [memGet]
  | cons c rest ih =>
    by_cases h : c.1 = a
    · subst h
      by_cases hp : p c.1 <;> simp [memGet, hp, ih]
    · by_cases hp : p c.1 <;> by_cases ha : p a <;> simp [memGet, h, hp, ih, ha]

theorem memGet_runCells (bytes : List Byte) (off a : Nat) :
    memGet (runCells off bytes) a = if off ≤ a then bytes[a - off]? else none := by
  induction bytes generalizing off with
  | nil => simp [runCells, memGet]
  | cons b rest ih =>
    rw [runCells, memGet, ih]
    rcases Nat.lt_trichotomy off a with h | h | h
    · have : a - off = (a - (off + 1)) + 1 := by omega
      simp [show off ≠ a by omega, show off + 1 ≤ a by omega, show off ≤ a by omega, this]
    · simp [h]
    · simp [show off ≠ a by omega, show ¬ off + 1 ≤ a by omega, show ¬ off ≤ a by omega]

/-- Reading a byte after a run of bytes was written: the run's byte inside the run, the old byte outside. -/
theorem memGet_writeRun (m : Memory) (off : Nat) (bytes : List Byte) (a : Nat) :
    memGet (writeRun m off bytes) a
      = if off ≤ a ∧ a < off + bytes.length then bytes[a - off]? else memGet m a := by
  rw [writeRun, memGet_append, memGet_append, memGet_filter (fun x => decide (x < off)),
    memGet_filter (fun x => decide (off + bytes.length ≤ x)), memGet_runCells]
  by_cases h1 : a < off
  · have h2 : ¬ off ≤ a := by omega
    have h3 : ¬ off + bytes.length ≤ a := by omega
    simp [h1, h2, h3]
  · by_cases h2 : a < off + bytes.length
    · have h3 : ¬ off + bytes.length ≤ a := by omega
      simp [h1, h2, show off ≤ a by omega, h3]
    · have h3 : off + bytes.length ≤ a := by omega
      have h4 : bytes[a - off]? = none := by simp; omega
      simp [h1, h2, show off ≤ a by omega, h3, h4]

theorem runCells_addr {bytes : List Byte} {off : Nat} {c : Host.Cell} (h : c ∈ runCells off bytes) :
    off ≤ c.1 ∧ c.1 < off + bytes.length := by
  induction bytes generalizing off with
  | nil => simp [runCells] at h
  | cons b rest ih =>
    rcases List.mem_cons.1 h with rfl | h
    · simp
    · have := ih h
      simp only [List.length_cons]
      omega

theorem runCells_wf (bytes : List Byte) (off : Nat) : Memory.wf (runCells off bytes) := by
  induction bytes generalizing off with
  | nil => exact List.Pairwise.nil
  | cons b rest ih =>
    refine List.Pairwise.cons (fun c hc => ?_) (ih (off + 1))
    have := runCells_addr hc
    exact this.1

/-- Writing keeps the canonical form. -/
theorem writeRun_wf {m : Memory} (h : Memory.wf m) (off : Nat) (bytes : List Byte) :
    Memory.wf (writeRun m off bytes) := by
  rw [writeRun, Memory.wf, List.pairwise_append, List.pairwise_append]
  refine ⟨⟨h.filter _, runCells_wf bytes off, fun c hc d hd => ?_⟩, h.filter _, fun c hc d hd => ?_⟩
  · have h1 := (List.mem_filter.1 hc).2
    have h2 := runCells_addr hd
    simp only [decide_eq_true_eq] at h1
    omega
  · have h2 := (List.mem_filter.1 hd).2
    simp only [decide_eq_true_eq] at h2
    rcases List.mem_append.1 hc with hc | hc
    · have h1 := (List.mem_filter.1 hc).2
      simp only [decide_eq_true_eq] at h1
      omega
    · have h1 := runCells_addr hc
      omega

/-- A write lists no offset but the old ones and those of the run. -/
theorem mem_writeRun {m : Memory} {off : Nat} {bytes : List Byte} {c : Host.Cell}
    (h : c ∈ writeRun m off bytes) : c ∈ m ∨ (off ≤ c.1 ∧ c.1 < off + bytes.length) := by
  rw [writeRun, List.mem_append, List.mem_append] at h
  rcases h with (h | h) | h
  · exact .inl (List.mem_filter.1 h).1
  · exact .inr (runCells_addr h)
  · exact .inl (List.mem_filter.1 h).1

@[simp] theorem wordBytes_length (n : Nat) (w : Word) : (wordBytes n w).length = n := by simp [wordBytes]

@[simp] theorem wordsBytes_length (ws : List Word) : (wordsBytes ws).length = 4 * ws.length := by
  induction ws with
  | nil => rfl
  | cons w rest ih => simp only [wordsBytes, List.flatMap_cons, List.length_append, List.length_cons,
      wordBytes_length] at *; omega

/-- The byte layout of a word loses nothing (R53). -/
theorem joinBytes_wordBytes (w : Word) : joinBytes (wordBytes 4 w) = w := by
  apply BitVec.eq_of_getLsbD_eq
  intro i hi
  have h4 : wordBytes 4 w
      = [w.extractLsb' 0 8, w.extractLsb' 8 8, w.extractLsb' 16 8, w.extractLsb' 24 8] := rfl
  rw [h4]
  simp only [joinBytes, BitVec.getLsbD_or, BitVec.getLsbD_setWidth, BitVec.getLsbD_shiftLeft,
    BitVec.getLsbD_extractLsb']
  rcases (by omega : i < 8 ∨ (8 ≤ i ∧ i < 16) ∨ (16 ≤ i ∧ i < 24) ∨ 24 ≤ i) with h | h | h | h
  · simp [h, hi]
  · simp [show ¬ i < 8 by omega, show i - 8 < 8 by omega, show 8 + (i - 8) = i by omega, hi,
      show i - 8 < 32 by omega]
  · simp [show ¬ i < 8 by omega, show ¬ i - 8 < 8 by omega, show i - 8 - 8 < 8 by omega,
      show 16 + (i - 8 - 8) = i by omega, hi, show i - 8 < 32 by omega, show i - 8 - 8 < 32 by omega]
  · simp [show ¬ i < 8 by omega, show ¬ i - 8 < 8 by omega, show ¬ i - 8 - 8 < 8 by omega,
      show i - 8 - 8 - 8 < 8 by omega, show 24 + (i - 8 - 8 - 8) = i by omega, hi,
      show i - 8 < 32 by omega, show i - 8 - 8 < 32 by omega, show i - 8 - 8 - 8 < 32 by omega]

/-- A read answers the stored bytes, each of which has a value; there is no other answer. -/
theorem readBytes_eq_next {missing : Nat → Fault} {m : Memory} {n off : Nat} {bs : List Byte} :
    readBytes missing m off n = .next bs ↔ bs.length = n ∧ ∀ k < n, memGet m (off + k) = bs[k]? := by
  induction n generalizing off bs with
  | zero => simp only [readBytes]; constructor
            · rintro h; cases h; simp
            · rintro ⟨h, -⟩; rw [List.length_eq_zero_iff.1 h]
  | succ n ih =>
    rw [readBytes]
    constructor
    · intro h
      cases hg : memGet m off with
      | none => rw [hg] at h; cases h
      | some b =>
        rw [hg] at h
        obtain ⟨rest, hr, he⟩ := andThen_eq_next.1 h
        cases he
        obtain ⟨hl, hk⟩ := ih.1 hr
        refine ⟨by simp [hl], fun k hk' => ?_⟩
        cases k with
        | zero => simpa using hg
        | succ k => rw [show off + (k + 1) = off + 1 + k by omega, hk k (by omega)]; simp
    · rintro ⟨hl, hk⟩
      cases bs with
      | nil => simp at hl
      | cons b rest =>
        have h0 := hk 0 (by omega)
        simp only [Nat.add_zero, List.getElem?_cons_zero] at h0
        rw [h0]
        refine andThen_eq_next.2 ⟨rest, ih.2 ⟨by simpa using hl, fun k hk' => ?_⟩, rfl⟩
        have := hk (k + 1) (by omega)
        rwa [show off + (k + 1) = off + 1 + k by omega, List.getElem?_cons_succ] at this

/-- A read is refused by nothing. -/
theorem readBytes_ne_refused {missing : Nat → Fault} {m : Memory} {n off : Nat} {e : Refusal} :
    readBytes missing m off n ≠ .refused e := by
  induction n generalizing off with
  | zero => simp [readBytes]
  | succ n ih =>
    rw [readBytes]
    cases memGet m off with
    | none => simp
    | some b =>
      cases h : readBytes missing m (off + 1) n with
      | next bs => simp
      | fault e => simp
      | refused e' =>
        intro he
        cases he
        exact ih h

@[simp] theorem commitOut_outMem (s : State) (ws : List Word) :
    (commitOut s ws).outMem = writeRun s.outMem 0 (wordsBytes ws) := rfl

end Sys2Proof.Machine
end

