-- ==== Sys2Proof/Laws/State.lean ====
section
/-! SUPPORT. One lemma per field per update, so that no later proof unfolds a record update. -/

namespace Sys2Proof.Machine

@[simp] theorem State.setCmd_cmd (s : State) (v : Word) : (s.setCmd v).cmd = v := rfl
@[simp] theorem State.setCmd_status (s : State) (v : Word) : (s.setCmd v).status = s.status := rfl
@[simp] theorem State.setCmd_inLen (s : State) (v : Word) : (s.setCmd v).inLen = s.inLen := rfl
@[simp] theorem State.setCmd_outLen (s : State) (v : Word) : (s.setCmd v).outLen = s.outLen := rfl
@[simp] theorem State.setCmd_inMem (s : State) (v : Word) : (s.setCmd v).inMem = s.inMem := rfl
@[simp] theorem State.setCmd_outMem (s : State) (v : Word) : (s.setCmd v).outMem = s.outMem := rfl
@[simp] theorem State.setCmd_dict (s : State) (v : Word) : (s.setCmd v).dict = s.dict := rfl
@[simp] theorem State.setCmd_hashTable (s : State) (v : Word) : (s.setCmd v).hashTable = s.hashTable := rfl
@[simp] theorem State.setCmd_params (s : State) (v : Word) : (s.setCmd v).params = s.params := rfl
@[simp] theorem State.setCmd_phase (s : State) (v : Word) : (s.setCmd v).phase = s.phase := rfl
@[simp] theorem State.setCmd_work (s : State) (v : Word) : (s.setCmd v).work = s.work := rfl
@[simp] theorem State.setCmd_inputs (s : State) (v : Word) : (s.setCmd v).inputs = s.inputs := rfl
@[simp] theorem State.setCmd_readLog (s : State) (v : Word) : (s.setCmd v).readLog = s.readLog := rfl

@[simp] theorem State.setStatus_cmd (s : State) (v : Word) : (s.setStatus v).cmd = s.cmd := rfl
@[simp] theorem State.setStatus_status (s : State) (v : Word) : (s.setStatus v).status = v := rfl
@[simp] theorem State.setStatus_inLen (s : State) (v : Word) : (s.setStatus v).inLen = s.inLen := rfl
@[simp] theorem State.setStatus_outLen (s : State) (v : Word) : (s.setStatus v).outLen = s.outLen := rfl
@[simp] theorem State.setStatus_inMem (s : State) (v : Word) : (s.setStatus v).inMem = s.inMem := rfl
@[simp] theorem State.setStatus_outMem (s : State) (v : Word) : (s.setStatus v).outMem = s.outMem := rfl
@[simp] theorem State.setStatus_dict (s : State) (v : Word) : (s.setStatus v).dict = s.dict := rfl
@[simp] theorem State.setStatus_hashTable (s : State) (v : Word) : (s.setStatus v).hashTable = s.hashTable := rfl
@[simp] theorem State.setStatus_params (s : State) (v : Word) : (s.setStatus v).params = s.params := rfl
@[simp] theorem State.setStatus_phase (s : State) (v : Word) : (s.setStatus v).phase = s.phase := rfl
@[simp] theorem State.setStatus_work (s : State) (v : Word) : (s.setStatus v).work = s.work := rfl
@[simp] theorem State.setStatus_inputs (s : State) (v : Word) : (s.setStatus v).inputs = s.inputs := rfl
@[simp] theorem State.setStatus_readLog (s : State) (v : Word) : (s.setStatus v).readLog = s.readLog := rfl

@[simp] theorem State.setInLen_cmd (s : State) (v : Word) : (s.setInLen v).cmd = s.cmd := rfl
@[simp] theorem State.setInLen_status (s : State) (v : Word) : (s.setInLen v).status = s.status := rfl
@[simp] theorem State.setInLen_inLen (s : State) (v : Word) : (s.setInLen v).inLen = v := rfl
@[simp] theorem State.setInLen_outLen (s : State) (v : Word) : (s.setInLen v).outLen = s.outLen := rfl
@[simp] theorem State.setInLen_inMem (s : State) (v : Word) : (s.setInLen v).inMem = s.inMem := rfl
@[simp] theorem State.setInLen_outMem (s : State) (v : Word) : (s.setInLen v).outMem = s.outMem := rfl
@[simp] theorem State.setInLen_dict (s : State) (v : Word) : (s.setInLen v).dict = s.dict := rfl
@[simp] theorem State.setInLen_hashTable (s : State) (v : Word) : (s.setInLen v).hashTable = s.hashTable := rfl
@[simp] theorem State.setInLen_params (s : State) (v : Word) : (s.setInLen v).params = s.params := rfl
@[simp] theorem State.setInLen_phase (s : State) (v : Word) : (s.setInLen v).phase = s.phase := rfl
@[simp] theorem State.setInLen_work (s : State) (v : Word) : (s.setInLen v).work = s.work := rfl
@[simp] theorem State.setInLen_inputs (s : State) (v : Word) : (s.setInLen v).inputs = s.inputs := rfl
@[simp] theorem State.setInLen_readLog (s : State) (v : Word) : (s.setInLen v).readLog = s.readLog := rfl

@[simp] theorem State.setOutLen_cmd (s : State) (v : Word) : (s.setOutLen v).cmd = s.cmd := rfl
@[simp] theorem State.setOutLen_status (s : State) (v : Word) : (s.setOutLen v).status = s.status := rfl
@[simp] theorem State.setOutLen_inLen (s : State) (v : Word) : (s.setOutLen v).inLen = s.inLen := rfl
@[simp] theorem State.setOutLen_outLen (s : State) (v : Word) : (s.setOutLen v).outLen = v := rfl
@[simp] theorem State.setOutLen_inMem (s : State) (v : Word) : (s.setOutLen v).inMem = s.inMem := rfl
@[simp] theorem State.setOutLen_outMem (s : State) (v : Word) : (s.setOutLen v).outMem = s.outMem := rfl
@[simp] theorem State.setOutLen_dict (s : State) (v : Word) : (s.setOutLen v).dict = s.dict := rfl
@[simp] theorem State.setOutLen_hashTable (s : State) (v : Word) : (s.setOutLen v).hashTable = s.hashTable := rfl
@[simp] theorem State.setOutLen_params (s : State) (v : Word) : (s.setOutLen v).params = s.params := rfl
@[simp] theorem State.setOutLen_phase (s : State) (v : Word) : (s.setOutLen v).phase = s.phase := rfl
@[simp] theorem State.setOutLen_work (s : State) (v : Word) : (s.setOutLen v).work = s.work := rfl
@[simp] theorem State.setOutLen_inputs (s : State) (v : Word) : (s.setOutLen v).inputs = s.inputs := rfl
@[simp] theorem State.setOutLen_readLog (s : State) (v : Word) : (s.setOutLen v).readLog = s.readLog := rfl

@[simp] theorem State.setInMem_cmd (s : State) (v : Memory) : (s.setInMem v).cmd = s.cmd := rfl
@[simp] theorem State.setInMem_status (s : State) (v : Memory) : (s.setInMem v).status = s.status := rfl
@[simp] theorem State.setInMem_inLen (s : State) (v : Memory) : (s.setInMem v).inLen = s.inLen := rfl
@[simp] theorem State.setInMem_outLen (s : State) (v : Memory) : (s.setInMem v).outLen = s.outLen := rfl
@[simp] theorem State.setInMem_inMem (s : State) (v : Memory) : (s.setInMem v).inMem = v := rfl
@[simp] theorem State.setInMem_outMem (s : State) (v : Memory) : (s.setInMem v).outMem = s.outMem := rfl
@[simp] theorem State.setInMem_dict (s : State) (v : Memory) : (s.setInMem v).dict = s.dict := rfl
@[simp] theorem State.setInMem_hashTable (s : State) (v : Memory) : (s.setInMem v).hashTable = s.hashTable := rfl
@[simp] theorem State.setInMem_params (s : State) (v : Memory) : (s.setInMem v).params = s.params := rfl
@[simp] theorem State.setInMem_phase (s : State) (v : Memory) : (s.setInMem v).phase = s.phase := rfl
@[simp] theorem State.setInMem_work (s : State) (v : Memory) : (s.setInMem v).work = s.work := rfl
@[simp] theorem State.setInMem_inputs (s : State) (v : Memory) : (s.setInMem v).inputs = s.inputs := rfl
@[simp] theorem State.setInMem_readLog (s : State) (v : Memory) : (s.setInMem v).readLog = s.readLog := rfl

@[simp] theorem State.setOutMem_cmd (s : State) (v : Memory) : (s.setOutMem v).cmd = s.cmd := rfl
@[simp] theorem State.setOutMem_status (s : State) (v : Memory) : (s.setOutMem v).status = s.status := rfl
@[simp] theorem State.setOutMem_inLen (s : State) (v : Memory) : (s.setOutMem v).inLen = s.inLen := rfl
@[simp] theorem State.setOutMem_outLen (s : State) (v : Memory) : (s.setOutMem v).outLen = s.outLen := rfl
@[simp] theorem State.setOutMem_inMem (s : State) (v : Memory) : (s.setOutMem v).inMem = s.inMem := rfl
@[simp] theorem State.setOutMem_outMem (s : State) (v : Memory) : (s.setOutMem v).outMem = v := rfl
@[simp] theorem State.setOutMem_dict (s : State) (v : Memory) : (s.setOutMem v).dict = s.dict := rfl
@[simp] theorem State.setOutMem_hashTable (s : State) (v : Memory) : (s.setOutMem v).hashTable = s.hashTable := rfl
@[simp] theorem State.setOutMem_params (s : State) (v : Memory) : (s.setOutMem v).params = s.params := rfl
@[simp] theorem State.setOutMem_phase (s : State) (v : Memory) : (s.setOutMem v).phase = s.phase := rfl
@[simp] theorem State.setOutMem_work (s : State) (v : Memory) : (s.setOutMem v).work = s.work := rfl
@[simp] theorem State.setOutMem_inputs (s : State) (v : Memory) : (s.setOutMem v).inputs = s.inputs := rfl
@[simp] theorem State.setOutMem_readLog (s : State) (v : Memory) : (s.setOutMem v).readLog = s.readLog := rfl

@[simp] theorem State.setDict_cmd (s : State) (v : Dict) : (s.setDict v).cmd = s.cmd := rfl
@[simp] theorem State.setDict_status (s : State) (v : Dict) : (s.setDict v).status = s.status := rfl
@[simp] theorem State.setDict_inLen (s : State) (v : Dict) : (s.setDict v).inLen = s.inLen := rfl
@[simp] theorem State.setDict_outLen (s : State) (v : Dict) : (s.setDict v).outLen = s.outLen := rfl
@[simp] theorem State.setDict_inMem (s : State) (v : Dict) : (s.setDict v).inMem = s.inMem := rfl
@[simp] theorem State.setDict_outMem (s : State) (v : Dict) : (s.setDict v).outMem = s.outMem := rfl
@[simp] theorem State.setDict_dict (s : State) (v : Dict) : (s.setDict v).dict = v := rfl
@[simp] theorem State.setDict_hashTable (s : State) (v : Dict) : (s.setDict v).hashTable = s.hashTable := rfl
@[simp] theorem State.setDict_params (s : State) (v : Dict) : (s.setDict v).params = s.params := rfl
@[simp] theorem State.setDict_phase (s : State) (v : Dict) : (s.setDict v).phase = s.phase := rfl
@[simp] theorem State.setDict_work (s : State) (v : Dict) : (s.setDict v).work = s.work := rfl
@[simp] theorem State.setDict_inputs (s : State) (v : Dict) : (s.setDict v).inputs = s.inputs := rfl
@[simp] theorem State.setDict_readLog (s : State) (v : Dict) : (s.setDict v).readLog = s.readLog := rfl

@[simp] theorem State.setPhase_cmd (s : State) (v : Phase) : (s.setPhase v).cmd = s.cmd := rfl
@[simp] theorem State.setPhase_status (s : State) (v : Phase) : (s.setPhase v).status = s.status := rfl
@[simp] theorem State.setPhase_inLen (s : State) (v : Phase) : (s.setPhase v).inLen = s.inLen := rfl
@[simp] theorem State.setPhase_outLen (s : State) (v : Phase) : (s.setPhase v).outLen = s.outLen := rfl
@[simp] theorem State.setPhase_inMem (s : State) (v : Phase) : (s.setPhase v).inMem = s.inMem := rfl
@[simp] theorem State.setPhase_outMem (s : State) (v : Phase) : (s.setPhase v).outMem = s.outMem := rfl
@[simp] theorem State.setPhase_dict (s : State) (v : Phase) : (s.setPhase v).dict = s.dict := rfl
@[simp] theorem State.setPhase_hashTable (s : State) (v : Phase) : (s.setPhase v).hashTable = s.hashTable := rfl
@[simp] theorem State.setPhase_params (s : State) (v : Phase) : (s.setPhase v).params = s.params := rfl
@[simp] theorem State.setPhase_phase (s : State) (v : Phase) : (s.setPhase v).phase = v := rfl
@[simp] theorem State.setPhase_work (s : State) (v : Phase) : (s.setPhase v).work = s.work := rfl
@[simp] theorem State.setPhase_inputs (s : State) (v : Phase) : (s.setPhase v).inputs = s.inputs := rfl
@[simp] theorem State.setPhase_readLog (s : State) (v : Phase) : (s.setPhase v).readLog = s.readLog := rfl

@[simp] theorem State.setWork_cmd (s : State) (v : Work) : (s.setWork v).cmd = s.cmd := rfl
@[simp] theorem State.setWork_status (s : State) (v : Work) : (s.setWork v).status = s.status := rfl
@[simp] theorem State.setWork_inLen (s : State) (v : Work) : (s.setWork v).inLen = s.inLen := rfl
@[simp] theorem State.setWork_outLen (s : State) (v : Work) : (s.setWork v).outLen = s.outLen := rfl
@[simp] theorem State.setWork_inMem (s : State) (v : Work) : (s.setWork v).inMem = s.inMem := rfl
@[simp] theorem State.setWork_outMem (s : State) (v : Work) : (s.setWork v).outMem = s.outMem := rfl
@[simp] theorem State.setWork_dict (s : State) (v : Work) : (s.setWork v).dict = s.dict := rfl
@[simp] theorem State.setWork_hashTable (s : State) (v : Work) : (s.setWork v).hashTable = s.hashTable := rfl
@[simp] theorem State.setWork_params (s : State) (v : Work) : (s.setWork v).params = s.params := rfl
@[simp] theorem State.setWork_phase (s : State) (v : Work) : (s.setWork v).phase = s.phase := rfl
@[simp] theorem State.setWork_work (s : State) (v : Work) : (s.setWork v).work = v := rfl
@[simp] theorem State.setWork_inputs (s : State) (v : Work) : (s.setWork v).inputs = s.inputs := rfl
@[simp] theorem State.setWork_readLog (s : State) (v : Work) : (s.setWork v).readLog = s.readLog := rfl

@[simp] theorem State.setInputs_cmd (s : State) (v : List Input) : (s.setInputs v).cmd = s.cmd := rfl
@[simp] theorem State.setInputs_status (s : State) (v : List Input) : (s.setInputs v).status = s.status := rfl
@[simp] theorem State.setInputs_inLen (s : State) (v : List Input) : (s.setInputs v).inLen = s.inLen := rfl
@[simp] theorem State.setInputs_outLen (s : State) (v : List Input) : (s.setInputs v).outLen = s.outLen := rfl
@[simp] theorem State.setInputs_inMem (s : State) (v : List Input) : (s.setInputs v).inMem = s.inMem := rfl
@[simp] theorem State.setInputs_outMem (s : State) (v : List Input) : (s.setInputs v).outMem = s.outMem := rfl
@[simp] theorem State.setInputs_dict (s : State) (v : List Input) : (s.setInputs v).dict = s.dict := rfl
@[simp] theorem State.setInputs_hashTable (s : State) (v : List Input) : (s.setInputs v).hashTable = s.hashTable := rfl
@[simp] theorem State.setInputs_params (s : State) (v : List Input) : (s.setInputs v).params = s.params := rfl
@[simp] theorem State.setInputs_phase (s : State) (v : List Input) : (s.setInputs v).phase = s.phase := rfl
@[simp] theorem State.setInputs_work (s : State) (v : List Input) : (s.setInputs v).work = s.work := rfl
@[simp] theorem State.setInputs_inputs (s : State) (v : List Input) : (s.setInputs v).inputs = v := rfl
@[simp] theorem State.setInputs_readLog (s : State) (v : List Input) : (s.setInputs v).readLog = s.readLog := rfl

@[simp] theorem State.setReadLog_cmd (s : State) (v : List Word) : (s.setReadLog v).cmd = s.cmd := rfl
@[simp] theorem State.setReadLog_status (s : State) (v : List Word) : (s.setReadLog v).status = s.status := rfl
@[simp] theorem State.setReadLog_inLen (s : State) (v : List Word) : (s.setReadLog v).inLen = s.inLen := rfl
@[simp] theorem State.setReadLog_outLen (s : State) (v : List Word) : (s.setReadLog v).outLen = s.outLen := rfl
@[simp] theorem State.setReadLog_inMem (s : State) (v : List Word) : (s.setReadLog v).inMem = s.inMem := rfl
@[simp] theorem State.setReadLog_outMem (s : State) (v : List Word) : (s.setReadLog v).outMem = s.outMem := rfl
@[simp] theorem State.setReadLog_dict (s : State) (v : List Word) : (s.setReadLog v).dict = s.dict := rfl
@[simp] theorem State.setReadLog_hashTable (s : State) (v : List Word) : (s.setReadLog v).hashTable = s.hashTable := rfl
@[simp] theorem State.setReadLog_params (s : State) (v : List Word) : (s.setReadLog v).params = s.params := rfl
@[simp] theorem State.setReadLog_phase (s : State) (v : List Word) : (s.setReadLog v).phase = s.phase := rfl
@[simp] theorem State.setReadLog_work (s : State) (v : List Word) : (s.setReadLog v).work = s.work := rfl
@[simp] theorem State.setReadLog_inputs (s : State) (v : List Word) : (s.setReadLog v).inputs = s.inputs := rfl
@[simp] theorem State.setReadLog_readLog (s : State) (v : List Word) : (s.setReadLog v).readLog = v := rfl
end Sys2Proof.Machine
end

