-- ==== Sys2Proof/Laws/Reads.lean ====
section
/-! SUPPORT. What the block's reads of IN answer (R54, R55): the words of a window that holds them, a word wherever the
bytes have values, a fault at a byte without one, and never a refusal; and what a commit leaves in OUT (R56). -/

namespace Sys2Proof.Machine

theorem andThen_assoc {α β γ : Type} (r : Result α) (f : α → Result β) (g : β → Result γ) :
    andThen (andThen r f) g = andThen r fun a => andThen (f a) g := by
  cases r <;> rfl

/-- A chain's rest matters only on the values its first part answers. -/
theorem andThen_congr {α β : Type} {r : Result α} {f g : α → Result β} (h : ∀ a, r = .next a → f a = g a) :
    andThen r f = andThen r g := by
  cases r with
  | next a => exact h a rfl
  | fault => rfl
  | refused => rfl

/-- A chain is refused by nothing if none of its parts is. -/
theorem andThen_ne_refused {α β : Type} {r : Result α} {f : α → Result β} {e : Refusal}
    (h1 : ∀ e, r ≠ .refused e) (h2 : ∀ a, f a ≠ .refused e) : andThen r f ≠ .refused e := by
  cases r with
  | next a => exact h2 a
  | fault => simp
  | refused e' => exact absurd rfl (h1 e')

/-- Byte `j` of word `k` of a sequence of words (R53). -/
theorem wordsBytes_getElem? (ws : List Word) (k j : Nat) (hj : j < 4) (h : k < ws.length) :
    (wordsBytes ws)[4 * k + j]? = (wordBytes 4 ws[k])[j]? := by
  induction ws generalizing k with
  | nil => simp at h
  | cons w rest ih =>
    show (wordBytes 4 w ++ wordsBytes rest)[4 * k + j]? = _
    cases k with
    | zero => rw [List.getElem?_append_left (by simpa using hj)]; simp
    | succ k =>
      have hs : 4 * (k + 1) + j - (wordBytes 4 w).length = 4 * k + j := by simp; omega
      rw [List.getElem?_append_right (by simp; omega), hs, ih k (by simpa using h)]
      simp

/-- A window that holds words answers them. -/
theorem le32_of_holds {s : State} {ws : List Word} (h : Holds s.inMem (wordsBytes ws)) {k : Nat}
    (hk : k < ws.length) : le32 s k = .next ws[k] := by
  have : memReadIn s (4 * k) 4 = .next (wordBytes 4 ws[k]) := by
    refine readBytes_eq_next.2 ⟨by simp, fun j hj => ?_⟩
    rw [h (4 * k + j) (by simp; omega), wordsBytes_getElem? ws k j hj hk]
  simp [le32, this, joinBytes_wordBytes]

theorem readWords_of_holds {s : State} {ws : List Word} (h : Holds s.inMem (wordsBytes ws)) {n k : Nat}
    (hk : k + n ≤ ws.length) : readWords s k n = .next ((ws.drop k).take n) := by
  induction n generalizing k with
  | zero => simp [readWords]
  | succ n ih =>
    rw [readWords, le32_of_holds h (show k < ws.length by omega), andThen_next, ih (by omega), andThen_next,
      List.drop_eq_getElem_cons (show k < ws.length by omega)]
    rfl

/-- A read depends on IN alone. -/
theorem le32_congr {s t : State} (h : s.inMem = t.inMem) (k : Nat) : le32 s k = le32 t k := by
  simp [le32, memReadIn, h]

theorem readWords_congr {s t : State} (h : s.inMem = t.inMem) (n k : Nat) : readWords s k n = readWords t k n := by
  induction n generalizing k with
  | zero => rfl
  | succ n ih => simp only [readWords, le32_congr h, ih]

/-- A read depends on the bytes below `n` alone, if it stays below `n`. -/
theorem le32_agree {s t : State} {n k : Nat} (h : ∀ j < n, memGet s.inMem j = memGet t.inMem j)
    (hk : 4 * k + 4 ≤ n) : le32 s k = le32 t k := by
  have : ∀ m off, off + m ≤ n →
      readBytes .inByteUnwritten s.inMem off m = readBytes .inByteUnwritten t.inMem off m := by
    intro m
    induction m with
    | zero => intro off _; rfl
    | succ m ih => intro off ho; rw [readBytes, readBytes, h off (by omega), ih (off + 1) (by omega)]
  unfold le32 memReadIn
  rw [this _ _ (by omega)]

theorem readWords_agree {s t : State} {n : Nat} (h : ∀ j < n, memGet s.inMem j = memGet t.inMem j) (m k : Nat)
    (hk : 4 * (k + m) ≤ n) : readWords s k m = readWords t k m := by
  induction m generalizing k with
  | zero => rfl
  | succ m ih => rw [readWords, readWords, le32_agree h (by omega), ih (k + 1) (by omega)]

theorem le32_ne_refused {s : State} {k : Nat} {e : Refusal} : le32 s k ≠ .refused e :=
  andThen_ne_refused (fun _ => readBytes_ne_refused) fun _ => by simp

theorem readWords_ne_refused {s : State} {n k : Nat} {e : Refusal} : readWords s k n ≠ .refused e := by
  induction n generalizing k e with
  | zero => simp [readWords]
  | succ n ih =>
    exact andThen_ne_refused (fun _ => le32_ne_refused) fun _ => andThen_ne_refused (fun _ => ih) fun _ => by simp

theorem readWords_length {s : State} {n k : Nat} {ws : List Word} (h : readWords s k n = .next ws) :
    ws.length = n := by
  induction n generalizing k ws with
  | zero => simp [readWords] at h; subst h; rfl
  | succ n ih =>
    obtain ⟨a, _, h⟩ := andThen_eq_next.1 h
    obtain ⟨b, h2, h⟩ := andThen_eq_next.1 h
    cases h
    simp [ih h2]

/-- A word whose four bytes have values is read. -/
theorem le32_readable {s : State} {k : Nat} (h : ∀ j < 4, ∃ b, memGet s.inMem (4 * k + j) = some b) :
    ∃ w, le32 s k = .next w := by
  obtain ⟨a, ha⟩ := h 0 (by omega)
  obtain ⟨b, hb⟩ := h 1 (by omega)
  obtain ⟨c, hc⟩ := h 2 (by omega)
  obtain ⟨d, hd⟩ := h 3 (by omega)
  refine ⟨joinBytes [a, b, c, d], ?_⟩
  have : memReadIn s (4 * k) 4 = .next [a, b, c, d] := by
    refine readBytes_eq_next.2 ⟨rfl, fun j hj => ?_⟩
    interval_cases j <;> simp [*] <;> assumption
  simp [le32, this]

theorem readWords_readable {s : State} {bytes : Nat} (h : InReadable s bytes) {n k : Nat}
    (hk : 4 * (k + n) ≤ bytes) : ∃ ws, readWords s k n = .next ws := by
  induction n generalizing k with
  | zero => exact ⟨_, rfl⟩
  | succ n ih =>
    obtain ⟨w, hw⟩ := le32_readable (s := s) (k := k) fun j hj => h _ (by omega)
    obtain ⟨ws, hws⟩ := ih (k := k + 1) (by omega)
    exact ⟨w :: ws, by simp [readWords, hw, hws]⟩

/-- A read that faults names a byte of its range that has no value. -/
theorem readBytes_fault {missing : Nat → Fault} {m : Memory} {n off : Nat} {e : Fault}
    (h : readBytes missing m off n = .fault e) :
    ∃ k, off ≤ k ∧ k < off + n ∧ memGet m k = none ∧ e = missing k := by
  induction n generalizing off with
  | zero => simp [readBytes] at h
  | succ n ih =>
    rw [readBytes] at h
    cases hg : memGet m off with
    | none => rw [hg] at h; cases h; exact ⟨off, by omega, by omega, hg, rfl⟩
    | some b =>
      rw [hg] at h
      simp only at h
      cases h2 : readBytes missing m (off + 1) n with
      | next a => rw [h2] at h; cases h
      | fault e' =>
        rw [h2] at h
        cases h
        obtain ⟨k, h1, h3, h4⟩ := ih h2
        exact ⟨k, by omega, by omega, h4⟩
      | refused e' => rw [h2] at h; cases h

theorem le32_fault {s : State} {k : Nat} {e : Fault} (h : le32 s k = .fault e) :
    ∃ j, 4 * k ≤ j ∧ j < 4 * k + 4 ∧ memGet s.inMem j = none ∧ e = .inByteUnwritten j := by
  unfold le32 at h
  cases h2 : memReadIn s (4 * k) 4 with
  | next a => rw [h2] at h; cases h
  | fault e' => rw [h2] at h; cases h; exact readBytes_fault h2
  | refused e' => rw [h2] at h; cases h

/-- A commit puts the words in OUT and leaves every later byte. -/
theorem commitOut_holds (s : State) (ws : List Word) :
    Holds (commitOut s ws).outMem (wordsBytes ws) ∧
      ∀ k, 4 * ws.length ≤ k → memGet (commitOut s ws).outMem k = memGet s.outMem k := by
  rw [commitOut_outMem]
  constructor
  · intro k hk
    rw [memGet_writeRun]
    simp at hk
    simp [hk]
  · intro k hk
    rw [memGet_writeRun]
    simp
    omega

/-- A window filled from offset 0 with a run of bytes holds them. -/
theorem holds_runCells (bytes : List Byte) : Holds (runCells 0 bytes) bytes := by
  intro k _
  simp [memGet_runCells]

end Sys2Proof.Machine
end

