-- ==== Sys2Proof/Laws/Operands.lean ====
section
/-! SUPPORT. The dictionary's read-after-write laws and the split of a word. -/

namespace Sys2Proof.Machine

@[simp] theorem dictWord_sentinel (q : Slot) : dictWord sentinelDict q = 1 := by
  simp [dictWord, sentinelDict]

@[simp] theorem dictWord_store_same (d : Dict) (q : Slot) (w : Word) : dictWord (dictStore d q w) q = w := by
  simp [dictWord, dictStore]

@[simp] theorem dictWord_store_other (d : Dict) {q r : Slot} (w : Word) (h : q ≠ r) :
    dictWord (dictStore d q w) r = dictWord d r := by
  have hn : q.toNat ≠ r.toNat := fun e => h (BitVec.eq_of_toNat_eq e)
  simp [dictWord, dictStore, hn]

@[simp] theorem dictLookup_fst (d : Dict) (q : Slot) : (dictLookup d q).1 = dictWord d q := rfl
@[simp] theorem dictLookup_snd (d : Dict) (q : Slot) : (dictLookup d q).2 = highBits (dictWord d q) := rfl

theorem mask_low {i : Nat} (h : i < 10) : (0xFFFFFC00 : Word).getLsbD i = false := by
  interval_cases i <;> rfl

theorem mask_high {i : Nat} (h : 10 ≤ i) (hi : i < 32) : (0xFFFFFC00 : Word).getLsbD i = true := by
  interval_cases i <;> rfl

/-- A word is its high bits and its low bits: nothing is lost by the split at bit 10 (R7). -/
theorem rebuildWord_of_high {dw v : Word} (h : highBits v = highBits dw) : rebuildWord dw (lowBits v) = v := by
  apply BitVec.eq_of_getLsbD_eq
  intro i hi
  have hb : ∀ j, j < 22 → v.getLsbD (10 + j) = dw.getLsbD (10 + j) := fun j hj => by
    have := congrArg (fun x => x.getLsbD j) h
    simpa [highBits, BitVec.getLsbD_extractLsb', hj] using this
  simp only [rebuildWord, lowBits, BitVec.getLsbD_or, BitVec.getLsbD_and, BitVec.getLsbD_setWidth,
    BitVec.getLsbD_extractLsb']
  by_cases h10 : i < 10
  · rw [mask_low h10]
    simp [h10, hi]
  · have := hb (i - 10) (by omega)
    rw [show 10 + (i - 10) = i by omega] at this
    rw [mask_high (Nat.le_of_not_lt h10) hi, this]
    simp [h10]

end Sys2Proof.Machine
end

