-- ==== Sys2Proof/Laws/Flags.lean ====
section
/-! SUPPORT. The fields of the STATUS words the model writes. -/

namespace Sys2Proof.Machine

@[simp] theorem busyBit_zero : busyBit 0 = false := by decide
@[simp] theorem doneBit_zero : doneBit 0 = false := by decide
@[simp] theorem errField_zero : errField 0 = 0 := by decide
@[simp] theorem busyBit_running : busyBit statusRunning = true := by decide
@[simp] theorem doneBit_running : doneBit statusRunning = false := by decide
@[simp] theorem errField_running : errField statusRunning = 0 := by decide
@[simp] theorem busyBit_ended (e : ErrCode) : busyBit (statusEnded e) = false := by cases e <;> decide
@[simp] theorem doneBit_ended (e : ErrCode) : doneBit (statusEnded e) = true := by cases e <;> decide
@[simp] theorem errField_ended (e : ErrCode) : errField (statusEnded e) = errValue e := by cases e <;> decide

/-- The codes are told apart by their values (R220). -/
theorem errValue_injective {e f : ErrCode} (h : errValue e = errValue f) : e = f := by
  cases e <;> cases f <;> first | rfl | exact absurd h (by decide)

end Sys2Proof.Machine
end

