-- ==== Sys2Proof/Laws/Ops.lean ====
section
/-! SUPPORT. What starting and ending a command do, field by field. -/

namespace Sys2Proof.Machine

section EndCommand
variable (e : ErrCode) (n : Nat) (s : State)

@[simp] theorem endCommand_cmd : (endCommand e n s).cmd = s.cmd := rfl
@[simp] theorem endCommand_status : (endCommand e n s).status = statusEnded e := rfl
@[simp] theorem endCommand_inLen : (endCommand e n s).inLen = s.inLen := rfl
@[simp] theorem endCommand_outLen : (endCommand e n s).outLen = BitVec.ofNat 32 n := rfl
@[simp] theorem endCommand_inMem : (endCommand e n s).inMem = s.inMem := rfl
@[simp] theorem endCommand_outMem : (endCommand e n s).outMem = s.outMem := rfl
@[simp] theorem endCommand_dict : (endCommand e n s).dict = s.dict := rfl
@[simp] theorem endCommand_hashTable : (endCommand e n s).hashTable = s.hashTable := rfl
@[simp] theorem endCommand_params : (endCommand e n s).params = s.params := rfl
@[simp] theorem endCommand_phase : (endCommand e n s).phase = .idle := rfl
@[simp] theorem endCommand_work : (endCommand e n s).work = .none := rfl
@[simp] theorem endCommand_inputs : (endCommand e n s).inputs = s.inputs := rfl
@[simp] theorem endCommand_readLog : (endCommand e n s).readLog = s.readLog := rfl

end EndCommand

/-- An error is the common end with length 0 (R227). -/
theorem raiseError_eq (e : ErrCode) (s : State) : raiseError e s = endCommand e 0 s := rfl

/-- A good end that fits in OUT is the common end with the staged words committed (R228). -/
theorem endOk_fits {ws : List Word} {s : State} (h : 4 * ws.length ≤ s.params.outCap) (n : Nat) :
    endOk ws n s = .next (endCommand .none n (commitOut s ws)) := if_pos h

/-- Words without room in OUT stop the command (log 8). -/
theorem endOk_overflows {ws : List Word} {s : State} (h : s.params.outCap < 4 * ws.length) (n : Nat) :
    endOk ws n s = .fault (.outputBeyondWindow (4 * ws.length)) := if_neg (by omega)

/-- A good end that answers: the words fit, and are committed. -/
theorem endOk_eq_next {ws : List Word} {n : Nat} {s t : State} : endOk ws n s = .next t ↔
    4 * ws.length ≤ s.params.outCap ∧ t = endCommand .none n (commitOut s ws) := by
  unfold endOk
  split
  · simp_all [eq_comm]
  · simp; omega

/-- A good end that faults: the words do not fit. -/
theorem endOk_eq_fault {ws : List Word} {n : Nat} {s : State} {e : Fault} : endOk ws n s = .fault e ↔
    s.params.outCap < 4 * ws.length ∧ e = .outputBeyondWindow (4 * ws.length) := by
  unfold endOk
  split
  · simp; omega
  · simp_all [eq_comm]

@[simp] theorem endOk_ne_refused {ws : List Word} {n : Nat} {s : State} {e : Refusal} :
    endOk ws n s ≠ .refused e := by
  unfold endOk
  split <;> simp

section CommitOut
variable (s : State) (ws : List Word)

@[simp] theorem commitOut_cmd : (commitOut s ws).cmd = s.cmd := rfl
@[simp] theorem commitOut_inLen : (commitOut s ws).inLen = s.inLen := rfl
@[simp] theorem commitOut_inMem : (commitOut s ws).inMem = s.inMem := rfl
@[simp] theorem commitOut_dict : (commitOut s ws).dict = s.dict := rfl
@[simp] theorem commitOut_hashTable : (commitOut s ws).hashTable = s.hashTable := rfl
@[simp] theorem commitOut_params : (commitOut s ws).params = s.params := rfl
@[simp] theorem commitOut_inputs : (commitOut s ws).inputs = s.inputs := rfl
@[simp] theorem commitOut_readLog : (commitOut s ws).readLog = s.readLog := rfl

end CommitOut

section LatchCommand
variable (c : Word) (s : State)

@[simp] theorem latchCommand_cmd : (latchCommand c s).cmd = c := rfl
@[simp] theorem latchCommand_status : (latchCommand c s).status = 0 := rfl
@[simp] theorem latchCommand_outLen : (latchCommand c s).outLen = 0 := rfl
@[simp] theorem latchCommand_inLen : (latchCommand c s).inLen = s.inLen := rfl
@[simp] theorem latchCommand_inMem : (latchCommand c s).inMem = s.inMem := rfl
@[simp] theorem latchCommand_outMem : (latchCommand c s).outMem = s.outMem := rfl
@[simp] theorem latchCommand_dict : (latchCommand c s).dict = s.dict := rfl
@[simp] theorem latchCommand_hashTable : (latchCommand c s).hashTable = s.hashTable := rfl
@[simp] theorem latchCommand_params : (latchCommand c s).params = s.params := rfl
@[simp] theorem latchCommand_inputs : (latchCommand c s).inputs = s.inputs := rfl
@[simp] theorem latchCommand_readLog : (latchCommand c s).readLog = s.readLog := rfl

end LatchCommand

/-- A decoded command word is a command, never a tag (R70). -/
theorem decodeCommand_isCommand {w : Word} {i : Instr} (h : decodeCommand w = .ok i) :
    i = .encode ∨ i = .decodeStd ∨ i = .decodeAlt := by
  unfold decodeCommand at h
  split at h
  · split at h
    · cases h; exact .inl rfl
    · split at h
      · cases h; exact .inr (.inl rfl)
      · split at h
        · cases h; exact .inr (.inr rfl)
        · cases h
  · cases h

/-- A legal start: BUSY, the command's phase, no working state yet (R252). -/
theorem startCommand_legal {c : Word} {i : Instr} (h : decodeCommand c = .ok i) (s : State) :
    startCommand c s
      = (((latchCommand c s).setStatus statusRunning).setPhase (phaseOf i)).setWork .none := by
  simp [startCommand, h]

/-- An illegal start ends at once (R221, R252). -/
theorem startCommand_illegal {c : Word} {e : Illegal} (h : decodeCommand c = .error e) (s : State) :
    startCommand c s = raiseError .illegalCmd (latchCommand c s) := by
  simp [startCommand, h]

end Sys2Proof.Machine
end

