-- ==== Sys2Proof/Laws/Pack.lean ====
section
/-! SUPPORT. The sizes of the packed sections (R131), where an element of a packed word lies (R120, R126), and the
two directions of packing and unpacking one word and a section of them (R130). -/

namespace Sys2Proof.Machine

@[simp] theorem chunks_length {α : Type} (n m : Nat) (xs : List α) : (chunks n m xs).length = m := by
  induction m generalizing xs with
  | zero => rfl
  | succ m ih => simp [chunks, ih]

@[simp] theorem pack2_length (lay : PackLayout) (tags : List Tag) : (pack2 lay tags).length = 64 := by simp [pack2]

@[simp] theorem pack4_length (lay : PackLayout) (q : List Slot) : (pack4 lay q).length = ceilDiv q.length 8 := by
  simp [pack4]

@[simp] theorem pack10_length (l : List Low) : (pack10 l).length = ceilDiv l.length 3 := by simp [pack10]

@[simp] theorem unpackWord_length (k : Nat) (pos : Nat → Nat) (n : Nat) (w : Word) :
    (unpackWord k pos n w).length = n := by simp [unpackWord]

theorem flatMap_unpackWord_length (k : Nat) (pos : Nat → Nat) (n : Nat) (ws : List Word) :
    (ws.flatMap (unpackWord k pos n)).length = n * ws.length := by
  induction ws with
  | nil => simp
  | cons w rest ih => rw [List.flatMap_cons, List.length_append, ih, unpackWord_length, List.length_cons]; ring

@[simp] theorem unpack2_length (lay : PackLayout) (ws : List Word) : (unpack2 lay ws).length = 16 * ws.length :=
  flatMap_unpackWord_length 2 _ 16 ws

@[simp] theorem unpack4_length (lay : PackLayout) (ws : List Word) : (unpack4 lay ws).length = 8 * ws.length :=
  flatMap_unpackWord_length 4 _ 8 ws

@[simp] theorem unpack10_length (ws : List Word) : (unpack10 ws).length = 3 * ws.length :=
  flatMap_unpackWord_length 10 _ 3 ws

/-- Positions at which `n` elements of `k` bits fit in a word without overlap. -/
structure PosOk (k : Nat) (pos : Nat → Nat) (n : Nat) : Prop where
  bound : ∀ a < n, pos a + k ≤ 32
  disjoint : ∀ a < n, ∀ b < n, a ≠ b → pos a + k ≤ pos b ∨ pos b + k ≤ pos a

theorem pos2_ok (lay : PackLayout) : PosOk 2 (pos2 lay) 16 := by constructor <;> cases lay <;> decide
theorem pos4_ok (lay : PackLayout) : PosOk 4 (pos4 lay) 8 := by constructor <;> cases lay <;> decide
theorem pos10_ok : PosOk 10 pos10 3 := by constructor <;> decide

/-- Every bit of a word belongs to one of its 16 tags (R120). -/
theorem pos2_covers (lay : PackLayout) : ∀ b < 32, ∃ a < 16, ∃ t < 2, b = pos2 lay a + t := by
  cases lay <;> decide

/-- Every bit of a word belongs to one of its 8 slot numbers (R120). -/
theorem pos4_covers (lay : PackLayout) : ∀ b < 32, ∃ a < 8, ∃ t < 4, b = pos4 lay a + t := by
  cases lay <;> decide

/-- A bit of one shifted element, inside its own place or inside a place that does not overlap it. -/
theorem shifted_bit {k : Nat} (e : BitVec k) (p q t : Nat) (ht : t < k) (hq : q + k ≤ 32)
    (h : p = q ∨ p + k ≤ q ∨ q + k ≤ p) :
    (e.setWidth 32 <<< p).getLsbD (q + t) = (decide (p = q) && e.getLsbD t) := by
  rw [BitVec.getLsbD_shiftLeft, BitVec.getLsbD_setWidth]
  rcases h with rfl | h | h
  · simp [show p + t < 32 by omega, show t < 32 by omega]
  · have : e.getLsbD (q + t - p) = false := BitVec.getLsbD_of_ge _ _ (by omega)
    simp [this, show p ≠ q by omega]
  · simp [show q + t < p by omega, show p ≠ q by omega]

/-- Bit `t` of the element at position `a` of a packed word. -/
theorem packWordFrom_bit {k n : Nat} {pos : Nat → Nat} (ho : PosOk k pos n) (hk : k ≤ 32) (es : List (BitVec k))
    (j : Nat) (hj : j + es.length ≤ n) (a t : Nat) (ha : a < n) (ht : t < k) :
    (packWordFrom pos j es).getLsbD (pos a + t) = (if j ≤ a then (es[a - j]?.getD 0).getLsbD t else false) := by
  induction es generalizing j with
  | nil => simp [packWordFrom]
  | cons e rest ih =>
    simp only [List.length_cons] at hj
    rw [packWordFrom, BitVec.getLsbD_or, ih (j + 1) (by omega)]
    have hb := ho.bound a ha
    by_cases hja : j = a
    · subst hja
      rw [shifted_bit e _ _ t ht hb (.inl rfl)]
      simp [show ¬ j + 1 ≤ j by omega]
    · have hd := ho.disjoint j (by omega) a ha hja
      rw [shifted_bit e _ _ t ht hb (.inr hd)]
      have hne : pos j ≠ pos a := by omega
      rcases Nat.lt_or_ge a j with h | h
      · simp [hne, show ¬ j + 1 ≤ a by omega, show ¬ j ≤ a by omega]
      · have : a - j = (a - (j + 1)) + 1 := by omega
        simp [hne, show j + 1 ≤ a by omega, show j ≤ a by omega, this]

/-- Element `a` of a packed word; the elements it was not given are 0. -/
theorem packWordFrom_element {k n : Nat} {pos : Nat → Nat} (ho : PosOk k pos n) (hk : k ≤ 32) (es : List (BitVec k))
    (hj : es.length ≤ n) (a : Nat) (ha : a < n) :
    (packWordFrom pos 0 es).extractLsb' (pos a) k = es[a]?.getD 0 := by
  apply BitVec.eq_of_getLsbD_eq
  intro t ht
  rw [BitVec.getLsbD_extractLsb', packWordFrom_bit ho hk es 0 (by omega) a t ha ht]
  simp [ht]

/-- Unpacking a packed word gives its elements back. -/
theorem unpackWord_packWordFrom {k n : Nat} {pos : Nat → Nat} (ho : PosOk k pos n) (hk : k ≤ 32)
    (es : List (BitVec k)) (hj : es.length = n) : unpackWord k pos n (packWordFrom pos 0 es) = es := by
  apply List.ext_getElem?
  intro i
  by_cases hi : i < n
  · simp [unpackWord, hi, packWordFrom_element ho hk es (by omega) i hi, show i < es.length by omega]
  · simp [unpackWord, hi, show es.length ≤ i by omega]

/-- Packing the elements of a word gives the word back, where they cover it. -/
theorem packWordFrom_unpackWord {k n : Nat} {pos : Nat → Nat} (ho : PosOk k pos n) (hk : k ≤ 32)
    (hc : ∀ b < 32, ∃ a < n, ∃ t < k, b = pos a + t) (w : Word) :
    packWordFrom pos 0 (unpackWord k pos n w) = w := by
  apply BitVec.eq_of_getLsbD_eq
  intro b hb
  obtain ⟨a, ha, t, ht, rfl⟩ := hc b hb
  rw [packWordFrom_bit ho hk _ 0 (by simp) a t ha ht]
  simp [unpackWord, ha, ht]

/-- Group `w` of a sequence. -/
theorem chunks_getElem? {α : Type} (n m : Nat) (xs : List α) (w : Nat) (hw : w < m) :
    (chunks n m xs)[w]? = some ((xs.drop (n * w)).take n) := by
  induction m generalizing xs w with
  | zero => omega
  | succ m ih =>
    cases w with
    | zero => simp [chunks]
    | succ w => rw [chunks, List.getElem?_cons_succ, ih _ _ (by omega), List.drop_drop]; congr 3; ring

/-- Unpacking a section packed from whole groups gives the elements back. -/
theorem unpack_packed_chunks {k n : Nat} {pos : Nat → Nat} (ho : PosOk k pos n) (hk : k ≤ 32) (m : Nat)
    (xs : List (BitVec k)) (h : xs.length = n * m) :
    ((chunks n m xs).map (packWordFrom pos 0)).flatMap (unpackWord k pos n) = xs := by
  induction m generalizing xs with
  | zero => simp at h; simp [chunks, h]
  | succ m ih =>
    have h' : xs.length = n * m + n := by rw [h]; ring
    rw [chunks, List.map_cons, List.flatMap_cons, unpackWord_packWordFrom ho hk _ (by simp [h']),
      ih _ (by simp [h']), List.take_append_drop]

/-- Packing the elements of a section gives the section back. -/
theorem pack_unpacked_words {k n : Nat} {pos : Nat → Nat} (ho : PosOk k pos n) (hk : k ≤ 32)
    (hc : ∀ b < 32, ∃ a < n, ∃ t < k, b = pos a + t) (ws : List Word) :
    (chunks n ws.length (ws.flatMap (unpackWord k pos n))).map (packWordFrom pos 0) = ws := by
  induction ws with
  | nil => simp [chunks]
  | cons w rest ih =>
    rw [List.length_cons, chunks, List.flatMap_cons, List.map_cons, List.take_left' (unpackWord_length k pos n w),
      List.drop_left' (unpackWord_length k pos n w), ih, packWordFrom_unpackWord ho hk hc]

theorem padTo_length {k : Nat} (t : Nat) (xs : List (BitVec k)) (h : xs.length ≤ t) : (padTo t xs).length = t := by
  simp [padTo]
  omega

end Sys2Proof.Machine
end

