-- ==== Sys2Proof/Laws/Decoder.lean ====
section
/-! SUPPORT. What each tag, a decode's set-up and a decode's end can do. -/

namespace Sys2Proof.Machine

/-- One tag: the state a completed tag leaves, from the dictionary and working state it leaves. -/
def afterTag (s : State) (d : Dict) (w : DecWork) : State := (s.setDict d).setWork (.dec w)

/-- ZERO's one outcome (R193). -/
theorem execTagZero_dec {s : State} {w : DecWork} (h : s.work = .dec w) :
    execTagZero s = .next (afterTag s s.dict (emitWord 0 w)) := by
  simp only [execTagZero, h]; rfl

/-- EXACT's two outcomes (R194, R197). -/
theorem execTagExact_dec {s : State} {w : DecWork} (h : s.work = .dec w) :
    (w.Q[w.cq]? = none ∧ execTagExact s = .next (raiseError .formatUnderflow s)) ∨
    (∃ q, w.Q[w.cq]? = some q ∧ execTagExact s
      = .next (afterTag s s.dict (emitWord (dictWord s.dict q) { w with cq := w.cq + 1 }))) := by
  simp only [execTagExact, h, streamNext]
  cases hq : w.Q[w.cq]? with
  | none => exact .inl ⟨rfl, rfl⟩
  | some q => exact .inr ⟨q, rfl, rfl⟩

/-- PARTIAL's two outcomes (R195, R197). -/
theorem execTagPartial_dec {s : State} {w : DecWork} (h : s.work = .dec w) :
    ((w.Q[w.cq]? = none ∨ w.L[w.cl]? = none)
      ∧ execTagPartial s = .next (raiseError .formatUnderflow s)) ∨
    (∃ q lb, w.Q[w.cq]? = some q ∧ w.L[w.cl]? = some lb ∧ execTagPartial s
      = .next (afterTag s (dictStore s.dict q (rebuildWord (dictWord s.dict q) lb))
          (emitWord (rebuildWord (dictWord s.dict q) lb) { w with cq := w.cq + 1, cl := w.cl + 1 }))) := by
  simp only [execTagPartial, h, streamNext]
  cases hq : w.Q[w.cq]? with
  | none => exact .inl ⟨.inl rfl, rfl⟩
  | some q =>
    cases hl : w.L[w.cl]? with
    | none => exact .inl ⟨.inr rfl, rfl⟩
    | some lb => exact .inr ⟨q, lb, rfl, rfl, rfl⟩

/-- MISS's two outcomes (R196, R197). -/
theorem execTagMiss_dec {s : State} {w : DecWork} (h : s.work = .dec w) :
    (w.F[w.cf]? = none ∧ execTagMiss s = .next (raiseError .formatUnderflow s)) ∨
    (∃ v, w.F[w.cf]? = some v ∧ execTagMiss s
      = .next (afterTag s (dictStore s.dict (hashSlot s.hashTable v) v)
          (emitWord v { w with cf := w.cf + 1 }))) := by
  simp only [execTagMiss, h, streamNext]
  cases hf : w.F[w.cf]? with
  | none => exact .inl ⟨rfl, rfl⟩
  | some v => exact .inr ⟨v, rfl, rfl⟩

/-- A step that answers: the tag at `t`, and the meaning its code selects (R192). -/
theorem decStep_dec {s : State} {w : DecWork} {tag : Tag} (h : s.work = .dec w) (ht : w.tags[w.t]? = some tag) :
    decStep s = if tag = codeZero then execTagZero s else if tag = codeExact then execTagExact s
      else if tag = codePartial then execTagPartial s else execTagMiss s := by
  simp [decStep, h, ht]

/-- Nothing of the walk happens once the command has ended. -/
theorem decLoop_ended {s : State} (h : s.work = .none) (n : Nat) : decLoop n s = .next s := by
  cases n <;> simp [decLoop, h]

/-- A decode's end: residue, or the page committed (R198, R199). -/
theorem decEnd_dec {s : State} {w : DecWork} (h : s.work = .dec w) :
    decEnd s = if hasResidue w then .next (raiseError .formatResidue s) else endOk w.out 4096 s := by
  by_cases hr : hasResidue w = true <;> simp [decEnd, h, hr]

/-- A decode's set-up, if it answers: an input or header error, or a fresh dictionary and the unpacked streams
(R180 to R191). -/
theorem decBegin_eq_next {hw : Nat} {s t : State} (h : decBegin hw s = .next t) :
    (s.params.inCap < s.inLen.toNat ∧ t = raiseError .inputError s) ∨
    (s.inLen.toNat ≤ s.params.inCap ∧ s.inLen.toNat < 4 * hw ∧ t = raiseError .formatHeader s) ∨
    (s.inLen.toNat ≤ s.params.inCap ∧ 4 * hw ≤ s.inLen.toNat ∧ ∃ q l e, readHeader hw s = .next (q, l, e) ∧
      ((headerBad hw (inWords s) (q, l, e) ∧ t = raiseError .formatHeader s) ∨
       (¬ headerBad hw (inWords s) (q, l, e) ∧ ∃ w, unpackStreams hw (q, l, e) s = .next w
          ∧ t = (dictInit s).setWork (.dec w)))) := by
  unfold decBegin at h
  split at h
  · rename_i hc
    cases h
    exact .inl ⟨hc, rfl⟩
  · rename_i hc
    split at h
    · rename_i hs
      cases h
      exact .inr (.inl ⟨by omega, hs, rfl⟩)
    · rename_i hs
      obtain ⟨⟨q, l, e⟩, hr, ht⟩ := andThen_eq_next.1 h
      refine .inr (.inr ⟨by omega, by omega, q, l, e, hr, ?_⟩)
      split at ht
      · rename_i hb
        cases ht
        exact .inl ⟨hb, rfl⟩
      · rename_i hb
        obtain ⟨w, hw', ht⟩ := andThen_eq_next.1 ht
        cases ht
        exact .inr ⟨hb, w, hw', rfl⟩

end Sys2Proof.Machine
end

