-- ==== Sys2Proof/Laws/Encoder.lean ====
section
/-! SUPPORT. What one encoder element, one encoder step and ENCODE's two ends can do. -/

namespace Sys2Proof.Machine

/-- The four outcomes of classifying a word, each with its guard (R154 to R158). -/
theorem encElement_cases (table : HashTable) (v : Word) (d : Dict) (w : EncWork) :
    (v = dictWord d (hashSlot table v)
      ∧ encElement table v (d, w) = (d, encExact (hashSlot table v) w)) ∨
    (v ≠ dictWord d (hashSlot table v) ∧ v = 0 ∧ encElement table v (d, w) = (d, encZero w)) ∨
    (v ≠ dictWord d (hashSlot table v) ∧ v ≠ 0 ∧ highBits v = highBits (dictWord d (hashSlot table v))
      ∧ encElement table v (d, w)
        = (dictStore d (hashSlot table v) v, encPartial (hashSlot table v) v w)) ∨
    (v ≠ dictWord d (hashSlot table v) ∧ v ≠ 0 ∧ highBits v ≠ highBits (dictWord d (hashSlot table v))
      ∧ encElement table v (d, w) = (dictStore d (hashSlot table v) v, encMiss v w)) := by
  have hdef : encElement table v (d, w)
      = if v = dictWord d (hashSlot table v) then (d, encExact (hashSlot table v) w)
        else if v = 0 then (d, encZero w)
        else if highBits v = highBits (dictWord d (hashSlot table v)) then
          (dictStore d (hashSlot table v) v, encPartial (hashSlot table v) v w)
        else (dictStore d (hashSlot table v) v, encMiss v w) := rfl
  by_cases h1 : v = dictWord d (hashSlot table v)
  · exact .inl ⟨h1, hdef.trans (if_pos h1)⟩
  · have e1 := hdef.trans (if_neg h1)
    by_cases h2 : v = 0
    · exact .inr (.inl ⟨h1, h2, e1.trans (if_pos h2)⟩)
    · have e2 := e1.trans (if_neg h2)
      by_cases h3 : highBits v = highBits (dictWord d (hashSlot table v))
      · exact .inr (.inr (.inl ⟨h1, h2, h3, e2.trans (if_pos h3)⟩))
      · exact .inr (.inr (.inr ⟨h1, h2, h3, e2.trans (if_neg h3)⟩))

/-- Every element moves the program counter by one and appends one tag (R31, R153). -/
theorem encElement_pc (table : HashTable) (v : Word) (p : Dict × EncWork) :
    (encElement table v p).2.i = p.2.i + 1 ∧ (encElement table v p).2.tags.length = p.2.tags.length + 1 := by
  obtain ⟨d, w⟩ := p
  rcases encElement_cases table v d w with ⟨-, h⟩ | ⟨-, -, h⟩ | ⟨-, -, -, h⟩ | ⟨-, -, -, h⟩ <;>
    simp [h, encExact, encZero, encPartial, encMiss]

/-- An encoder step that answers reads one input word and classifies it (R153). -/
theorem encStep_eq_next {s t : State} : encStep s = .next t ↔
    ∃ w v, s.work = .enc w ∧ le32 s w.i = .next v ∧
      t = (s.setDict (encElement s.hashTable v (s.dict, w)).1).setWork
        (.enc (encElement s.hashTable v (s.dict, w)).2) := by
  unfold encStep
  cases h : s.work with
  | none => simp
  | dec w => simp
  | enc w =>
    constructor
    · intro he
      obtain ⟨v, hv, ht⟩ := andThen_eq_next.1 he
      cases ht
      exact ⟨w, v, rfl, hv, rfl⟩
    · rintro ⟨w', v, hw, hv, rfl⟩
      cases hw
      exact andThen_eq_next.2 ⟨v, hv, rfl⟩

/-- ENCODE's start: the length error, or a fresh dictionary and empty streams (R151, R152). -/
theorem encBegin_cases (s : State) :
    ((s.params.inCap < s.inLen.toNat ∨ s.inLen.toNat ≠ 4096) ∧ encBegin s = .next (raiseError .inputError s)) ∨
    (s.inLen.toNat ≤ s.params.inCap ∧ s.inLen.toNat = 4096
      ∧ encBegin s = .next ((dictInit s).setWork (.enc encWorkInit))) := by
  by_cases h : s.params.inCap < s.inLen.toNat ∨ s.inLen.toNat ≠ 4096
  · exact .inl ⟨h, if_pos h⟩
  · push Not at h
    exact .inr ⟨h.1, h.2, if_neg (by push Not; exact h)⟩

/-- ENCODE's end commits the buffer and ends without error (R162, R228). -/
theorem encEnd_enc {s : State} {w : EncWork} (h : s.work = .enc w) :
    encEnd s = endOk (bufferWords 4 s.params.packLayout w.tags w.Q w.L w.F)
      (4 * bufferLength 4 w.Q w.L w.F) s := by
  simp [encEnd, h]

/-- The words of a buffer number what its header says (R77, R162). -/
theorem bufferWords_length (hw : Nat) (hhw : hw = 3 ∨ hw = 4) (lay : PackLayout) (tags : List Tag) (Q : List Slot)
    (L : List Low) (F : List Word) : (bufferWords hw lay tags Q L F).length = bufferLength hw Q L F := by
  rcases hhw with rfl | rfl <;>
    simp [bufferWords, bufferLength, headerWords, sectionStarts, Config.tagAreaWords] <;> omega

end Sys2Proof.Machine
end

