-- ==== Sys2Proof/Laws/Step.lean ====
section
/-! SUPPORT. Whose turn a step is, and what the block's turn is by its phase and working state. -/

namespace Sys2Proof.Machine

/-- The five kinds of turn, by the head of `inputs` (log 1). -/
theorem step_cases (s : State) :
    (s.inputs = [] ∧ step s = blockTurn s) ∨
    (∃ rest, s.inputs = .tick :: rest ∧ step s = blockUnit (s.setInputs rest)) ∨
    (∃ rest, s.inputs = .poll :: rest ∧ step s = pollRound rest s) ∨
    (∃ a rest, s.inputs = .access a :: rest ∧ step s = hostAccess a (s.setInputs rest)) ∨
    (∃ rest, s.inputs = .reset :: rest ∧ step s = .next (hardReset (s.setInputs rest))) := by
  unfold step turn
  rcases h : s.inputs with _ | ⟨a | _ | _ | _, rest⟩ <;> simp

/-- Nothing is fetched and nothing is done while the block is IDLE (R238). -/
theorem blockTurn_idle {s : State} (h : s.phase = .idle) : blockTurn s = .next s := by
  simp [blockTurn, fetch, internalWork, h]

theorem blockUnit_idle {s : State} (h : s.phase = .idle) : blockUnit s = .next s := by
  simp [blockUnit, fetch, internalWork, h]

/-- A started command is fetched from CMD (R252). -/
theorem fetch_started {s : State} {i : Instr} (hp : s.phase ≠ .idle) (hw : s.work = .none)
    (hd : decodeCommand s.cmd = .ok i) : fetch s = some i := by
  unfold fetch
  cases h : s.phase with
  | idle => exact absurd h hp
  | encRun => simp [hw, hd, Except.toOption]
  | decRun => simp [hw, hd, Except.toOption]

/-- A running decode fetches the tag at `t` (R192). -/
theorem fetch_tag {s : State} {w : DecWork} {tag : Tag} (hp : s.phase ≠ .idle) (hw : s.work = .dec w)
    (ht : w.t < 1024) (hg : w.tags[w.t]? = some tag) : fetch s = some (decodeTag tag) := by
  unfold fetch
  cases h : s.phase with
  | idle => exact absurd h hp
  | encRun => simp [hw, ht, hg]
  | decRun => simp [hw, ht, hg]

/-- ENCODE fetches nothing in its loop: its elements are internal work (R153). -/
theorem fetch_enc {s : State} {w : EncWork} (hw : s.work = .enc w) : fetch s = none := by
  unfold fetch
  cases h : s.phase <;> simp [hw]

end Sys2Proof.Machine
end

