-- ==== Sys2Proof/Laws/Commands.lean ====
section
/-! SUPPORT. The three commands as one equation each: what they read, and the state they end in as a function of the
words read (R150, R182). -/

namespace Sys2Proof.Machine

/-- `s` with the dictionary and the encoder's working state of `p`. -/
def afterEnc (s : State) (p : Dict × EncWork) : State := (s.setDict p.1).setWork (.enc p.2)

/-- The encoder's elements in order from any dictionary and working state; `encodeWords` is the fresh start. -/
def encodeFrom (table : HashTable) (p : Dict × EncWork) (page : List Word) : Dict × EncWork :=
  page.foldl (fun p v => encElement table v p) p

theorem encodeFrom_cons (table : HashTable) (p : Dict × EncWork) (v : Word) (page : List Word) :
    encodeFrom table p (v :: page) = encodeFrom table (encElement table v p) page := rfl

theorem encodeWords_eq (table : HashTable) (page : List Word) :
    encodeWords table page = encodeFrom table (sentinelDict, encWorkInit) page := rfl

/-- `n` turns of ENCODE's loop read `n` words and classify them in order (R153). -/
theorem encLoop_eq (n : Nat) (s : State) (p : Dict × EncWork) :
    encLoop n (afterEnc s p) =
      andThen (readWords s p.2.i n) fun ws => .next (afterEnc s (encodeFrom s.hashTable p ws)) := by
  induction n generalizing p with
  | zero => rfl
  | succ n ih =>
    have hs : encStep (afterEnc s p)
        = andThen (le32 s p.2.i) fun v => .next (afterEnc s (encElement s.hashTable v p)) := rfl
    rw [readWords, andThen_assoc]
    show andThen (encStep (afterEnc s p)) (encLoop n) = _
    rw [hs, andThen_assoc]
    refine andThen_congr fun v _ => ?_
    rw [andThen_next, andThen_assoc, ih, (encElement_pc s.hashTable v p).1]
    rfl

/-- The end of a whole ENCODE of a page (R162, R228). -/
def encodeEnd (s : State) (page : List Word) : Result State :=
  endOk (encodedBuffer s.hashTable s.params.packLayout page)
    (4 * (encodedBuffer s.hashTable s.params.packLayout page).length) (afterEnc s (encodeWords s.hashTable page))

/-- ENCODE: the length error, or the 1024 words read and encoded (R150 to R162). -/
theorem execEncode_eq (s : State) : execEncode s =
    if s.params.inCap < s.inLen.toNat ∨ s.inLen.toNat ≠ 4096 then .next (raiseError .inputError s)
    else andThen (readWords s 0 1024) (encodeEnd s) := by
  unfold execEncode
  split
  · rename_i h
    rw [show encBegin s = .next (raiseError .inputError s) from if_pos h, andThen_next]
    rfl
  · rename_i h
    rw [show encBegin s = .next (afterEnc s (sentinelDict, encWorkInit)) from if_neg h, andThen_next,
      show Config.pageWords = 1024 from rfl, encLoop_eq, andThen_assoc]
    refine andThen_congr fun ws _ => ?_
    rw [andThen_next, encEnd_enc (w := (encodeWords s.hashTable ws).2) rfl]
    have hb := bufferWords_length 4 (.inr rfl) s.params.packLayout (encodeWords s.hashTable ws).2.tags
      (encodeWords s.hashTable ws).2.Q (encodeWords s.hashTable ws).2.L (encodeWords s.hashTable ws).2.F
    unfold encodeEnd encodedBuffer
    simp only [hb]
    rfl

theorem tag_cases (tag : Tag) : tag = codeZero ∨ tag = codePartial ∨ tag = codeMiss ∨ tag = codeExact := by
  revert tag
  decide

/-- DEC_STEP runs the decoded tag (R192). -/
theorem decStep_exec {s : State} {w : DecWork} {tag : Tag} (h : s.work = .dec w) (ht : w.tags[w.t]? = some tag) :
    decStep s = exec (decodeTag tag) s := by
  rw [decStep_dec h ht]
  rcases tag_cases tag with rfl | rfl | rfl | rfl <;> rfl

/-- One tag on a dictionary and a working state: whether a stream ran out, and what the tag leaves (R193 to R197). -/
def tagPure (table : HashTable) (d : Dict) (w : DecWork) : Bool × Dict × DecWork :=
  match w.tags[w.t]? with
  | none => (false, d, w)
  | some tag =>
    if tag = codeZero then (false, d, emitWord 0 w)
    else if tag = codeExact then
      match w.Q[w.cq]? with
      | none => (true, d, w)
      | some q => (false, d, emitWord (dictWord d q) { w with cq := w.cq + 1 })
    else if tag = codePartial then
      match w.Q[w.cq]?, w.L[w.cl]? with
      | some q, some lb =>
        (false, dictStore d q (rebuildWord (dictWord d q) lb),
          emitWord (rebuildWord (dictWord d q) lb) { w with cq := w.cq + 1, cl := w.cl + 1 })
      | _, _ => (true, d, w)
    else match w.F[w.cf]? with
      | none => (true, d, w)
      | some v => (false, dictStore d (hashSlot table v) v, emitWord v { w with cf := w.cf + 1 })

/-- `n` tags, up to the first that runs a stream out. -/
def walkPure (table : HashTable) : Nat → Dict → DecWork → Bool × Dict × DecWork
  | 0, d, w => (false, d, w)
  | n + 1, d, w =>
    if (tagPure table d w).1 then tagPure table d w
    else walkPure table n (tagPure table d w).2.1 (tagPure table d w).2.2

/-- The state a tag or a walk leaves: FORMAT_UNDERFLOW where a stream ran out (R197). -/
def walkState (s : State) (r : Bool × Dict × DecWork) : State :=
  if r.1 then raiseError .formatUnderflow (afterTag s r.2.1 r.2.2) else afterTag s r.2.1 r.2.2

theorem decStep_eq {s : State} {d : Dict} {w : DecWork} (ht : w.t < w.tags.length) :
    decStep (afterTag s d w) = .next (walkState s (tagPure s.hashTable d w)) := by
  have hg : w.tags[w.t]? = some (w.tags[w.t]) := List.getElem?_eq_getElem ht
  have hw : (afterTag s d w).work = .dec w := rfl
  generalize w.tags[w.t] = tag at hg
  rw [decStep_dec hw hg]
  unfold tagPure
  rw [hg]
  simp only
  split
  · rw [execTagZero_dec hw]; rfl
  split
  · rcases execTagExact_dec hw with ⟨h, e⟩ | ⟨q, h, e⟩ <;> rw [e, h] <;> rfl
  split
  · rcases execTagPartial_dec hw with ⟨h, e⟩ | ⟨q, lb, h, h2, e⟩
    · rw [e]
      split
      · simp_all
      · rfl
    · rw [e, h, h2]; rfl
  · rcases execTagMiss_dec hw with ⟨h, e⟩ | ⟨q, h, e⟩ <;> rw [e, h] <;> rfl

/-- A tag that does not underflow moves to the next tag and emits one word (R192). -/
theorem tagPure_advances {table : HashTable} {d : Dict} {w : DecWork} (ht : w.t < w.tags.length)
    (h : (tagPure table d w).1 = false) :
    (tagPure table d w).2.2.t = w.t + 1 ∧ (tagPure table d w).2.2.tags = w.tags ∧
      (tagPure table d w).2.2.out.length = w.out.length + 1 := by
  have hg : w.tags[w.t]? = some (w.tags[w.t]) := List.getElem?_eq_getElem ht
  unfold tagPure at h ⊢
  rw [hg] at h ⊢
  simp only at h ⊢
  split at h
  · rename_i h0; simp only [h0, if_true]; simp [emitWord]
  rename_i h0
  rw [if_neg h0]
  split at h
  · rename_i h1; rw [if_pos h1]; cases hq : w.Q[w.cq]? <;> simp [hq, emitWord] at h ⊢
  rename_i h1
  rw [if_neg h1]
  split at h
  · rename_i h2
    rw [if_pos h2]
    cases hq : w.Q[w.cq]? <;> cases hl : w.L[w.cl]? <;> simp [hq, hl, emitWord] at h ⊢
  rename_i h2
  rw [if_neg h2]
  cases hq : w.F[w.cf]? <;> simp [hq, emitWord] at h ⊢

theorem walkState_continues {s : State} {r : Bool × Dict × DecWork} (h : r.1 = false) :
    walkState s r = afterTag s r.2.1 r.2.2 := by simp [walkState, h]

/-- The loop of a decode is the walk (R192). -/
theorem decLoop_eq (n : Nat) (s : State) (d : Dict) (w : DecWork) (h : w.t + n ≤ w.tags.length) :
    decLoop n (afterTag s d w) = .next (walkState s (walkPure s.hashTable n d w)) := by
  induction n generalizing d w with
  | zero => rfl
  | succ n ih =>
    rw [decLoop]
    show andThen (decStep (afterTag s d w)) (decLoop n) = _
    rw [decStep_eq (by omega), andThen_next, walkPure]
    cases hp : (tagPure s.hashTable d w).1 with
    | true => rw [if_pos rfl, decLoop_ended (by rw [walkState, hp, if_pos rfl]; rfl)]
    | false =>
      obtain ⟨a1, a2, _⟩ := tagPure_advances (by omega) hp
      rw [walkState_continues hp, ih _ _ (by rw [a1, a2]; omega)]
      rfl

/-- A walk that does not underflow runs all its tags, each emitting one word. -/
theorem walkPure_advances {table : HashTable} (n : Nat) (d : Dict) (w : DecWork) (h : w.t + n ≤ w.tags.length)
    (hf : (walkPure table n d w).1 = false) :
    (walkPure table n d w).2.2.t = w.t + n ∧ (walkPure table n d w).2.2.out.length = w.out.length + n := by
  induction n generalizing d w with
  | zero => exact ⟨rfl, rfl⟩
  | succ n ih =>
    rw [walkPure] at hf ⊢
    cases hp : (tagPure table d w).1 with
    | true => rw [hp, if_pos rfl, hp] at hf; cases hf
    | false =>
      obtain ⟨a1, a2, a3⟩ := tagPure_advances (by omega) hp
      rw [hp, if_neg (by simp)] at hf
      rw [if_neg (by simp)]
      obtain ⟨b1, b2⟩ := ih _ _ (by rw [a1, a2]; omega) hf
      exact ⟨by omega, by omega⟩

/-- The end of a decode once its streams are unpacked: underflow, residue, or the page (R197 to R199). -/
def decodeEnd (s : State) (w : DecWork) : Result State :=
  let r := walkPure s.hashTable 1024 sentinelDict w
  if r.1 then .next (raiseError .formatUnderflow (afterTag s r.2.1 r.2.2))
  else if hasResidue r.2.2 then .next (raiseError .formatResidue (afterTag s r.2.1 r.2.2))
  else endOk r.2.2.out 4096 (afterTag s r.2.1 r.2.2)

/-- A decode whose walk runs through and leaves no residue ends well, if its words fit in OUT (R198, R199). -/
theorem decodeEnd_ok {s : State} {w w' : DecWork} {d : Dict}
    (hr : walkPure s.hashTable 1024 sentinelDict w = (false, d, w')) (hres : hasResidue w' = false)
    (hf : 4 * w'.out.length ≤ s.params.outCap) :
    decodeEnd s w = .next (endCommand .none 4096 (commitOut (afterTag s d w') w'.out)) := by
  simp only [decodeEnd, hr, hres, Bool.false_eq_true, if_false]
  exact endOk_fits (s := afterTag s d w') hf 4096

/-- Unpacking gives 1024 tags and stands at the first of them (R187, R191). -/
theorem unpackStreams_start {hw : Nat} {h : Nat × Nat × Nat} {s : State} {w : DecWork}
    (hu : unpackStreams hw h s = .next w) : w.tags.length = 1024 ∧ w.t = 0 ∧ w.out = [] := by
  unfold unpackStreams at hu
  obtain ⟨a1, b1, hu⟩ := andThen_eq_next.1 hu
  obtain ⟨a2, b2, hu⟩ := andThen_eq_next.1 hu
  obtain ⟨a3, b3, hu⟩ := andThen_eq_next.1 hu
  obtain ⟨a4, b4, hu⟩ := andThen_eq_next.1 hu
  have l1 := readWords_length b1
  cases hu
  simp [l1, Config.tagAreaWords]

/-- A decode in the order of its checks: input, short buffer, header, then the walk (R180 to R199). -/
theorem decCommand_eq (hw : Nat) (s : State) : decCommand hw s =
    if s.params.inCap < s.inLen.toNat then .next (raiseError .inputError s)
    else if s.inLen.toNat < 4 * hw then .next (raiseError .formatHeader s)
    else andThen (readHeader hw s) fun h =>
      if headerBad hw (inWords s) h then .next (raiseError .formatHeader s)
      else andThen (unpackStreams hw h s) (decodeEnd s) := by
  unfold decCommand decBegin
  split
  · rfl
  split
  · rfl
  rw [andThen_assoc]
  refine andThen_congr fun h _ => ?_
  split
  · rfl
  rw [andThen_assoc]
  refine andThen_congr fun w hu => ?_
  obtain ⟨u1, u2, u3⟩ := unpackStreams_start hu
  rw [andThen_next, show (dictInit s).setWork (.dec w) = afterTag s sentinelDict w from rfl,
    show Config.pageWords = 1024 from rfl, decLoop_eq 1024 s sentinelDict w (by omega), andThen_next]
  unfold decodeEnd walkState
  simp only
  split
  · rfl
  rw [decEnd_dec rfl]

end Sys2Proof.Machine
end

