-- ==== Sys2Proof/Laws/PerInstr.lean ====
section
/-! SUPPORT. One lemma per instruction: the fixed bits of its opcode-table row, decoded alone, give it. -/

namespace Sys2Proof.Laws.TableRow

/-- The row's bits, as the opcode table lists them: width in whole bytes and value (R70, R72). -/
def rowBits : Instr → Nat × Nat
  | .encode => (32, 0x00000001)
  | .decodeStd => (32, 0x00000002)
  | .decodeAlt => (32, 0x00000003)
  | .tagZero => (8, 0x0)
  | .tagPartial => (8, 0x1)
  | .tagMiss => (8, 0x2)
  | .tagExact => (8, 0x3)

/-- The decoder gives the instruction of its own row. -/
def Statement (i : Instr) : Prop := decodeTableWord (rowBits i).1 (rowBits i).2 = some i

theorem encode : Statement .encode := by unfold Statement; decide
theorem decodeStd : Statement .decodeStd := by unfold Statement; decide
theorem decodeAlt : Statement .decodeAlt := by unfold Statement; decide
theorem tagZero : Statement .tagZero := by unfold Statement; decide
theorem tagPartial : Statement .tagPartial := by unfold Statement; decide
theorem tagMiss : Statement .tagMiss := by unfold Statement; decide
theorem tagExact : Statement .tagExact := by unfold Statement; decide

end Sys2Proof.Laws.TableRow
end

