-- ==== Sys2Proof/Tests/Slice0.lean ====
section
/-! SUPPORT. Small tests of the model, each result taken from spec/95_test_vectors.md or worked out by hand from the
rule named, and a witness of the hypotheses of every statement that has some. -/

namespace Sys2Proof.Tests

open Sys2Proof Sys2Proof.Machine

/-! ### Helpers -/

/-- HT_TEST of spec/95_test_vectors.md. -/
def htTest : HashTable :=
  ⟨⟨(List.range 256).map fun k => if k = 0 then 0 else BitVec.ofNat 4 (k % 15 + 1)⟩, by simp⟩

def testParams : Params := { packLayout := .interleaved, inCap := 8192, outCap := 8192, base := 0x10000 }

/-- A block with concrete parameters, right after reset. -/
def idle : State := { State.reset with hashTable := htTest, params := testParams }

/-- `idle` with words in IN from offset 0 and their length in IN_LEN. -/
def withInput (ws : List Word) : State :=
  (idle.setInMem (runCells 0 (wordsBytes ws))).setInLen (BitVec.ofNat 32 (4 * ws.length))

/-- A decode at its first tag, with these tags and streams. -/
def decodeWork (tags : List Tag) (F : List Word) (Q : List Slot) (L : List Low) : DecWork :=
  { hw := 4, qposStart := 0, lowStart := 0, lowEnd := 0, tags := tags, F := F, Q := Q, L := L
    cf := 0, cq := 0, cl := 0, t := 0, out := [] }

/-- A running DECODE_STD with this dictionary word in slot 0 and these streams. -/
def decoding (d0 : Word) (tags : List Tag) (F : List Word) (Q : List Slot) (L : List Low) : State :=
  ((startCommand 2 idle).setDict (dictStore sentinelDict 0 d0)).setWork (.dec (decodeWork tags F Q L))

/-- A running ENCODE at word 0 of these, under a tick, with this dictionary word in slot 0. -/
def encoding (d0 : Word) (ws : List Word) : State :=
  (((startCommand 1 (withInput ws)).setDict (dictStore sentinelDict 0 d0)).setWork (.enc encWorkInit)).setInputs
    [.tick]

/-- `idle` with one host access pending, at an offset from BASE. -/
def hostWrite (off size : Nat) (v : Word) : State := idle.setInputs [.access (.write (0x10000 + off) size v)]
def hostRead (off size : Nat) : State := idle.setInputs [.access (.read (0x10000 + off) size)]

/-- The same while a DECODE_STD runs. -/
def busyWrite (off size : Nat) (v : Word) : State :=
  (startCommand 2 idle).setInputs [.access (.write (0x10000 + off) size v)]
def busyRead (off size : Nat) : State := (startCommand 2 idle).setInputs [.access (.read (0x10000 + off) size)]

def statusOf : Result State → Option Word
  | .next s => some s.status
  | .fault _ => none
  | .refused _ => none

def readOf : Result State → Option Word
  | .next s => s.readLog.head?
  | .fault _ => none
  | .refused _ => none

/-- The last word a tag emitted and the word then in slot 0. -/
def emitted : Result State → Option (Word × Word)
  | .next s =>
    match s.work with
    | .dec w => w.out.getLast?.map fun v => (v, dictWord s.dict 0)
    | _ => none
  | .fault _ => none
  | .refused _ => none

/-- The encoder's tag, streams and slot-0 word after one element. -/
def encoded : Result State → Option (List Tag × List Slot × List Low × List Word × Word)
  | .next s =>
    match s.work with
    | .enc w => some (w.tags, w.Q, w.L, w.F, dictWord s.dict 0)
    | _ => none
  | .fault _ => none
  | .refused _ => none

/-- A bare FORMAT_HEADER, or any other code, as the status of a whole command on these input words. -/
def commandStatus (i : Instr) (ws : List Word) (len : Nat) : Option Word :=
  statusOf (exec i ((withInput ws).setInLen (BitVec.ofNat 32 len)))

/-! ### Well-formedness refuses ill-formed terms -/

theorem test_wellFormed_instr : Instr.wellFormed .encode = true ∧ Instr.wellFormed .tagExact = true := by decide
theorem test_fill_misaligned_refused : HostStmt.wellFormed (.fill 2 [0]) = false := by decide
theorem test_fill_aligned_accepted : HostStmt.wellFormed (.fill 4 [0]) = true := by decide
theorem test_dump_misaligned_refused : HostStmt.wellFormed (.dump 1 1) = false := by decide
theorem test_run_of_a_tag_refused : HostStmt.wellFormed (.run .tagMiss 4096) = false := by decide
theorem test_run_of_a_command_accepted : HostStmt.wellFormed (.run .decodeAlt 268) = true := by decide
theorem test_short_tag_program_refused : tagProgramOk [.zero, .exact 5] = false := by decide
theorem test_inCap_below_page_refused : Params.wellFormed { testParams with inCap := 4095 } = false := by decide
theorem test_inCap_above_window_refused : Params.wellFormed { testParams with inCap := 8193 } = false := by decide
theorem test_outCap_below_minimum_refused : Params.wellFormed { testParams with outCap := 4367 } = false := by decide
theorem test_outCap_above_window_refused : Params.wellFormed { testParams with outCap := 8193 } = false := by decide
theorem test_params_accepted : Params.wellFormed testParams = true := by decide
theorem test_table_of_zeros_refused : hashTableOk (Vector.replicate 256 0) = false := by decide +kernel
theorem test_table_without_zero_refused : hashTableOk (Vector.replicate 256 1) = false := by decide +kernel
theorem test_htTest_accepted : hashTableOk htTest = true := by
  simp only [hashTableOk, decide_eq_true_eq]
  intro k
  have he : htTest[k] = if k.val = 0 then 0 else BitVec.ofNat 4 (k.val % 15 + 1) := by simp [htTest]
  rw [he]
  split
  · simp [*]
  · rename_i hk
    refine ⟨fun h => ?_, fun h => absurd h hk⟩
    have := congrArg BitVec.toNat h
    simp at this
    omega

/-! ### Decoding, from the encodings of R70 and R72 -/

theorem test_decode_encode : decodeCommandBytes [0b00000001, 0, 0, 0] = .ok .encode := by decide
theorem test_decode_decodeStd : decodeCommandBytes [0b00000010, 0, 0, 0] = .ok .decodeStd := by decide
theorem test_decode_decodeAlt : decodeCommandBytes [0b00000011, 0, 0, 0] = .ok .decodeAlt := by decide
theorem test_decode_tagZero : decode (.tag 0b00) = .ok .tagZero := by decide
theorem test_decode_tagPartial : decode (.tag 0b01) = .ok .tagPartial := by decide
theorem test_decode_tagMiss : decode (.tag 0b10) = .ok .tagMiss := by decide
theorem test_decode_tagExact : decode (.tag 0b11) = .ok .tagExact := by decide

/-- V-CMD-4 to V-CMD-6: OP 0, 4 and 15. -/
theorem test_decode_unassigned : decodeCommand 0x00000000 = .error .unassignedOp ∧
    decodeCommand 0x00000004 = .error .unassignedOp ∧ decodeCommand 0x0000000F = .error .unassignedOp := by decide

/-- V-CMD-7 and V-CMD-8: a reserved bit set beside a legal OP. -/
theorem test_decode_reserved : decodeCommand 0x00000011 = .error .reservedBits ∧
    decodeCommand 0x80000002 = .error .reservedBits := by decide
theorem test_decode_three_bytes : decodeCommandBytes [1, 0, 0] = .error .wrongLength := by decide
theorem test_decode_tag_byte_high_bit : decodeTagByte 0x04 = .error .reservedBits := by decide

/-! ### Hash, dictionary, packing and layout: the vectors of section 2 and 3 -/

/-- V-HASH-5 to V-HASH-9. -/
theorem test_hash : (hashSlot htTest 0x00080456, hashSlot htTest 0xABCDE123, hashSlot htTest 0x12345678,
    hashSlot htTest 0x0000ABCD, hashSlot htTest 0xFFFFFFFF) = (2, 1, 7, 13, 1) := by decide

/-- V-DICT-4. -/
theorem test_dict : dictLookup (dictStore sentinelDict 5 0xABCDE123) 5 = (0xABCDE123, 0x2AF378) := by decide

/-- V-PK2-5, both layouts. -/
theorem test_pack2 :
    ((pack2 .interleaved ([3, 2, 1, 3] ++ List.replicate 1020 0)).head?,
      (pack2 .sequential ([3, 2, 1, 3] ++ List.replicate 1020 0)).head?)
      = (some 0x03010203, some 0x000000DB) := by decide

/-- V-PK4-1, both layouts, and V-UP4-2. -/
theorem test_pack4 : (pack4 .interleaved [1, 2, 3, 4, 5, 6, 7, 8, 9], pack4 .sequential [1, 2, 3, 4, 5, 6, 7, 8, 9])
    = ([0x84736251, 0x00000009], [0x87654321, 0x00000009]) := by decide
theorem test_unpack4 : unpack4 .sequential [0x84736251] = [1, 5, 2, 6, 3, 7, 4, 8] := by decide

/-- V-PK10-1 and V-UP10-2. -/
theorem test_pack10 : pack10 [0x3FF, 0x001, 0x155, 0x2AA] = [0x155007FF, 0x000002AA] := by decide
theorem test_unpack10_ignores_top_bits : unpack10 [0xC0000000] = [0, 0, 0] := by decide

/-- The header bytes of V-SRC-3, offsets 0 to 15. -/
theorem test_header_bytes : wordsBytes (headerWords 4 (sectionStarts 4 1 1 0))
    = [0, 0, 0, 0, 0x45, 0, 0, 0, 0x46, 0, 0, 0, 0x46, 0, 0, 0] := by decide

/-! ### One step of each instruction -/

/-- V-ENC-10: IN_LEN 4092 and 8196 are INPUT_ERROR. -/
theorem test_encode_bad_length : (commandStatus .encode [] 4092, commandStatus .encode [] 8196)
    = (some 0x00000012, some 0x00000012) := by decide

/-- V-ENC-3, word 3: PARTIAL stores the slot, the low bits and the word. -/
theorem test_encode_partial : encoded (step (encoding 0x00040123 [0x000401FF]))
    = some ([0b01], [0], [0x1FF], [], 0x000401FF) := by decide

/-- V-DEC-7: `qpos_start` 67 under a 4-word header. -/
theorem test_decodeStd_header : commandStatus .decodeStd [0, 67, 68, 68] 272 = some 0x00000022 := by decide

/-- V-DEC-6: a buffer shorter than its header. -/
theorem test_decodeStd_short : commandStatus .decodeStd [] 12 = some 0x00000022 := by decide

/-- V-DEC-9: a standard buffer fed to DECODE_ALT. -/
theorem test_decodeAlt_header : commandStatus .decodeAlt [0, 68, 68, 68] 272 = some 0x00000022 := by decide

/-- V-DEC-13: IN_LEN above IN_CAP. -/
theorem test_decodeAlt_too_large : commandStatus .decodeAlt [] 8196 = some 0x00000012 := by decide

/-- ZERO emits 0 and leaves the dictionary (R193). -/
theorem test_tagZero : emitted (step (decoding 0x00040123 [0b00] [] [] [])) = some (0, 0x00040123) := by decide

/-- V-DEC-1, tag 2. -/
theorem test_tagPartial : emitted (step (decoding 0x00040123 [0b01] [] [0] [0x2AA]))
    = some (0x000402AA, 0x000402AA) := by decide

/-- V-DEC-3 b. -/
theorem test_tagPartial_underflow : statusOf (step (decoding 1 [0b01] [] [0] [])) = some 0x00000042 := by decide

/-- V-DEC-1, tag 4: MISS 0 stores 0 in slot 0. -/
theorem test_tagMiss : emitted (step (decoding 0x000402AA [0b10] [0x00000000] [] [])) = some (0, 0) := by decide

/-- V-DEC-3 c. -/
theorem test_tagMiss_underflow : statusOf (step (decoding 1 [0b10] [] [] [])) = some 0x00000042 := by decide

/-- V-DEC-1, tag 3: EXACT 5 emits the sentinel of the untouched slot 5. -/
theorem test_tagExact : emitted (step (decoding 0x000402AA [0b11] [] [5] [])) = some (1, 0x000402AA) := by decide

/-- V-DEC-3 a. -/
theorem test_tagExact_underflow : statusOf (step (decoding 1 [0b11] [] [] [])) = some 0x00000042 := by decide

/-- V-CMD-4: an illegal word written to CMD. -/
theorem test_illegal_command : statusOf (step (hostWrite 0x000 4 0x00000000)) = some 0x00000052 := by decide

/-- A half-word of IN reads its two bytes, the lower address in the low bits (R53). -/
theorem test_read_half_word : readOf (step { hostRead 0x2002 2 with inMem := runCells 0 [0x11, 0x22, 0x33, 0x44] })
    = some 0x00004433 := by decide

/-- The tags that an instruction placed by `withFetchWord` runs as the first after reset. -/
theorem test_withFetchWord_tags : (List.range 4).map (fun k => (emitted (step (idle.withFetchWord 8 k))).isSome)
    = [true, true, true, true] := by decide

theorem test_withFetchWord_illegal : statusOf (step (idle.withFetchWord 32 0x00000004)) = some 0x00000052 := by decide

theorem test_reset_memory_wf : Memory.wf State.reset.inMem ∧ Memory.wf State.reset.outMem := by decide

/-- RUN ENCODE, 4096 is three inputs: the length, the command word, the poll (R86). -/
theorem test_run_expansion : expandStmt 0x10000 (.run .encode 4096)
    = [.access (.write 0x10008 4 4096), .access (.write 0x10000 4 1), .poll] := by decide

/-- A tag program's operands go to the streams (V-DEC-1's first three tags). -/
theorem test_tag_program_streams :
    (([.miss 0x00040123, .exact 0, .partialWord 0 0x2AA] : List TagOp).map opTag,
      ([.miss 0x00040123, .exact 0, .partialWord 0 0x2AA] : List TagOp).flatMap opQ,
      ([.miss 0x00040123, .exact 0, .partialWord 0 0x2AA] : List TagOp).flatMap opL)
      = ([0b10, 0b11, 0b01], [0, 0], [0x2AA]) := by decide

/-! ### Full-page inputs: the all-zero page and its buffer (V-SRC-2, V-DEC-2) -/

def zeroPage : List Word := List.replicate 1024 0
def zeroOps : List TagOp := List.replicate 1024 .zero

theorem sentinel_nonzero (q : Slot) : dictWord sentinelDict q ≠ 0 := by simp

/-- ENCODE of zero words over a dictionary without zero makes ZERO tags and nothing else (R155). -/
theorem encodeFrom_zeros (table : HashTable) (d : Dict) (hd : ∀ q, dictWord d q ≠ 0) (n : Nat) (w : EncWork) :
    encodeFrom table (d, w) (List.replicate n 0)
      = (d, { w with i := w.i + n, tags := w.tags ++ List.replicate n codeZero }) := by
  induction n generalizing w with
  | zero => simp [encodeFrom]
  | succ n ih =>
    rw [List.replicate_succ, encodeFrom_cons]
    have hz : encElement table 0 (d, w) = (d, encZero w) := by
      rcases encElement_cases table 0 d w with ⟨h1, _⟩ | ⟨_, _, h⟩ | ⟨_, h2, _⟩ | ⟨_, h2, _⟩
      · exact absurd h1.symm (hd _)
      · exact h
      · exact absurd rfl h2
      · exact absurd rfl h2
    rw [hz, ih]
    simp [encZero, List.replicate_succ]
    omega

theorem zeroBuffer_length (table : HashTable) (lay : PackLayout) :
    (encodedBuffer table lay zeroPage).length = 68 := by
  unfold encodedBuffer
  simp only
  rw [bufferWords_length 4 (.inr rfl), encodeWords_eq, zeroPage, encodeFrom_zeros table _ sentinel_nonzero]
  rfl

theorem zeroTagBuffer_length (hw : Nat) (hhw : hw = 3 ∨ hw = 4) (lay : PackLayout) :
    (assembleTags hw lay zeroOps).length = hw + 64 := by
  have hnil : ∀ {β : Type} (f : TagOp → List β), f .zero = [] → ∀ n, (List.replicate n TagOp.zero).flatMap f = [] := by
    intro β f hf n
    induction n with
    | zero => rfl
    | succ n ih => rw [List.replicate_succ, List.flatMap_cons, hf, ih]; rfl
  unfold assembleTags zeroOps
  rw [bufferWords_length hw hhw, hnil opQ rfl, hnil opL rfl, hnil opF rfl]
  rcases hhw with rfl | rfl <;> rfl

theorem withInput_holds (ws : List Word) : Holds (withInput ws).inMem (wordsBytes ws) := holds_runCells _

theorem withInput_inLen (ws : List Word) (h : 4 * ws.length < 2 ^ 32) :
    (withInput ws).inLen.toNat = 4 * ws.length := by
  show (BitVec.ofNat 32 (4 * ws.length)).toNat = _
  simp
  omega

theorem withInput_readable (ws : List Word) : InReadable (withInput ws) (4 * ws.length) := by
  intro k hk
  have hk' : k < (wordsBytes ws).length := by simpa using hk
  exact ⟨(wordsBytes ws)[k], by rw [withInput_holds ws k hk', List.getElem?_eq_getElem hk']⟩

/-- A walk over ZERO tags emits zero words and moves nothing but the tag (R193). -/
theorem walkPure_zeros (table : HashTable) (d : Dict) (n : Nat) (w : DecWork) (hw : w.tags = List.replicate 1024 codeZero)
    (h : w.t + n ≤ 1024) :
    walkPure table n d w = (false, d, { w with t := w.t + n, out := w.out ++ List.replicate n 0 }) := by
  induction n generalizing w with
  | zero => simp [walkPure]
  | succ n ih =>
    have hg : w.tags[w.t]? = some codeZero := by rw [hw, List.getElem?_replicate, if_pos (by omega)]
    have ht : tagPure table d w = (false, d, emitWord 0 w) := by simp [tagPure, hg]
    rw [walkPure, ht, if_neg (by simp)]
    show walkPure table n d (emitWord 0 w) = _
    rw [ih (emitWord 0 w) hw (by simp only [emitWord]; omega)]
    simp [emitWord, List.replicate_succ]
    omega

def zeroAlt : List Word := [67, 67, 67] ++ List.replicate 64 0

/-- V-DEC-2: the all-zero page in ALT layout decodes. -/
theorem zeroAlt_decodes : ∃ t, exec .decodeAlt (withInput zeroAlt) = .next t ∧ t.status = 0x00000002 := by
  have hh := withInput_holds zeroAlt
  have hl : zeroAlt.length = 67 := rfl
  have hk : ∀ k (h : k < zeroAlt.length), le32 (withInput zeroAlt) k = .next zeroAlt[k] := fun k h => le32_of_holds hh h
  have hr : readHeader 3 (withInput zeroAlt) = .next (67, 67, 67) := by
    unfold readHeader
    rw [hk 0 (by decide), hk 1 (by decide), hk 2 (by decide)]
    rfl
  have hu : unpackStreams 3 (67, 67, 67) (withInput zeroAlt) = .next
      { decodeWork (List.replicate 1024 codeZero) [] [] [] with hw := 3, qposStart := 67, lowStart := 67, lowEnd := 67 } := by
    have htags : unpack2 .interleaved (List.replicate 64 0) = List.replicate 1024 codeZero := by decide +kernel
    have h1 : readWords (withInput zeroAlt) 3 64 = .next (List.replicate 64 0) := readWords_of_holds hh (by decide)
    have h2 : ∀ k, readWords (withInput zeroAlt) k 0 = .next [] := fun _ => rfl
    show andThen (readWords (withInput zeroAlt) 3 64) _ = _
    rw [h1]
    show Host.Outcome.next _ = _
    rw [← htags]
    rfl
  have he := decodeEnd_ok (s := withInput zeroAlt) (walkPure_zeros htTest sentinelDict 1024
    { decodeWork (List.replicate 1024 codeZero) [] [] [] with hw := 3, qposStart := 67, lowStart := 67, lowEnd := 67 }
    rfl (by decide)) rfl (by rw [List.length_append, List.length_replicate]; decide)
  refine ⟨_, (?_ : decCommand 3 (withInput zeroAlt) = _).trans he, rfl⟩
  rw [decCommand_eq, if_neg (by decide), if_neg (by decide), hr, andThen_next, if_neg (by decide), hu, andThen_next]

theorem statusOf_next {r : Result State} {v : Word} (h : statusOf r = some v) : ∃ t, r = .next t ∧ t.status = v := by
  cases r with
  | next t => exact ⟨t, rfl, by simpa [statusOf] using h⟩
  | fault e => simp [statusOf] at h
  | refused e => simp [statusOf] at h

/-! ### Witnesses: each statement's hypotheses are met together -/

theorem inv_idle : StateInv idle := by
  refine ⟨test_htTest_accepted, rfl, ⟨rfl, rfl, by decide, by decide, by decide⟩, .inl rfl, fun _ => rfl, by decide,
    ⟨List.Pairwise.nil, ?_⟩, ⟨List.Pairwise.nil, ?_⟩, ?_⟩
  · simp [idle, State.reset]
  · simp [idle, State.reset]
  · simp [WorkOk, idle, State.reset]

theorem inv_running : StateInv (startCommand 2 idle) := by
  have hd : decodeCommand 2 = .ok .decodeStd := by decide
  have hs : StatusOk statusRunning := ⟨rfl, rfl, by decide, by decide, by decide⟩
  have h := inv_idle
  rw [startCommand_legal hd]
  refine ⟨h.table, h.params, hs, .inl rfl, fun _ => rfl, by decide, h.inWindow, h.outWindow, fun _ => ?_⟩
  show (decodeCommand 2).toOption.map phaseOf = some .decRun
  rw [hd]
  rfl

theorem inv_setInputs {s : State} (h : StateInv s) (l : List Input) : StateInv (s.setInputs l) :=
  ⟨h.table, h.params, h.status, h.outLen, h.outLenZero, h.idle, h.inWindow, h.outWindow, h.work⟩

theorem witness_IllegalCommandWordEndsAtOnce :
    isBusy (hostWrite 0 4 0x00000004) = false ∧ HostWrites (hostWrite 0 4 0x00000004) 0x000 4 0x00000004 [] ∧
      decodeCommand 0x00000004 = .error .unassignedOp := by
  exact ⟨rfl, rfl, by decide⟩

theorem witness_IllegalCommandWordEndsAtOnce_reserved :
    isBusy (hostWrite 0 4 0x00000011) = false ∧ HostWrites (hostWrite 0 4 0x00000011) 0x000 4 0x00000011 [] ∧
      decodeCommand 0x00000011 = .error .reservedBits := by
  exact ⟨rfl, rfl, by decide⟩

theorem witness_StepRunsFetchedInstruction_command :
    (startCommand 1 idle).phase ≠ .idle ∧ (startCommand 1 idle).work = .none ∧
      decodeCommand (startCommand 1 idle).cmd = .ok .encode ∧ (startCommand 1 idle).inputs = [] := by decide

theorem witness_StepRunsFetchedInstruction_poll :
    ((startCommand 2 idle).setInputs [.poll]).phase ≠ .idle ∧ ((startCommand 2 idle).setInputs [.poll]).work = .none ∧
      decodeCommand ((startCommand 2 idle).setInputs [.poll]).cmd = .ok .decodeStd ∧
      ((startCommand 2 idle).setInputs [.poll]).inputs = [.poll] ∧
      doneBit ((startCommand 2 idle).setInputs [.poll]).status = false := by decide

theorem witness_StepRunsFetchedInstruction_tag :
    (decoding 1 [0b11] [] [5] []).phase ≠ .idle ∧
      (decoding 1 [0b11] [] [5] []).work = .dec (decodeWork [0b11] [] [5] []) ∧
      (decodeWork [0b11] [] [5] []).t < 1024 ∧ (decodeWork [0b11] [] [5] []).tags[0]? = some 0b11 ∧
      (decoding 1 [0b11] [] [5] []).inputs = [] ∧
      ((decoding 1 [0b11] [] [5] []).setInputs [.tick]).inputs = [.tick] := by decide

theorem witness_StepRunsFetchedInstruction_tagPoll (s : State)
    (hs : s = (decoding 1 [0b11] [] [5] []).setInputs [.poll]) : s.phase ≠ .idle ∧
      s.work = .dec (decodeWork [0b11] [] [5] []) ∧ s.inputs = [.poll] ∧ doneBit s.status = false := by
  subst hs
  decide

theorem witness_ResetAbandonsEverything :
    ((startCommand 2 idle).setInputs [.reset]).inputs = [.reset] ∧
      isBusy ((startCommand 2 idle).setInputs [.reset]) = true := by decide

theorem witness_StepKeepsInvariant : ∃ t, StateInv (hostWrite 0x008 4 4096) ∧
    step (hostWrite 0x008 4 4096) = .next t ∧ t.inLen = 4096 := ⟨_, inv_setInputs inv_idle _, rfl, rfl⟩

theorem witness_OnlyHostAccessesAreRefused : StateInv (busyWrite 0x008 4 0) ∧
    step (busyWrite 0x008 4 0) = .refused .hostWriteWhileBusy := ⟨inv_setInputs inv_running _, rfl⟩

theorem witness_RomAndParametersConstant : ∃ t, step (hostWrite 0x000 4 1) = .next t := ⟨_, rfl⟩

/-- A decode's last step writes OUT: one word here, as the state need not be reachable. -/
def ending : State :=
  (decoding 1 [] [] [] []).setWork (.dec { decodeWork [] [] [] [] with t := 1024, out := [7] })

theorem witness_OnlyRuledAgentsWrite : ∃ t, step ending = .next t ∧ (∀ rest, ending.inputs ≠ .reset :: rest) ∧
    (∀ a rest, ending.inputs ≠ .access a :: rest) ∧ t.outMem ≠ ending.outMem := by
  refine ⟨_, rfl, fun _ h => ?_, fun _ _ h => ?_, by decide⟩ <;> cases h

theorem witness_CmdWriteStartsCommand : isBusy (hostWrite 0 4 3) = false ∧ HostWrites (hostWrite 0 4 3) 0x000 4 3 [] ∧
    decodeCommand 3 = .ok .decodeAlt := ⟨rfl, rfl, by decide⟩

theorem witness_CmdWriteWhileBusyIgnored : isBusy (busyWrite 0 4 1) = true ∧ HostWrites (busyWrite 0 4 1) 0x000 4 1 [] :=
  ⟨rfl, rfl⟩

theorem witness_InputWritesWhileBusyRefused_inLen : isBusy (busyWrite 0x008 4 1) = true ∧
    HostWrites (busyWrite 0x008 4 1) 0x008 4 1 [] := ⟨rfl, rfl⟩

/-- The last byte of IN, as a byte. -/
theorem witness_InputWritesWhileBusyRefused_in : isBusy (busyWrite 0x3FFF 1 1) = true ∧ 0x1FFF % 1 = 0 ∧
    0x1FFF < 0x2000 ∧ 0x1FFF < (busyWrite 0x3FFF 1 1).params.inCap ∧
    HostWrites (busyWrite 0x3FFF 1 1) (0x2000 + 0x1FFF) 1 1 [] := ⟨rfl, rfl, by decide, by decide, rfl⟩

theorem witness_InLenReadsBackWhatIsWritten : isBusy (hostWrite 0x008 4 0xFFFFFFFF) = false ∧
    HostWrites (hostWrite 0x008 4 0xFFFFFFFF) 0x008 4 0xFFFFFFFF [] := ⟨rfl, rfl⟩

theorem witness_InLenReadsBackWhatIsWritten_read : HostReads (hostRead 0x008 4) 0x008 4 [] := rfl

/-- The last word of the register window, read and written. -/
theorem witness_RegisterWindowReads : 0xFC < 0x100 ∧ 0xFC % 4 = 0 ∧ HostReads (hostRead 0xFC 4) 0xFC 4 [] ∧
    0x010 ≤ 0xFC ∧ HostWrites (hostWrite 0xFC 4 5) 0xFC 4 5 [] := ⟨by decide, by decide, rfl, by decide, rfl⟩

theorem witness_OnlyCmdAndInWritesTakeEffect_read : ∃ t, (hostRead 0x004 4).inputs = [.access (.read 0x10004 4)] ∧
    step (hostRead 0x004 4) = .next t := ⟨_, rfl, rfl⟩

theorem witness_OnlyCmdAndInWritesTakeEffect_register : HostWrites (hostWrite 0x004 4 5) 0x004 4 5 [] ∧
    HostWrites (hostWrite 0x00C 4 5) 0x00C 4 5 [] := ⟨rfl, rfl⟩

/-- The first byte of OUT, which is one past the last of IN. -/
theorem witness_OnlyCmdAndInWritesTakeEffect_window : (0x4000 % 2 = 0 ∧ 0x100 ≤ 0x4000) ∧
    ¬ (0x2000 ≤ 0x4000 ∧ 0x4000 < 0x4000 ∧ 0x4000 - 0x2000 < (hostWrite 0x4000 2 5).params.inCap) ∧
    HostWrites (hostWrite 0x4000 2 5) 0x4000 2 5 [] := ⟨by decide, by decide, rfl⟩

theorem witness_UnpermittedAccessFormsRefused_register : (0xFE < 0x100 ∧ ¬ (2 = 4 ∧ 0xFE % 4 = 0)) ∧
    HostReads (hostRead 0xFE 2) 0xFE 2 [] := ⟨by decide, rfl⟩

theorem witness_UnpermittedAccessFormsRefused_window :
    (0x100 ≤ 0x2001 ∧ ¬ ((4 = 1 ∨ 4 = 2 ∨ 4 = 4) ∧ 0x2001 % 4 = 0)) ∧
    HostWrites (hostWrite 0x2001 4 0) 0x2001 4 0 [] := ⟨by decide, rfl⟩

theorem witness_InWindowWriteIsLittleEndian : isBusy (hostWrite 0x3FFC 4 1) = false ∧ 0x1FFC % 4 = 0 ∧
    0x1FFC < 0x2000 ∧ 0x1FFC < (hostWrite 0x3FFC 4 1).params.inCap ∧
    HostWrites (hostWrite 0x3FFC 4 1) (0x2000 + 0x1FFC) 4 1 [] := ⟨rfl, by decide, by decide, by decide, rfl⟩

theorem witness_WindowReadsAreLittleEndian_in : 0x1FFE % 2 = 0 ∧ 0x1FFE + 2 ≤ 0x2000 ∧
    0x1FFE + 2 ≤ (hostRead 0x3FFE 2).params.inCap ∧
    HostReads { hostRead 0x3FFE 2 with inMem := runCells 0x1FFE [1, 2] } (0x2000 + 0x1FFE) 2 [] ∧
    ∀ j, j < 2 → memGet (runCells 0x1FFE [1, 2]) (0x1FFE + j) = some (BitVec.ofNat 8 (j + 1)) :=
  ⟨by decide, by decide, by decide, rfl, by decide⟩

theorem witness_WindowReadsAreLittleEndian_inFault : HostReads (hostRead 0x2000 4) (0x2000 + 0) 4 [] ∧
    ∃ j, j < 4 ∧ memGet (hostRead 0x2000 4).inMem (0 + j) = none := ⟨rfl, 0, by decide, rfl⟩

theorem witness_WindowReadsAreLittleEndian_out : 0x1FFF + 1 ≤ (hostRead 0x5FFF 1).params.outCap ∧
    HostReads { hostRead 0x5FFF 1 with outMem := runCells 0x1FFF [9] } (0x4000 + 0x1FFF) 1 [] ∧
    ∀ j, j < 1 → memGet (runCells 0x1FFF [9]) (0x1FFF + j) = some 9 := ⟨by decide, rfl, by decide⟩

theorem witness_WindowReadsAreLittleEndian_outFault : HostReads (hostRead 0x4000 1) (0x4000 + 0) 1 [] ∧
    ∃ j, j < 1 ∧ memGet (hostRead 0x4000 1).outMem (0 + j) = none := ⟨rfl, 0, by decide, rfl⟩

/-- The first and the last reserved byte below IN, and the first above OUT. -/
theorem witness_ReservedAddressesReadZero : (0x100 ≤ 0x1FFC ∧ 0x1FFC < 0x2000) ∧ 0x1FFC % 4 = 0 ∧
    HostReads (hostRead 0x1FFC 4) 0x1FFC 4 [] ∧ HostReads (hostRead 0x100 1) 0x100 1 [] ∧
    HostReads (hostRead 0x6000 2) 0x6000 2 [] := ⟨by decide, by decide, rfl, rfl, rfl⟩

/-- A block whose IN ends at 0x1001 and whose OUT at 0x1112, inside a word. -/
def oddCapacities (off size : Nat) : State :=
  { hostRead off size with params := { testParams with inCap := 0x1001, outCap := 0x1112 }
                           inMem := [(0x1000, 7)], outMem := [(0x1110, 8), (0x1111, 9)] }

theorem witness_ReservedAddressesReadZero_beyondCapacity :
    (0x2000 + (oddCapacities 0x3004 4).params.inCap ≤ 0x3004 ∧ 0x3004 < 0x4000) ∧
    HostReads (oddCapacities 0x3004 4) 0x3004 4 [] ∧
    (0x4000 + (oddCapacities 0x5112 2).params.outCap ≤ 0x5112 ∧ 0x5112 < 0x6000) ∧
    HostReads (oddCapacities 0x5112 2) 0x5112 2 [] := ⟨by decide, rfl, by decide, rfl⟩

theorem witness_ReservedAddressesReadZero_acrossIn (s : State) (hs : s = oddCapacities 0x3000 4) :
    HostReads s (0x2000 + 0x1000) 4 [] ∧
    ∀ j, j < 4 → 0x1000 + j < s.params.inCap → memGet s.inMem (0x1000 + j) ≠ none := by
  subst hs
  exact ⟨rfl, by decide⟩

theorem witness_ReservedAddressesReadZero_acrossOut (s : State) (hs : s = oddCapacities 0x5110 4) :
    HostReads s (0x4000 + 0x1110) 4 [] ∧
    ∀ j, j < 4 → 0x1110 + j < s.params.outCap → memGet s.outMem (0x1110 + j) ≠ none := by
  subst hs
  exact ⟨rfl, by decide⟩

theorem test_read_across_in_capacity : readOf (step (oddCapacities 0x3000 4)) = some 0x00000007 := by decide

theorem witness_ReadsWhileBusyAreSafe : StateInv (busyRead 0x004 4) ∧ isBusy (busyRead 0x004 4) = true ∧
    HostReads (busyRead 0x004 4) 0x004 4 [] ∧ HostReads (busyRead 0x00C 4) 0x00C 4 [] ∧
    ∃ t, step (busyRead 0x00C 4) = .next t ∧ isBusy t = true := ⟨inv_setInputs inv_running _, rfl, rfl, rfl, _, rfl, rfl⟩

theorem witness_PollWaitsForDone_done : ((raiseError .inputError idle).setInputs [.poll]).inputs = [.poll] ∧
    doneBit ((raiseError .inputError idle).setInputs [.poll]).status = true := by decide

theorem witness_PollWaitsForDone_waiting : ∃ t, ((startCommand 1 idle).setInputs [.poll]).inputs = [.poll] ∧
    doneBit ((startCommand 1 idle).setInputs [.poll]).status = false ∧
    step ((startCommand 1 idle).setInputs [.poll]) = .next t := ⟨_, rfl, rfl, rfl⟩

theorem witness_HashReadsBits17To10 : (0x00040123 : Word).extractLsb' 10 8 = (0x12340000 : Word).extractLsb' 10 8 ∧
    hashTableOk htTest = true := ⟨by decide, test_htTest_accepted⟩

theorem witness_DictionaryStoreAndLookup : (4 : Slot) ≠ 5 := by decide

theorem witness_PackersPlaceEveryElement : (List.replicate 1024 codeExact).length = 1024 ∧ 63 < 64 ∧ 15 < 16 ∧
    1 < (([1, 2, 3, 4, 5, 6, 7, 8, 9] : List Slot).length + 7) / 8 ∧
    1 < (([1, 2, 3, 4] : List Low).length + 2) / 3 := ⟨List.length_replicate, by decide, by decide, by decide, by decide⟩

theorem witness_PackUnpackRoundTrip : (List.replicate 1024 codeExact).length = 1024 ∧
    (List.replicate 64 (0 : Word)).length = 64 := ⟨List.length_replicate, List.length_replicate⟩

theorem witness_LowBitsTopBitsIgnored : (0x155007FF : Word) ∈ pack10 [0x3FF, 0x001, 0x155] := by decide

/-- Any word can be the next one; the next theorem gives one for each classification. -/
theorem witness_EncoderClassifiesEachWord (v : Word) : (encoding 1 [v]).phase = .encRun ∧ (encoding 1 [v]).work = .enc encWorkInit ∧ encWorkInit.i < 1024 ∧
      le32 (encoding 1 [v]) 0 = .next v ∧ (encoding 1 [v]).inputs = [.tick] :=
  ⟨rfl, rfl, by decide, le32_of_holds (ws := [v]) (withInput_holds [v]) (by simp), rfl⟩

theorem witness_EncoderClassifiesEachWord_guards : hashSlot htTest 1 = 0 ∧ (0 : Word) ≠ 1 ∧
    ((5 : Word) ≠ 1 ∧ (5 : Word) ≠ 0 ∧ (5 : Word) >>> 10 = (1 : Word) >>> 10) ∧
    ((0x00040123 : Word) ≠ 1 ∧ (0x00040123 : Word) >>> 10 ≠ (1 : Word) >>> 10) := by decide

/-- IN_LEN just below and above the page, and just above IN_CAP. -/
theorem witness_BadLengthIsInputError : Instr.isCommand .encode = true ∧
    (idle.setInLen 4095).inLen.toNat ≠ 4096 ∧ (idle.setInLen 4097).inLen.toNat ≠ 4096 ∧
    Instr.isCommand .decodeStd = true ∧ (idle.setInLen 8193).params.inCap < (idle.setInLen 8193).inLen.toNat := by decide

theorem witness_EncodeProducesTheBuffer : (withInput zeroPage).inLen.toNat = 4096 ∧
    4096 ≤ (withInput zeroPage).params.inCap ∧ zeroPage.length = 1024 ∧
    Holds (withInput zeroPage).inMem (wordsBytes zeroPage) ∧
    4 * (encodedBuffer (withInput zeroPage).hashTable (withInput zeroPage).params.packLayout zeroPage).length
      ≤ (withInput zeroPage).params.outCap := by
  have hl : zeroPage.length = 1024 := List.length_replicate
  exact ⟨by rw [withInput_inLen _ (by rw [hl]; decide), hl], by decide, hl, withInput_holds _,
    by rw [zeroBuffer_length]; decide⟩

/-- The zero page's 272 bytes in an OUT one byte too small for them. -/
theorem witness_EncodeStopsWhereTheBufferDoesNotFit (s : State)
    (hs : s = { withInput zeroPage with params := { testParams with outCap := 271 } }) : s.inLen.toNat = 4096 ∧
    4096 ≤ s.params.inCap ∧ Holds s.inMem (wordsBytes zeroPage) ∧
    s.params.outCap < 4 * (encodedBuffer s.hashTable s.params.packLayout zeroPage).length := by
  have hl : zeroPage.length = 1024 := List.length_replicate
  subst hs
  refine ⟨?_, by decide, withInput_holds zeroPage, ?_⟩
  · show (withInput zeroPage).inLen.toNat = 4096
    rw [withInput_inLen _ (by rw [hl]; decide), hl]
  · rw [zeroBuffer_length]; show 271 < _; decide

theorem witness_EncodedBufferLengthBounds : zeroPage.length = 1024 := List.length_replicate

theorem witness_TagZeroEmitsZero : (decoding 1 [0] [] [] []).work = .dec (decodeWork [0] [] [] []) := rfl

theorem witness_TagExactEmitsTheSlot : (decoding 1 [3] [] [5] []).work = .dec (decodeWork [3] [] [5] []) ∧
    (decodeWork [3] [] [5] []).Q[0]? = some 5 ∧
    (decoding 1 [3] [] [] []).work = .dec (decodeWork [3] [] [] []) ∧ (decodeWork [3] [] [] []).cq = 0 := by decide

theorem witness_TagPartialRebuildsAndStores : (decodeWork [1] [] [0] [5]).Q[0]? = some 0 ∧
    (decodeWork [1] [] [0] [5]).L[0]? = some 5 ∧
    (decoding 1 [1] [] [0] [5]).work = .dec (decodeWork [1] [] [0] [5]) ∧
    (decoding 1 [1] [] [0] []).work = .dec (decodeWork [1] [] [0] []) ∧
    (decodeWork [1] [] [0] []).cl = (decodeWork [1] [] [0] []).L.length ∧
    (decoding 1 [1] [] [] [5]).work = .dec (decodeWork [1] [] [] [5]) ∧
    (decodeWork [1] [] [] [5]).cq = (decodeWork [1] [] [] [5]).Q.length := by decide

theorem witness_TagMissStoresAtTheHashSlot : (decoding 1 [2] [9] [] []).work = .dec (decodeWork [2] [9] [] []) ∧
    (decodeWork [2] [9] [] []).F[0]? = some 9 ∧
    (decoding 1 [2] [] [] []).work = .dec (decodeWork [2] [] [] []) ∧
    (decodeWork [2] [] [] []).cf = (decodeWork [2] [] [] []).F.length := by decide

theorem witness_TagFrame (i : Instr) (h : i.isCommand = false) :
    ∃ t w w', exec i (decoding 1 [0] [9] [0] [5]) = .next t ∧ (decoding 1 [0] [9] [0] [5]).work = .dec w ∧
      t.work = .dec w' := by
  cases i <;> first | exact ⟨_, _, _, rfl, rfl, rfl⟩ | exact absurd h (by decide)

theorem witness_UnderflowStopsTheWalk : (decoding 1 [3] [] [] []).work = .dec (decodeWork [3] [] [] []) ∧
    (decodeWork [3] [] [] []).cq = (decodeWork [3] [] [] []).Q.length ∧
    (decodeWork [3] [] [] []).cl = (decodeWork [3] [] [] []).L.length ∧
    (decodeWork [3] [] [] []).cf = (decodeWork [3] [] [] []).F.length ∧ (decoding 1 [3] [] [] []).inputs = [] := by decide

theorem witness_ShortBufferIsFormatHeader : (idle.setInLen 15).inLen.toNat ≤ (idle.setInLen 15).params.inCap ∧
    (idle.setInLen 15).inLen.toNat < 16 ∧ (idle.setInLen 11).inLen.toNat < 12 := by decide

theorem witness_HeaderChecksDecideFormatHeader (i : Instr) (hw : Nat) (h : (i = .decodeStd ∧ hw = 4) ∨
    (i = .decodeAlt ∧ hw = 3)) : (withInput [0, 68, 68, 68]).inLen.toNat ≤ (withInput [0, 68, 68, 68]).params.inCap ∧
    4 * hw ≤ (withInput [0, 68, 68, 68]).inLen.toNat ∧
    InReadable (withInput [0, 68, 68, 68]) (withInput [0, 68, 68, 68]).inLen.toNat ∧
    ∃ q l e, le32 (withInput [0, 68, 68, 68]) (hw - 3) = .next q ∧ le32 (withInput [0, 68, 68, 68]) (hw - 2) = .next l ∧
      le32 (withInput [0, 68, 68, 68]) (hw - 1) = .next e ∧ 4096 ≤ (withInput [0, 68, 68, 68]).params.outCap := by
  refine ⟨by decide, ?_, withInput_readable [0, 68, 68, 68], ?_⟩ <;> rcases h with ⟨-, rfl⟩ | ⟨-, rfl⟩
  · decide
  · decide
  all_goals exact ⟨_, _, _, le32_of_holds (withInput_holds [0, 68, 68, 68]) (by decide),
      le32_of_holds (withInput_holds [0, 68, 68, 68]) (by decide),
      le32_of_holds (withInput_holds [0, 68, 68, 68]) (by decide), by decide⟩

/-- After the last tag, with one unconsumed full pattern. -/
def atEnd (leftover : Word) : DecWork :=
  { decodeWork (List.replicate 1024 0) [leftover] [] [] with t := 1024, out := zeroPage }

theorem witness_ResidueDecidesTheEnd (v : Word) : ((decoding 1 [] [] [] []).setWork (.dec (atEnd v))).phase = .decRun ∧
    ((decoding 1 [] [] [] []).setWork (.dec (atEnd v))).work = .dec (atEnd v) ∧ (atEnd v).t = 1024 ∧
    (atEnd v).out.length = 1024 ∧ ((decoding 1 [] [] [] []).setWork (.dec (atEnd v))).params.outCap = 8192 ∧
    ((decoding 1 [] [] [] []).setWork (.dec (atEnd v))).inputs = [] :=
  ⟨rfl, rfl, rfl, List.length_replicate, rfl, rfl⟩

theorem witness_ResidueDecidesTheEnd_residue : (∃ k v, (atEnd 5).cf ≤ k ∧ (atEnd 5).F[k]? = some v ∧ v ≠ 0) :=
  ⟨0, 5, by decide, rfl, by decide⟩

theorem witness_ResidueDecidesTheEnd_none : ¬ ((∃ k v, (atEnd 0).cf ≤ k ∧ (atEnd 0).F[k]? = some v ∧ v ≠ 0) ∨
    (∃ k v, (atEnd 0).cq ≤ k ∧ (atEnd 0).Q[k]? = some v ∧ v ≠ 0) ∨
    (∃ k v, (atEnd 0).cl ≤ k ∧ (atEnd 0).L[k]? = some v ∧ v ≠ 0)) := by
  rintro (⟨k, v, -, h, hv⟩ | ⟨k, v, -, h, -⟩ | ⟨k, v, -, h, -⟩)
  · cases k with
    | zero => cases h; exact hv rfl
    | succ k => cases h
  · cases h
  · cases h

theorem witness_DecodeExecutesTagPrograms (hw : Nat) (h : hw = 3 ∨ hw = 4) (s : State)
    (hs : s = withInput (assembleTags hw .interleaved zeroOps)) :
    tagProgramOk zeroOps = true ∧ 4 * (assembleTags hw s.params.packLayout zeroOps).length ≤ s.inLen.toNat ∧
      s.inLen.toNat ≤ s.params.inCap ∧ Holds s.inMem (wordsBytes (assembleTags hw s.params.packLayout zeroOps)) ∧
      s.params.outCap = 8192 := by
  subst hs
  have hl := zeroTagBuffer_length hw h .interleaved
  have hn := withInput_inLen (assembleTags hw .interleaved zeroOps) (by rw [hl]; omega)
  refine ⟨?_, Nat.le_of_eq hn.symm, ?_, withInput_holds _, rfl⟩
  · rw [tagProgramOk, zeroOps, List.length_replicate]; rfl
  rw [hn, hl]
  show 4 * (hw + 64) ≤ 8192
  omega

/-- The zero page's buffer in a second block, for DECODE_STD and DECODE_ALT. -/
theorem witness_EncodeThenDecodeIsIdentity (ws : List Word) (h : ws = encodedBuffer htTest .interleaved zeroPage ∨
    ws = altForm (encodedBuffer htTest .interleaved zeroPage)) : (withInput ws).hashTable = htTest ∧
    (withInput ws).params.packLayout = .interleaved ∧ (withInput ws).params.outCap = 8192 ∧
    (withInput ws).inLen.toNat ≤ (withInput ws).params.inCap ∧ Holds (withInput ws).inMem (wordsBytes ws) ∧
    (withInput ws).inLen.toNat = 4 * ws.length := by
  have hb := zeroBuffer_length htTest .interleaved
  have hle : ws.length ≤ 68 := by
    rcases h with rfl | rfl
    · omega
    · refine Nat.le_trans ?_ (Nat.le_of_eq hb)
      unfold altForm
      split
      · rename_i heq; rw [heq]; simp
      · exact Nat.le_refl _
  have hn := withInput_inLen ws (by omega)
  refine ⟨rfl, rfl, rfl, ?_, withInput_holds _, hn⟩
  rw [hn]
  show 4 * ws.length ≤ 8192
  omega

theorem witness_ReservedWordIgnored : ∃ t, (∀ k < 4, ∃ b, memGet (withInput [7, 67, 68, 68]).inMem k = some b) ∧
    exec .decodeStd (withInput [7, 67, 68, 68]) = .next t := by
  obtain ⟨t, ht, -⟩ := statusOf_next (r := exec .decodeStd (withInput [7, 67, 68, 68])) (v := 0x22) (by decide)
  exact ⟨t, fun k hk => withInput_readable [7, 67, 68, 68] k (Nat.lt_of_lt_of_le hk (by decide)), ht⟩

theorem witness_DecodeOutputIsOnePage : ∃ t, exec .decodeAlt (withInput zeroAlt) = .next t ∧ t.status = 0x00000002 :=
  zeroAlt_decodes

theorem witness_CommandsEnd (i : Instr) (h : i.isCommand = true) : i.isCommand = true ∧
    ((withInput [0, 68, 68, 68]).inLen.toNat ≤ (withInput [0, 68, 68, 68]).params.inCap →
      InReadable (withInput [0, 68, 68, 68]) (withInput [0, 68, 68, 68]).inLen.toNat) ∧
    (if i = .encode then 4372 else 4096) ≤ (withInput [0, 68, 68, 68]).params.outCap :=
  ⟨h, fun _ => withInput_readable [0, 68, 68, 68], by split <;> decide⟩

theorem witness_EncodeOfUnwrittenByteFaults : (idle.setInLen 4096).inLen.toNat = 4096 ∧
    4096 ≤ (idle.setInLen 4096).params.inCap ∧ ∃ k, k < 4096 ∧ memGet (idle.setInLen 4096).inMem k = none :=
  ⟨rfl, by decide, 4095, by decide, rfl⟩

/-- A header with no byte written; and one that passes its checks with the tag area unwritten. -/
theorem witness_DecodeOfUnwrittenByteFaults (hw : Nat) (h : hw = 3 ∨ hw = 4) :
    (idle.setInLen 4096).inLen.toNat ≤ (idle.setInLen 4096).params.inCap ∧ 4 * hw ≤ (idle.setInLen 4096).inLen.toNat ∧
    ∃ k, k < 4 * hw ∧ memGet (idle.setInLen 4096).inMem k = none := by
  refine ⟨by decide, ?_, 0, by omega, rfl⟩
  show 4 * hw ≤ 4096
  omega

theorem witness_DecodeOfUnwrittenByteFaults_sections (s : State)
    (hs : s = (withInput [68, 68, 68, 68]).setInLen 272) : 272 ≤ s.inLen.toNat ∧ s.inLen.toNat ≤ s.params.inCap ∧
    (∀ hw, hw = 3 ∨ hw = 4 → InReadable s (4 * hw) ∧ le32 s (hw - 3) = .next 68 ∧ le32 s (hw - 2) = .next 68 ∧
      le32 s (hw - 1) = .next 68 ∧ hw + 64 ≤ (68 : Word).toNat ∧ (68 : Word).toNat ≤ s.inLen.toNat / 4) ∧
    ∃ k, k < 4 * (68 : Word).toNat ∧ memGet s.inMem k = none := by
  subst hs
  have hr : InReadable ((withInput [68, 68, 68, 68]).setInLen 272) 16 := withInput_readable [68, 68, 68, 68]
  have hk : ∀ k < 4, le32 ((withInput [68, 68, 68, 68]).setInLen 272) k = .next 68 := by
    intro k hk
    have e := le32_congr (s := (withInput [68, 68, 68, 68]).setInLen 272) (t := withInput [68, 68, 68, 68]) rfl k
    rw [e, le32_of_holds (ws := [68, 68, 68, 68]) (withInput_holds [68, 68, 68, 68]) (k := k) (by exact hk)]
    congr 1
    have hall : ∀ k (h : k < 4), ([68, 68, 68, 68] : List Word)[k]'h = 68 := by decide
    exact hall k hk
  refine ⟨by decide, by decide, fun hw h => ⟨fun k h2 => hr k (by omega), hk _ (by omega), hk _ (by omega),
    hk _ (by omega), ?_, by decide⟩, 16, by decide, by decide⟩
  show hw + 64 ≤ 68
  omega

theorem witness_CommandFaultsAreUnwrittenBytesOrNoRoom :
    exec .decodeAlt (idle.setInLen 4096) = .fault (.inByteUnwritten 0) := rfl

theorem witness_ErrorsLeaveNoEffect : ∃ t, busyBit (decoding 1 [3] [] [] []).status = true ∧
    exec .tagExact (decoding 1 [3] [] [] []) = .next t ∧ busyBit t.status = false ∧ errField t.status ≠ 0 :=
  ⟨_, rfl, rfl, rfl, by decide⟩

/-- The hypotheses of the three statements about every command: one that fails and one that succeeds. -/
theorem witness_OutputIsAllOrNothing : (∃ t, exec .encode idle = .next t) ∧
    ∃ t, exec .decodeAlt (withInput zeroAlt) = .next t := by
  obtain ⟨t, ht, -⟩ := zeroAlt_decodes
  exact ⟨⟨_, rfl⟩, t, ht⟩

theorem witness_CommandFrame : Instr.isCommand .decodeAlt = true ∧
    ∃ t, exec .decodeAlt (withInput zeroAlt) = .next t := by
  obtain ⟨t, ht, -⟩ := zeroAlt_decodes
  exact ⟨rfl, t, ht⟩

/-- Two blocks that differ in dictionary, OUT and OUT_CAP. -/
theorem witness_ResultDependsOnInputAlone (s1 s2 : State)
    (h1 : s1 = withInput zeroAlt)
    (h2 : s2 = { s1 with dict := dictStore sentinelDict 3 7, outMem := [(0, 1)],
                         params := { testParams with outCap := 4372 } }) :
    s1.hashTable = s2.hashTable ∧ s1.params.packLayout = s2.params.packLayout ∧ s1.inLen = s2.inLen ∧
      (s1.inLen.toNat ≤ s1.params.inCap ↔ s2.inLen.toNat ≤ s2.params.inCap) ∧
      min s1.params.outCap 4372 ≤ s2.params.outCap ∧ (∀ k < s1.inLen.toNat, memGet s1.inMem k = memGet s2.inMem k) ∧
      ∃ t, exec .decodeAlt s1 = .next t := by
  obtain ⟨t, ht, -⟩ := zeroAlt_decodes
  subst h2 h1
  exact ⟨rfl, rfl, rfl, Iff.rfl, by decide, fun _ _ => rfl, t, ht⟩

theorem witness_RunExpansionRunsTheCommand (s : State)
    (hs : s = (withInput zeroPage).setInputs (expandStmt 0x10000 (.run .encode 4096))) :
    Instr.isCommand .encode = true ∧ isBusy s = false ∧ s.inputs = expandStmt s.params.base (.run .encode 4096) ++ [] ∧
      InReadable s (4096 : Word).toNat ∧ 4372 ≤ s.params.outCap := by
  subst hs
  have h := withInput_readable zeroPage
  rw [show zeroPage.length = 1024 from List.length_replicate] at h
  exact ⟨rfl, rfl, rfl, h, by decide⟩

theorem witness_TicksReachTheAtomicResult : Started .encode (startCommand 1 idle) ∧
    Started .decodeStd (startCommand 2 idle) ∧ Started .decodeAlt (startCommand 3 idle) :=
  ⟨⟨by decide, rfl, rfl, rfl⟩, ⟨by decide, rfl, rfl, rfl⟩, ⟨by decide, rfl, rfl, rfl⟩⟩

end Sys2Proof.Tests
end

/-! PROOFS. The statements about the block as a whole: what reset leaves, what no step changes, and what a command's
result depends on (R9, R16, R27, R165). -/

namespace Sys2Proof.Machine

/-! ### The state after reset -/

/-- An entry of a conforming table is 0 at key 0 only, whatever `hashRaw` is (R9). -/
theorem hashEntry_eq_zero_iff (k : Nat) : Config.hashEntry k = 0 ↔ k = 0 := by
  unfold Config.hashEntry
  split
  · simp [*]
  split
  · simp [*]
  · simp only [*]

theorem hashTable_getElem (k : Fin 256) : Config.hashTable[k] = Config.hashEntry k := by
  simp [Config.hashTable]

/-- The table after reset meets R9's two constraints. -/
theorem hashTableOk_reset : hashTableOk Config.hashTable = true := by
  simp only [hashTableOk, decide_eq_true_eq]
  intro k
  rw [hashTable_getElem, hashEntry_eq_zero_iff]

theorem windowOk_empty (cap : Nat) : WindowOk cap [] := ⟨List.Pairwise.nil, by simp⟩

theorem statusOk_zero : StatusOk 0 where
  reservedLow := by decide
  reservedHigh := by decide
  exclusive := by decide
  code := by decide
  codeWhenDone := by decide

/-- Settles O6: the table conforms for every `hashRaw`, the registers are 0, and nothing runs. -/
theorem resetSatisfiesInvariant : Obligations.ResetSatisfiesInvariant where
  table := hashTableOk_reset
  params := rfl
  status := statusOk_zero
  outLen := .inl rfl
  outLenZero := fun _ => rfl
  idle := ⟨fun _ => busyBit_zero, fun _ => rfl⟩
  inWindow := windowOk_empty _
  outWindow := windowOk_empty _
  work := fun h => absurd rfl h

/-! ### What the block's own work leaves unchanged -/

/-- The frame of the block's own work: it writes neither the host's registers nor IN (R55), and changes neither the ROM
and the parameters (R27) nor what the outside does and has read. -/
structure BlockFrame (s t : State) : Prop where
  cmd : t.cmd = s.cmd
  inLen : t.inLen = s.inLen
  inMem : t.inMem = s.inMem
  hashTable : t.hashTable = s.hashTable
  params : t.params = s.params
  inputs : t.inputs = s.inputs
  readLog : t.readLog = s.readLog

theorem BlockFrame.refl (s : State) : BlockFrame s s := ⟨rfl, rfl, rfl, rfl, rfl, rfl, rfl⟩

theorem BlockFrame.trans {s t u : State} (h : BlockFrame s t) (k : BlockFrame t u) : BlockFrame s u where
  cmd := k.cmd.trans h.cmd
  inLen := k.inLen.trans h.inLen
  inMem := k.inMem.trans h.inMem
  hashTable := k.hashTable.trans h.hashTable
  params := k.params.trans h.params
  inputs := k.inputs.trans h.inputs
  readLog := k.readLog.trans h.readLog

theorem raiseError_frame (e : ErrCode) (s : State) : BlockFrame s (raiseError e s) :=
  ⟨rfl, rfl, rfl, rfl, rfl, rfl, rfl⟩

theorem afterTag_frame (s : State) (d : Dict) (w : DecWork) : BlockFrame s (afterTag s d w) :=
  ⟨rfl, rfl, rfl, rfl, rfl, rfl, rfl⟩

theorem afterEnc_frame (s : State) (p : Dict × EncWork) : BlockFrame s (afterEnc s p) :=
  ⟨rfl, rfl, rfl, rfl, rfl, rfl, rfl⟩

/-- An operation from `s` whose next state, if it has one, keeps the frame. -/
def KeepsFrame (s : State) (r : Result State) : Prop := ∀ t, r = .next t → BlockFrame s t

theorem keepsFrame_next {s t : State} (h : BlockFrame s t) : KeepsFrame s (.next t) := by
  rintro _ ⟨⟩
  exact h

theorem keepsFrame_refused (s : State) (e : Refusal) : KeepsFrame s (.refused e) := nofun

/-- A chain keeps the frame if its last part does. -/
theorem keepsFrame_andThen {α : Type} {s : State} {r : Result α} {f : α → Result State}
    (h : ∀ a, KeepsFrame s (f a)) : KeepsFrame s (andThen r f) := by
  intro t ht
  obtain ⟨a, -, hf⟩ := andThen_eq_next.1 ht
  exact h a t hf

/-- A good end keeps the frame of the state the command started from. -/
theorem endOk_keepsFrame {s u : State} (h : BlockFrame s u) (ws : List Word) (n : Nat) :
    KeepsFrame s (endOk ws n u) := by
  intro t ht
  obtain ⟨-, rfl⟩ := endOk_eq_next.1 ht
  exact h.trans ⟨rfl, rfl, rfl, rfl, rfl, rfl, rfl⟩

theorem encBegin_keepsFrame (s : State) : KeepsFrame s (encBegin s) := by
  rcases encBegin_cases s with ⟨-, h⟩ | ⟨-, -, h⟩ <;> rw [h]
  · exact keepsFrame_next (raiseError_frame _ s)
  · exact keepsFrame_next (afterEnc_frame s (sentinelDict, encWorkInit))

theorem encStep_keepsFrame (s : State) : KeepsFrame s (encStep s) := by
  intro t ht
  obtain ⟨w, v, -, -, rfl⟩ := encStep_eq_next.1 ht
  exact afterEnc_frame s _

theorem encEnd_keepsFrame (s : State) : KeepsFrame s (encEnd s) := by
  unfold encEnd
  split
  · exact endOk_keepsFrame (.refl s) _ _
  · exact keepsFrame_next (.refl s)

theorem execEncode_keepsFrame (s : State) : KeepsFrame s (execEncode s) := by
  rw [execEncode_eq]
  split
  · exact keepsFrame_next (raiseError_frame _ s)
  · exact keepsFrame_andThen fun page => endOk_keepsFrame (afterEnc_frame s _) _ _

theorem decBegin_keepsFrame (hw : Nat) (s : State) : KeepsFrame s (decBegin hw s) := by
  intro t ht
  rcases decBegin_eq_next ht with ⟨-, rfl⟩ | ⟨-, -, rfl⟩ | ⟨-, -, q, l, e, -, ⟨-, rfl⟩ | ⟨-, w, -, rfl⟩⟩
  · exact raiseError_frame _ s
  · exact raiseError_frame _ s
  · exact raiseError_frame _ s
  · exact afterTag_frame s sentinelDict w

theorem decEnd_keepsFrame (s : State) : KeepsFrame s (decEnd s) := by
  unfold decEnd
  split
  · split
    · exact keepsFrame_next (raiseError_frame _ s)
    · exact endOk_keepsFrame (.refl s) _ _
  · exact keepsFrame_next (.refl s)

theorem decodeEnd_keepsFrame (s : State) (w : DecWork) : KeepsFrame s (decodeEnd s w) := by
  unfold decodeEnd
  simp only
  split
  · exact keepsFrame_next ((afterTag_frame s _ _).trans (raiseError_frame _ _))
  split
  · exact keepsFrame_next ((afterTag_frame s _ _).trans (raiseError_frame _ _))
  · exact endOk_keepsFrame (afterTag_frame s _ _) _ _

theorem decCommand_keepsFrame (hw : Nat) (s : State) : KeepsFrame s (decCommand hw s) := by
  rw [decCommand_eq]
  split
  · exact keepsFrame_next (raiseError_frame _ s)
  split
  · exact keepsFrame_next (raiseError_frame _ s)
  refine keepsFrame_andThen fun h => ?_
  split
  · exact keepsFrame_next (raiseError_frame _ s)
  · exact keepsFrame_andThen (decodeEnd_keepsFrame s)

/-- A tag with a next state had a decode running (log 14). -/
theorem work_dec_of_execTag {i : Instr} {s t : State} (hi : i.isCommand = false) (h : exec i s = .next t) :
    ∃ w, s.work = .dec w := by
  cases hw : s.work with
  | dec w => exact ⟨w, rfl⟩
  | none | enc w =>
    cases i <;> simp [Instr.isCommand, exec, execTagZero, execTagPartial, execTagMiss, execTagExact, hw] at hi h

/-- What a tag can do: underflow, or leave a dictionary and a working state (R193 to R197). -/
theorem execTag_eq_next {i : Instr} {s t : State} (hi : i.isCommand = false) (h : exec i s = .next t) :
    t = raiseError .formatUnderflow s ∨ ∃ d w, t = afterTag s d w := by
  obtain ⟨w, hw⟩ := work_dec_of_execTag hi h
  cases i with
  | encode | decodeStd | decodeAlt => cases hi
  | tagZero =>
    cases (execTagZero_dec hw).symm.trans h
    exact .inr ⟨_, _, rfl⟩
  | tagPartial =>
    rcases execTagPartial_dec hw with ⟨-, e⟩ | ⟨q, lb, -, -, e⟩ <;> cases e.symm.trans h
    · exact .inl rfl
    · exact .inr ⟨_, _, rfl⟩
  | tagMiss =>
    rcases execTagMiss_dec hw with ⟨-, e⟩ | ⟨v, -, e⟩ <;> cases e.symm.trans h
    · exact .inl rfl
    · exact .inr ⟨_, _, rfl⟩
  | tagExact =>
    rcases execTagExact_dec hw with ⟨-, e⟩ | ⟨q, -, e⟩ <;> cases e.symm.trans h
    · exact .inl rfl
    · exact .inr ⟨_, _, rfl⟩

theorem execTag_keepsFrame {i : Instr} (hi : i.isCommand = false) (s : State) : KeepsFrame s (exec i s) := by
  intro t ht
  rcases execTag_eq_next hi ht with rfl | ⟨d, w, rfl⟩
  · exact raiseError_frame _ s
  · exact afterTag_frame s d w

/-- Every instruction keeps the frame. -/
theorem exec_keepsFrame (i : Instr) (s : State) : KeepsFrame s (exec i s) := by
  cases i with
  | encode => exact execEncode_keepsFrame s
  | decodeStd => exact decCommand_keepsFrame 4 s
  | decodeAlt => exact decCommand_keepsFrame 3 s
  | tagZero | tagPartial | tagMiss | tagExact => exact execTag_keepsFrame rfl s

theorem beginCommand_keepsFrame (i : Instr) (s : State) : KeepsFrame s (beginCommand i s) := by
  cases i with
  | encode => exact encBegin_keepsFrame s
  | decodeStd => exact decBegin_keepsFrame 4 s
  | decodeAlt => exact decBegin_keepsFrame 3 s
  | tagZero => exact exec_keepsFrame .tagZero s
  | tagPartial => exact exec_keepsFrame .tagPartial s
  | tagMiss => exact exec_keepsFrame .tagMiss s
  | tagExact => exact exec_keepsFrame .tagExact s

theorem internalWork_keepsFrame (s : State) : KeepsFrame s (internalWork s) := by
  unfold internalWork
  split
  · exact keepsFrame_next (.refl s)
  · exact keepsFrame_next (raiseError_frame _ s)
  · split
    · exact encStep_keepsFrame s
    · exact encEnd_keepsFrame s
  · split
    · exact keepsFrame_refused s _
    · exact decEnd_keepsFrame s

/-- The block's turn keeps the frame, a whole instruction at a time. -/
theorem blockTurn_keepsFrame (s : State) : KeepsFrame s (blockTurn s) := by
  unfold blockTurn
  split
  · exact exec_keepsFrame _ s
  · exact internalWork_keepsFrame s

/-- The block's turn keeps the frame, one unit at a time. -/
theorem blockUnit_keepsFrame (s : State) : KeepsFrame s (blockUnit s) := by
  unfold blockUnit
  split
  · exact beginCommand_keepsFrame _ s
  · exact internalWork_keepsFrame s

/-! ### The ROM and the parameters -/

/-- Two states of one and the same block: its ROM and parameters (R9 to R11, R27). -/
def SameInstance (s t : State) : Prop := t.hashTable = s.hashTable ∧ t.params = s.params

theorem BlockFrame.sameInstance {s t : State} (h : BlockFrame s t) : SameInstance s t := ⟨h.hashTable, h.params⟩

theorem startCommand_sameInstance (c : Word) (s : State) : SameInstance s (startCommand c s) := by
  cases h : decodeCommand c with
  | ok i => rw [startCommand_legal h]; exact ⟨rfl, rfl⟩
  | error e => rw [startCommand_illegal h]; exact ⟨rfl, rfl⟩

/-- What a permitted write can do: nothing, start a command, or write IN_LEN or IN (R59). -/
theorem writeOffset_eq_next {off size : Nat} {v : Word} {s t : State} (h : writeOffset off size v s = .next t) :
    t = s ∨ t = startCommand v s ∨ t = s.setInLen v ∨ ∃ m, t = s.setInMem m := by
  unfold writeOffset writeReg writeWindow at h
  split at h
  · split at h
    · split at h <;> cases h
      · exact .inl rfl
      · exact .inr (.inl rfl)
    split at h
    · split at h <;> cases h
      exact .inr (.inr (.inl rfl))
    · cases h; exact .inl rfl
  · split at h
    · split at h <;> cases h
      exact .inr (.inr (.inr ⟨_, rfl⟩))
    · cases h; exact .inl rfl

/-- A host access that is served: a read is logged, a write goes to a permitted offset (R58, R59). -/
theorem hostAccess_eq_next {a : HostAccess} {s t : State} (h : hostAccess a s = .next t) :
    (∃ v, t = logRead v s) ∨ ∃ off size v, writeOffset off size v s = .next t := by
  cases a with
  | read addr size =>
    obtain ⟨off, -, h⟩ := andThen_eq_next.1 h
    obtain ⟨v, -, h⟩ := andThen_eq_next.1 h
    cases h
    exact .inl ⟨v, rfl⟩
  | write addr size data =>
    obtain ⟨off, -, h⟩ := andThen_eq_next.1 h
    exact .inr ⟨off, size, data, h⟩

theorem hostAccess_sameInstance {a : HostAccess} {s t : State} (h : hostAccess a s = .next t) : SameInstance s t := by
  rcases hostAccess_eq_next h with ⟨v, rfl⟩ | ⟨off, size, v, h⟩
  · exact ⟨rfl, rfl⟩
  rcases writeOffset_eq_next h with rfl | rfl | rfl | ⟨m, rfl⟩
  · exact ⟨rfl, rfl⟩
  · exact startCommand_sameInstance v s
  · exact ⟨rfl, rfl⟩
  · exact ⟨rfl, rfl⟩

theorem pollRound_sameInstance {rest : List Input} {s t : State} (h : pollRound rest s = .next t) :
    SameInstance s t := by
  unfold pollRound at h
  split at h
  · cases h
    exact ⟨rfl, rfl⟩
  · exact (blockTurn_keepsFrame s t h).sameInstance

/-- Settles O9, by the kind of turn: the block's work keeps its frame, a host access writes neither, and reset keeps
both (R27, R251). -/
theorem romAndParametersConstant : Obligations.RomAndParametersConstant := by
  intro s t h
  rcases step_cases s with ⟨-, e⟩ | ⟨rest, -, e⟩ | ⟨rest, -, e⟩ | ⟨a, rest, -, e⟩ | ⟨rest, -, e⟩ <;> rw [e] at h
  · exact (blockTurn_keepsFrame s t h).sameInstance
  · exact (blockUnit_keepsFrame (s.setInputs rest) t h).sameInstance
  · exact pollRound_sameInstance h
  · exact hostAccess_sameInstance (s := s.setInputs rest) h
  · cases h
    exact ⟨rfl, rfl⟩

/-! ### ENCODE's invariant and the length of its buffer -/

theorem encOk_init : EncOk sentinelDict encWorkInit where
  pc := by decide
  tags := rfl
  qCount := rfl
  lCount := rfl
  fCount := rfl
  dictNonzero := by simp
  fullNonzero := by simp [encWorkInit]

/-- A dictionary without a zero word keeps none when a nonzero word is stored. -/
theorem dictStore_nonzero {d : Dict} (hd : ∀ q, dictWord d q ≠ 0) {v : Word} (hv : v ≠ 0) (q r : Slot) :
    dictWord (dictStore d q v) r ≠ 0 := by
  by_cases h : q = r
  · subst h; simpa using hv
  · simpa [h] using hd r

/-- Every element keeps the encoder's invariant: the tag it appends counts what it adds to the streams (R160), and it
stores and emits only nonzero words (R166). -/
theorem encElement_encOk {d : Dict} {w : EncWork} (h : EncOk d w) (hi : w.i < 1024) (table : HashTable) (v : Word) :
    EncOk (encElement table v (d, w)).1 (encElement table v (d, w)).2 := by
  obtain ⟨-, tags, q, l, f, hd, hf⟩ := h
  rcases encElement_cases table v d w with ⟨-, e⟩ | ⟨-, -, e⟩ | ⟨-, hv, -, e⟩ | ⟨-, hv, -, e⟩ <;> rw [e]
  · refine ⟨hi, ?_, ?_, ?_, ?_, hd, hf⟩ <;> simp [encExact, codeExact, codePartial, codeMiss, tags, q, l, f]
    omega
  · refine ⟨hi, ?_, ?_, ?_, ?_, hd, hf⟩ <;> simp [encZero, codeZero, codeExact, codePartial, codeMiss, tags, q, l, f]
  · refine ⟨hi, ?_, ?_, ?_, ?_, dictStore_nonzero hd hv _, hf⟩ <;>
      simp [encPartial, codeExact, codePartial, codeMiss, tags, q, l, f]
    omega
  · have hf' : ∀ x ∈ w.F ++ [v], x ≠ 0 := by simpa [or_imp, forall_and] using ⟨hf, hv⟩
    refine ⟨hi, ?_, ?_, ?_, ?_, dictStore_nonzero hd hv _, hf'⟩ <;>
      simp [encMiss, codeExact, codePartial, codeMiss, tags, q, l, f]

theorem encodeFrom_encOk (table : HashTable) (page : List Word) {p : Dict × EncWork} (h : EncOk p.1 p.2)
    (hl : p.2.i + page.length ≤ 1024) : EncOk (encodeFrom table p page).1 (encodeFrom table p page).2 := by
  induction page generalizing p with
  | nil => exact h
  | cons v page ih =>
    rw [List.length_cons] at hl
    have hpc := (encElement_pc table v p).1
    rw [encodeFrom_cons]
    exact ih (encElement_encOk h (by omega) table v) (by omega)

/-- The encoder's invariant holds after the words of a page (R160, R166). -/
theorem encodeWords_encOk (table : HashTable) {page : List Word} (h : page.length ≤ 1024) :
    EncOk (encodeWords table page).1 (encodeWords table page).2 :=
  encodeFrom_encOk table page encOk_init (by simpa [encWorkInit] using h)

theorem count_miss_exact_partial_le (tags : List Tag) :
    tags.count codeMiss + (tags.count codeExact + tags.count codePartial) ≤ tags.length := by
  induction tags with
  | nil => simp
  | cons tag tags ih =>
    rcases tag_cases tag with rfl | rfl | rfl | rfl <;>
      simp [codeZero, codeExact, codePartial, codeMiss] at ih ⊢ <;> omega

/-- R161's formula gives at most 1093 words on the streams of one page (log 7). -/
theorem EncOk.bufferLength_le {d : Dict} {w : EncWork} (h : EncOk d w) : bufferLength 4 w.Q w.L w.F ≤ 1093 := by
  have hc := count_miss_exact_partial_le w.tags
  obtain ⟨pc, tags, q, l, f, -, -⟩ := h
  simp only [bufferLength, sectionStarts, ceilDiv, Config.tagAreaWords]
  omega

/-- An encoded buffer takes at most 4372 bytes (log 7). -/
theorem encodedBuffer_length_le (table : HashTable) (lay : PackLayout) {page : List Word} (h : page.length = 1024) :
    (encodedBuffer table lay page).length ≤ 1093 := by
  rw [encodedBuffer, bufferWords_length 4 (.inr rfl)]
  exact (encodeWords_encOk table h.le).bufferLength_le

/-! ### A command's result depends on its input alone -/

/-- The host sees the same result in both states: STATUS, OUT_LEN and the output bytes (R16). -/
def SameResult (t1 t2 : State) : Prop :=
  t2.status = t1.status ∧ t2.outLen = t1.outLen ∧ ∀ k < t1.outLen.toNat, memGet t2.outMem k = memGet t1.outMem k

/-- Where the first operation has a next state, the second has one with the same result. -/
def SameOutcome (r1 r2 : Result State) : Prop := ∀ t1, r1 = .next t1 → ∃ t2, r2 = .next t2 ∧ SameResult t1 t2

/-- What a command's result may depend on: the input bytes, HASH_TABLE and PACK_LAYOUT (R165), with room for the input
in both or in neither. -/
structure SameInput (s1 s2 : State) : Prop where
  table : s1.hashTable = s2.hashTable
  layout : s1.params.packLayout = s2.params.packLayout
  inLen : s1.inLen = s2.inLen
  allowed : s1.inLen.toNat ≤ s1.params.inCap ↔ s2.inLen.toNat ≤ s2.params.inCap
  bytes : ∀ k < s1.inLen.toNat, memGet s1.inMem k = memGet s2.inMem k

theorem sameOutcome_andThen {α : Type} {r1 r2 : Result α} {f g : α → Result State} (hr : r1 = r2)
    (h : ∀ a, r1 = .next a → SameOutcome (f a) (g a)) : SameOutcome (andThen r1 f) (andThen r2 g) := by
  intro t ht
  obtain ⟨a, ha, hf⟩ := andThen_eq_next.1 ht
  rw [← hr, ha]
  exact h a ha t hf

/-- An error leaves the same result everywhere: its code and no output (R227). -/
theorem raiseError_sameOutcome (e : ErrCode) (s1 s2 : State) :
    SameOutcome (.next (raiseError e s1)) (.next (raiseError e s2)) := by
  rintro _ ⟨⟩
  exact ⟨_, rfl, rfl, rfl, fun k hk => absurd hk (Nat.not_lt_zero k)⟩

/-- A good end leaves the same result everywhere it has room: the words it commits (R228). -/
theorem endOk_sameOutcome {ws : List Word} {n : Nat} {s1 s2 : State} (hws : 4 * ws.length ≤ 4372)
    (hn : n ≤ 4 * ws.length) (hroom : min s1.params.outCap 4372 ≤ s2.params.outCap) :
    SameOutcome (endOk ws n s1) (endOk ws n s2) := by
  intro t ht
  obtain ⟨hfit, rfl⟩ := endOk_eq_next.1 ht
  refine ⟨_, endOk_fits (by omega) n, rfl, rfl, fun k hk => ?_⟩
  have hk : k < (wordsBytes ws).length := by
    rw [endCommand_outLen, BitVec.toNat_ofNat] at hk
    rw [wordsBytes_length]
    exact (hk.trans_le (Nat.mod_le n _)).trans_le hn
  exact ((commitOut_holds s2 ws).1 k hk).trans ((commitOut_holds s1 ws).1 k hk).symm

/-- Both states find the input too long, or neither does (R222). -/
theorem SameInput.tooLong_iff {s1 s2 : State} (ha : SameInput s1 s2) :
    s2.params.inCap < s1.inLen.toNat ↔ s1.params.inCap < s1.inLen.toNat := by
  have h := not_congr ha.allowed
  rw [← ha.inLen, Nat.not_le, Nat.not_le] at h
  exact h.symm

section SameInput
variable {s1 s2 : State} (ha : SameInput s1 s2)
include ha

theorem readHeader_agree {hw : Nat} (h0 : 0 < hw) (h : 4 * hw ≤ s1.inLen.toNat) :
    readHeader hw s1 = readHeader hw s2 := by
  unfold readHeader
  rw [readWords_agree ha.bytes _ _ (by omega), le32_agree ha.bytes (k := hw - 3) (by omega),
    le32_agree ha.bytes (k := hw - 2) (by omega), le32_agree ha.bytes (k := hw - 1) (by omega)]

/-- A valid header's sections lie inside the input (R186), so both states unpack the same streams. -/
theorem unpackStreams_agree {hw : Nat} {h : Nat × Nat × Nat} (hb : ¬ headerBad hw (inWords s1) h) :
    unpackStreams hw h s1 = unpackStreams hw h s2 := by
  obtain ⟨q, l, e⟩ := h
  simp only [headerBad, inWords, Config.tagAreaWords, not_or, not_lt, Nat.max_le] at hb
  unfold unpackStreams
  simp only [Config.tagAreaWords]
  rw [readWords_agree ha.bytes 64 hw (by omega), readWords_agree ha.bytes _ (hw + 64) (by omega),
    readWords_agree ha.bytes _ q (by omega), readWords_agree ha.bytes _ l (by omega), ha.layout]

variable (hroom : min s1.params.outCap 4372 ≤ s2.params.outCap)
include hroom

/-- The walk is a function of the unpacked streams and HASH_TABLE; its page takes 4096 bytes. -/
theorem decodeEnd_sameOutcome {w : DecWork} (htags : w.tags.length = 1024) (ht : w.t = 0) (hout : w.out = []) :
    SameOutcome (decodeEnd s1 w) (decodeEnd s2 w) := by
  unfold decodeEnd
  simp only [← ha.table]
  split
  · exact raiseError_sameOutcome _ _ _
  next hf =>
  split
  · exact raiseError_sameOutcome _ _ _
  have hlen : (walkPure s1.hashTable 1024 sentinelDict w).2.2.out.length = 1024 := by
    simpa [hout] using (walkPure_advances 1024 sentinelDict w (by omega) (by simpa using hf)).2
  exact endOk_sameOutcome (by omega) (by rw [hlen]) hroom

theorem decCommand_sameOutcome {hw : Nat} (h0 : 0 < hw) : SameOutcome (decCommand hw s1) (decCommand hw s2) := by
  have hnw : inWords s1 = inWords s2 := congrArg (·.toNat / 4) ha.inLen
  rw [decCommand_eq, decCommand_eq, ← ha.inLen, ← hnw]
  simp only [ha.tooLong_iff]
  split
  · exact raiseError_sameOutcome _ _ _
  split
  · exact raiseError_sameOutcome _ _ _
  next hlen =>
  refine sameOutcome_andThen (readHeader_agree ha h0 (by omega)) fun h _ => ?_
  split
  · exact raiseError_sameOutcome _ _ _
  next hb =>
  refine sameOutcome_andThen (unpackStreams_agree ha hb) fun w hw' => ?_
  obtain ⟨htags, ht, hout⟩ := unpackStreams_start hw'
  exact decodeEnd_sameOutcome ha hroom htags ht hout

/-- ENCODE's buffer is a function of the page, HASH_TABLE and PACK_LAYOUT (R165). -/
theorem execEncode_sameOutcome : SameOutcome (execEncode s1) (execEncode s2) := by
  rw [execEncode_eq, execEncode_eq, ← ha.inLen]
  simp only [ha.tooLong_iff]
  split
  · exact raiseError_sameOutcome _ _ _
  next hlen =>
  refine sameOutcome_andThen (readWords_agree ha.bytes 1024 0 (by omega)) fun page hpage => ?_
  have hbuf := encodedBuffer_length_le s1.hashTable s1.params.packLayout (readWords_length hpage)
  unfold encodeEnd
  rw [← ha.table, ← ha.layout]
  exact endOk_sameOutcome (by omega) le_rfl hroom

end SameInput

/-- Settles O57: the host's checks, the reads and what is made of the words read agree, step by step of each command's
equation. -/
theorem resultDependsOnInputAlone : Obligations.ResultDependsOnInputAlone := by
  intro i s1 s2 t1 hi htable hlayout hlen hallowed hroom hbytes ht
  have ha : SameInput s1 s2 := ⟨htable, hlayout, hlen, hallowed, hbytes⟩
  cases i with
  | encode => exact execEncode_sameOutcome ha hroom t1 ht
  | decodeStd => exact decCommand_sameOutcome ha hroom (by decide) t1 ht
  | decodeAlt => exact decCommand_sameOutcome ha hroom (by decide) t1 ht
  | tagZero | tagPartial | tagMiss | tagExact => cases hi

end Sys2Proof.Machine


/-! PROOFS. The statements about the state: what each host access does to it, what the block's own turn can leave of
it, and the invariant that every step keeps (R20 to R33, R51 to R59, R252). -/

namespace Sys2Proof.Machine

/-! ### One permitted host access -/

theorem step_access {s : State} {a : HostAccess} {rest : List Input} (h : s.inputs = .access a :: rest) :
    step s = hostAccess a (s.setInputs rest) := by
  simp [step, turn, h]

/-- A permitted access at an offset from BASE is served there (R50, R58). -/
theorem accessOffset_permitted (s : State) {off size : Nat} (h : accessPermitted off size) :
    accessOffset s (s.params.base + off) size = .next off := by
  unfold accessOffset
  rw [if_neg (by omega), Nat.add_sub_cancel_left, if_pos h]

theorem step_hostRead {s : State} {off size : Nat} {rest : List Input} (h : HostReads s off size rest)
    (hp : accessPermitted off size) :
    step s = andThen (readOffset (s.setInputs rest) off size) fun v => .next (logRead v (s.setInputs rest)) := by
  rw [step_access h]
  show andThen (accessOffset (s.setInputs rest) ((s.setInputs rest).params.base + off) size) _ = _
  rw [accessOffset_permitted _ hp, andThen_next]

theorem step_hostWrite {s : State} {off size : Nat} {v : Word} {rest : List Input} (h : HostWrites s off size v rest)
    (hp : accessPermitted off size) : step s = writeOffset off size v (s.setInputs rest) := by
  rw [step_access h]
  show andThen (accessOffset (s.setInputs rest) ((s.setInputs rest).params.base + off) size) _ = _
  rw [accessOffset_permitted _ hp, andThen_next]

/-- An aligned word access of the register window is permitted (R58). -/
theorem accessPermitted_register {off : Nat} (h : off < 0x100) (ha : off % 4 = 0) : accessPermitted off 4 :=
  .inl ⟨h, rfl, ha⟩

/-- A read of the register window returns the register's value, or 0 where it has none (R33, R51). -/
theorem step_readReg {s : State} {off : Nat} {rest : List Input} (h : HostReads s off 4 rest) (hoff : off < 0x100)
    (ha : off % 4 = 0) : step s = .next (logRead (readReg s off) (s.setInputs rest)) := by
  rw [step_hostRead h (accessPermitted_register hoff ha), readOffset, if_pos hoff]
  rfl

theorem step_writeReg {s : State} {off : Nat} {v : Word} {rest : List Input} (h : HostWrites s off 4 v rest)
    (hoff : off < 0x100) (ha : off % 4 = 0) : step s = writeReg off v (s.setInputs rest) := by
  rw [step_hostWrite h (accessPermitted_register hoff ha), writeOffset, if_pos hoff]

theorem writeReg_cmd_idle {s : State} (h : isBusy s = false) (v : Word) :
    writeReg 0x000 v s = .next (startCommand v s) := by
  simp [writeReg, h]

theorem writeReg_inLen_idle {s : State} (h : isBusy s = false) (v : Word) :
    writeReg 0x008 v s = .next (s.setInLen v) := by
  simp [writeReg, h]

/-- Every register-window offset but CMD's and IN_LEN's ignores a write (R22, R24, R33, R59). -/
theorem writeReg_ignored {off : Nat} (h0 : off ≠ 0x000) (h8 : off ≠ 0x008) (v : Word) (s : State) :
    writeReg off v s = .next s := by
  rw [writeReg, if_neg h0, if_neg h8]

theorem step_writeReg_ignored {s : State} {off : Nat} {v : Word} {rest : List Input} (h : HostWrites s off 4 v rest)
    (hoff : off < 0x100) (ha : off % 4 = 0) (h0 : off ≠ 0x000) (h8 : off ≠ 0x008) :
    step s = .next (s.setInputs rest) := by
  rw [step_writeReg h hoff ha, writeReg_ignored h0 h8]

/-- Outside the register window only the bytes of IN can be written (R59). -/
theorem writeOffset_ignored {s : State} {off : Nat} (h : 0x100 ≤ off) (hin : ¬ isInByte s.params off) (size : Nat)
    (v : Word) : writeOffset off size v s = .next s := by
  rw [writeOffset, if_neg (by omega), writeWindow, if_neg hin]

/-- A write that is served changes nothing, or the block is idle and the write starts a command or puts a value into
IN_LEN or bytes into IN, all of them below IN_CAP (R52, R59, R254, R255). -/
theorem writeOffset_served {off size : Nat} {v : Word} {s t : State} (h : writeOffset off size v s = .next t) :
    t = s ∨ isBusy s = false ∧ (t = startCommand v s ∨ t = s.setInLen v ∨
      ∃ at0 bytes, at0 + bytes.length ≤ s.params.inCap ∧ t = s.setInMem (writeRun s.inMem at0 bytes)) := by
  unfold writeOffset writeReg writeWindow at h
  cases hbusy : isBusy s <;> simp only [hbusy, Bool.false_eq_true, if_false, if_true] at h
  case true =>
    split_ifs at h <;> cases h <;> exact .inl rfl
  case false =>
    split_ifs at h <;> cases h
    · exact .inr ⟨rfl, .inl rfl⟩
    · exact .inr ⟨rfl, .inr (.inl rfl)⟩
    · exact .inl rfl
    · refine .inr ⟨rfl, .inr (.inr ⟨_, _, ?_, rfl⟩)⟩
      rw [List.length_take]
      omega
    · exact .inl rfl

/-- A host read that answers logs its value and does nothing else (R59). -/
theorem hostAccess_read_eq_next {addr size : Nat} {s t : State} (h : hostAccess (.read addr size) s = .next t) :
    ∃ v, t = logRead v s := by
  obtain ⟨off, -, h⟩ := andThen_eq_next.1 h
  obtain ⟨v, -, h⟩ := andThen_eq_next.1 h
  cases h
  exact ⟨v, rfl⟩

/-! ### Register accesses and accesses without effect -/

/-- Settles O11: the idle block starts the command, whose phase is one of the three commands'. -/
theorem cmdWriteStartsCommand : Obligations.CmdWriteStartsCommand := by
  intro s rest c i hidle hwrite hc
  rw [step_writeReg hwrite (by decide) rfl, writeReg_cmd_idle (s := s.setInputs rest) hidle, startCommand_legal hc]
  rcases decodeCommand_isCommand hc with rfl | rfl | rfl <;> rfl

/-- Settles O14: the write stores the value, and the register is what the next read returns. -/
theorem inLenReadsBackWhatIsWritten : Obligations.InLenReadsBackWhatIsWritten := by
  intro s rest v hidle hwrite
  refine ⟨(s.setInputs rest).setInLen v, ?_, rfl, fun more hread => ?_⟩
  · rw [step_writeReg hwrite (by decide) rfl, writeReg_inLen_idle (s := s.setInputs rest) hidle]
  · rw [step_readReg hread (by decide) rfl]
    rfl

/-- Settles O15: a read returns the register, and no register that takes a write lies at 0x010 or above. -/
theorem registerWindowReads : Obligations.RegisterWindowReads := by
  intro s rest off v hoff ha
  refine ⟨fun hread => step_readReg hread hoff ha, fun hunmapped hwrite => ?_⟩
  exact step_writeReg_ignored hwrite hoff ha (by omega) (by omega)

/-- Settles O16: a read only logs its value, and a write outside CMD, IN_LEN and IN reaches nothing. -/
theorem onlyCmdAndInWritesTakeEffect : Obligations.OnlyCmdAndInWritesTakeEffect := by
  refine ⟨fun s t addr size rest hread ht => ?_, fun s rest v => ⟨?_, fun off size hsize ha hoff hin hwrite => ?_⟩⟩
  · rw [step_access hread] at ht
    exact hostAccess_read_eq_next ht
  · rintro (hwrite | hwrite)
    · exact step_writeReg_ignored hwrite (by decide) rfl (by decide) (by decide)
    · exact step_writeReg_ignored hwrite (by decide) rfl (by decide) (by decide)
  · rw [step_hostWrite hwrite (.inr ⟨hoff, hsize, ha⟩), writeOffset_ignored (s := s.setInputs rest) hoff hin]
    rfl

/-! ### The working state -/

theorem workOk_none {s : State} (h : s.work = .none) :
    WorkOk s ↔ (s.phase ≠ .idle → (decodeCommand s.cmd).toOption.map phaseOf = some s.phase) := by
  simp [WorkOk, h]

theorem workOk_enc {s : State} {w : EncWork} (h : s.work = .enc w) :
    WorkOk s ↔ s.phase = .encRun ∧ decodeCommand s.cmd = .ok .encode ∧ EncOk s.dict w := by
  simp [WorkOk, h]

theorem workOk_dec {s : State} {w : DecWork} (h : s.work = .dec w) :
    WorkOk s ↔ s.phase = .decRun ∧ decodeCommand s.cmd = .ok (if w.hw = 4 then .decodeStd else .decodeAlt)
      ∧ DecOk w := by
  simp [WorkOk, h]

/-- A started command runs in its own phase (R32, R252). -/
theorem WorkOk.phase_started {s : State} (h : WorkOk s) (hwork : s.work = .none) (hp : s.phase ≠ .idle) {i : Instr}
    (hi : decodeCommand s.cmd = .ok i) : s.phase = phaseOf i := by
  have hphase := (workOk_none hwork).1 h hp
  rw [hi] at hphase
  exact (Option.some.inj hphase).symm

/-- No command has a working state while the block is IDLE (R32). -/
theorem WorkOk.work_idle {s : State} (h : WorkOk s) (hp : s.phase = .idle) : s.work = .none := by
  cases hwork : s.work with
  | none => rfl
  | enc w => cases hp.symm.trans ((workOk_enc hwork).1 h).1
  | dec w => cases hp.symm.trans ((workOk_dec hwork).1 h).1

/-- The encoder's streams make a buffer of a legal length (R24, log 7). -/
theorem EncOk.outLenOk {d : Dict} {w : EncWork} (h : EncOk d w) :
    OutLenOk (BitVec.ofNat 32 (4 * bufferLength 4 w.Q w.L w.F)) := by
  have hle := h.bufferLength_le
  have hge : 68 ≤ bufferLength 4 w.Q w.L w.F := by
    simp only [bufferLength, sectionStarts, Config.tagAreaWords]
    omega
  rw [OutLenOk, BitVec.toNat_ofNat]
  omega

/-- A valid header's sections give the streams their lengths (R83, R186 to R191). -/
theorem unpackStreams_decOk {hw nw : Nat} (hhw : hw = 3 ∨ hw = 4) {h : Nat × Nat × Nat} (hb : ¬ headerBad hw nw h)
    {s : State} {w : DecWork} (hu : unpackStreams hw h s = .next w) : DecOk w ∧ w.hw = hw := by
  obtain ⟨q, l, e⟩ := h
  simp only [headerBad, Config.tagAreaWords, not_or, Nat.not_lt] at hb
  obtain ⟨-, hql, hle, hq⟩ := hb
  obtain ⟨tagWords, htags, hu⟩ := andThen_eq_next.1 hu
  obtain ⟨full, hfull, hu⟩ := andThen_eq_next.1 hu
  obtain ⟨qWords, hqs, hu⟩ := andThen_eq_next.1 hu
  obtain ⟨lWords, hls, hu⟩ := andThen_eq_next.1 hu
  cases hu
  refine ⟨⟨hhw, ⟨hq, hql, hle⟩, ?_, ?_, ?_, ?_, Nat.zero_le _, rfl, rfl, rfl, rfl, Nat.zero_le _, Nat.zero_le _,
    Nat.zero_le _⟩, rfl⟩
  · simp [readWords_length htags, Config.tagAreaWords]
  · simp only [readWords_length hfull, Config.tagAreaWords, Nat.sub_add_eq]
  · simp [readWords_length hqs]
  · simp [readWords_length hls]

/-- One more tag counts once, for its own code. -/
theorem count_take_succ {tags : List Tag} {t : Nat} {tag : Tag} (h : tags[t]? = some tag) (code : Tag) :
    (tags.take (t + 1)).count code = (tags.take t).count code + if tag = code then 1 else 0 := by
  rw [List.take_add_one, h, List.count_append]
  simp [List.count_singleton]

/-- The decoder's invariant after a tag that emits a word and moves its own cursors (R192, R258). -/
theorem DecOk.emitWord {w : DecWork} (h : DecOk w) {tag : Tag} (ht : w.t < 1024) (htag : w.tags[w.t]? = some tag)
    (v : Word) {cf cq cl : Nat}
    (hcf : cf = w.cf + if tag = codeMiss then 1 else 0)
    (hcq : cq = w.cq + (if tag = codeExact then 1 else 0) + if tag = codePartial then 1 else 0)
    (hcl : cl = w.cl + if tag = codePartial then 1 else 0)
    (bounds : cf ≤ w.F.length ∧ cq ≤ w.Q.length ∧ cl ≤ w.L.length) :
    DecOk (Machine.emitWord v { w with cf := cf, cq := cq, cl := cl }) := by
  obtain ⟨header, order, tags, f, q, l, -, out, ecf, ecq, ecl, -, -, -⟩ := h
  obtain ⟨bf, bq, bl⟩ := bounds
  have hcount := count_take_succ htag
  refine ⟨header, order, tags, f, q, l, ht, ?_, ?_, ?_, ?_, bf, bq, bl⟩ <;>
    simp only [Machine.emitWord, List.length_append, List.length_singleton, hcount] <;> omega

/-! ### What the block's own turn can do -/

/-- What the block's own turn can leave of `s`: the state itself, a command that goes on with its dictionary and working
state, an error, or a good end with its words committed. Each carries what it keeps of the invariant: the working state
goes on as it should, and a good end's length is legal. -/
inductive BlockOutcome (s : State) : State → Prop where
  | unchanged : BlockOutcome s s
  | goesOn (d : Dict) (w : Work) (hw : WorkOk s → WorkOk ((s.setDict d).setWork w)) :
      BlockOutcome s ((s.setDict d).setWork w)
  | error (e : ErrCode) (d : Dict) : BlockOutcome s (raiseError e (s.setDict d))
  | done (d : Dict) (ws : List Word) (n : Nat) (hfit : 4 * ws.length ≤ s.params.outCap)
      (hn : WorkOk s → OutLenOk (BitVec.ofNat 32 n)) :
      BlockOutcome s (endCommand .none n (commitOut (s.setDict d) ws))

theorem encBegin_outcome {s t : State} (hwork : s.work = .none) (hp : s.phase ≠ .idle)
    (hi : decodeCommand s.cmd = .ok .encode) (h : encBegin s = .next t) : BlockOutcome s t := by
  rcases encBegin_cases s with ⟨-, e⟩ | ⟨-, -, e⟩ <;> cases e.symm.trans h
  · exact .error .inputError s.dict
  · exact .goesOn sentinelDict (.enc encWorkInit) fun hok =>
      (workOk_enc rfl).2 ⟨hok.phase_started hwork hp hi, hi, encOk_init⟩

theorem encStep_outcome {s t : State} {w : EncWork} (hwork : s.work = .enc w) (hpc : w.i < 1024)
    (h : encStep s = .next t) : BlockOutcome s t := by
  obtain ⟨w', v, hw', -, rfl⟩ := encStep_eq_next.1 h
  cases hwork.symm.trans hw'
  refine .goesOn _ _ fun hok => ?_
  obtain ⟨hphase, hcmd, henc⟩ := (workOk_enc hwork).1 hok
  exact (workOk_enc rfl).2 ⟨hphase, hcmd, encElement_encOk henc hpc s.hashTable v⟩

theorem encEnd_outcome {s t : State} {w : EncWork} (hwork : s.work = .enc w) (h : encEnd s = .next t) :
    BlockOutcome s t := by
  rw [encEnd_enc hwork] at h
  obtain ⟨hfit, rfl⟩ := endOk_eq_next.1 h
  exact .done s.dict _ _ hfit fun hok => ((workOk_enc hwork).1 hok).2.2.outLenOk

/-- A whole ENCODE ends, in an error or with a buffer of legal length (R24, R150). -/
theorem execEncode_outcome {s t : State} (h : execEncode s = .next t) : BlockOutcome s t := by
  rw [execEncode_eq] at h
  split at h
  · cases h
    exact .error .inputError s.dict
  · obtain ⟨page, hpage, h⟩ := andThen_eq_next.1 h
    obtain ⟨hfit, rfl⟩ := endOk_eq_next.1 h
    refine .done (encodeWords s.hashTable page).1 _ _ hfit fun _ => ?_
    rw [encodedBuffer, bufferWords_length 4 (.inr rfl)]
    exact (encodeWords_encOk s.hashTable (readWords_length hpage).le).outLenOk

theorem outLenOk_page : OutLenOk (BitVec.ofNat 32 4096) := .inr (.inl rfl)

theorem decBegin_outcome {s t : State} {hw : Nat} (hhw : hw = 3 ∨ hw = 4) (hwork : s.work = .none)
    (hp : s.phase ≠ .idle) (hi : decodeCommand s.cmd = .ok (if hw = 4 then .decodeStd else .decodeAlt))
    (h : decBegin hw s = .next t) : BlockOutcome s t := by
  rcases decBegin_eq_next h with ⟨-, rfl⟩ | ⟨-, -, rfl⟩ | ⟨-, -, q, l, e, -, ⟨-, rfl⟩ | ⟨hb, w, hu, rfl⟩⟩
  · exact .error .inputError s.dict
  · exact .error .formatHeader s.dict
  · exact .error .formatHeader s.dict
  · obtain ⟨hdec, rfl⟩ := unpackStreams_decOk hhw hb hu
    refine .goesOn sentinelDict (.dec w) fun hok => (workOk_dec rfl).2 ⟨?_, hi, hdec⟩
    have hphase := hok.phase_started hwork hp hi
    split at hphase <;> exact hphase

theorem decEnd_outcome {s t : State} {w : DecWork} (hwork : s.work = .dec w) (h : decEnd s = .next t) :
    BlockOutcome s t := by
  rw [decEnd_dec hwork] at h
  split at h
  · cases h
    exact .error .formatResidue s.dict
  · obtain ⟨hfit, rfl⟩ := endOk_eq_next.1 h
    exact .done s.dict w.out 4096 hfit fun _ => outLenOk_page

/-- A whole decode ends, in an error or with one page (R180 to R199). -/
theorem decCommand_outcome {hw : Nat} {s t : State} (h : decCommand hw s = .next t) : BlockOutcome s t := by
  rw [decCommand_eq] at h
  split at h
  · cases h
    exact .error .inputError s.dict
  split at h
  · cases h
    exact .error .formatHeader s.dict
  obtain ⟨header, -, h⟩ := andThen_eq_next.1 h
  split at h
  · cases h
    exact .error .formatHeader s.dict
  obtain ⟨w, -, h⟩ := andThen_eq_next.1 h
  unfold decodeEnd at h
  simp only at h
  split at h
  · cases h
    exact .error .formatUnderflow _
  split at h
  · cases h
    exact .error .formatResidue _
  · obtain ⟨hfit, rfl⟩ := endOk_eq_next.1 h
    exact .done _ _ 4096 hfit fun _ => outLenOk_page

/-- A completed tag goes on with the decode it belongs to. -/
theorem afterTag_outcome {s : State} {w w' : DecWork} (hwork : s.work = .dec w) (d : Dict) (hhw : w'.hw = w.hw)
    (h : DecOk w → DecOk w') : BlockOutcome s (afterTag s d w') := by
  refine .goesOn d (.dec w') fun hok => ?_
  obtain ⟨hphase, hcmd, hdec⟩ := (workOk_dec hwork).1 hok
  exact (workOk_dec rfl).2 ⟨hphase, hhw ▸ hcmd, h hdec⟩

/-- The tag at `t`: underflow, or its cursors moved and its word emitted (R192 to R197). -/
theorem execTag_outcome {s t : State} {w : DecWork} {tag : Tag} (hwork : s.work = .dec w) (ht : w.t < 1024)
    (htag : w.tags[w.t]? = some tag) (h : exec (decodeTag tag) s = .next t) : BlockOutcome s t := by
  rcases tag_cases tag with rfl | rfl | rfl | rfl
  · cases (execTagZero_dec hwork).symm.trans h
    exact afterTag_outcome hwork _ rfl fun hdec =>
      hdec.emitWord ht htag 0 rfl rfl rfl ⟨hdec.cfBound, hdec.cqBound, hdec.clBound⟩
  · rcases execTagPartial_dec hwork with ⟨-, e⟩ | ⟨q, lb, hq, hl, e⟩ <;> cases e.symm.trans h
    · exact .error .formatUnderflow s.dict
    · obtain ⟨hcq, -⟩ := List.getElem?_eq_some_iff.1 hq
      obtain ⟨hcl, -⟩ := List.getElem?_eq_some_iff.1 hl
      exact afterTag_outcome hwork _ rfl fun hdec => hdec.emitWord ht htag _ rfl rfl rfl ⟨hdec.cfBound, hcq, hcl⟩
  · rcases execTagMiss_dec hwork with ⟨-, e⟩ | ⟨v, hv, e⟩ <;> cases e.symm.trans h
    · exact .error .formatUnderflow s.dict
    · obtain ⟨hcf, -⟩ := List.getElem?_eq_some_iff.1 hv
      exact afterTag_outcome hwork _ rfl fun hdec =>
        hdec.emitWord ht htag _ rfl rfl rfl ⟨hcf, hdec.cqBound, hdec.clBound⟩
  · rcases execTagExact_dec hwork with ⟨-, e⟩ | ⟨q, hq, e⟩ <;> cases e.symm.trans h
    · exact .error .formatUnderflow s.dict
    · obtain ⟨hcq, -⟩ := List.getElem?_eq_some_iff.1 hq
      exact afterTag_outcome hwork _ rfl fun hdec =>
        hdec.emitWord ht htag _ rfl rfl rfl ⟨hdec.cfBound, hcq, hdec.clBound⟩

theorem fetch_dec {s : State} {w : DecWork} (hp : s.phase ≠ .idle) (hwork : s.work = .dec w) :
    fetch s = if w.t < 1024 then (w.tags[w.t]?).map decodeTag else none := by
  unfold fetch
  cases h : s.phase with
  | idle => exact absurd h hp
  | encRun | decRun => simp [hwork]

/-- What is fetched: a started command from CMD, or the tag at `t` of a running decode (R192, R252). -/
theorem fetch_eq_some {s : State} {i : Instr} (h : fetch s = some i) :
    (s.work = .none ∧ s.phase ≠ .idle ∧ decodeCommand s.cmd = .ok i) ∨
    ∃ w tag, s.work = .dec w ∧ w.t < 1024 ∧ w.tags[w.t]? = some tag ∧ i = decodeTag tag := by
  have hp : s.phase ≠ .idle := fun hp => by simp [fetch, hp] at h
  cases hwork : s.work with
  | none =>
    cases hd : decodeCommand s.cmd with
    | ok j =>
      cases (fetch_started hp hwork hd).symm.trans h
      exact .inl ⟨rfl, hp, rfl⟩
    | error e => simp [fetch, hwork, hd, Except.toOption] at h
  | enc w => cases (fetch_enc hwork).symm.trans h
  | dec w =>
    rw [fetch_dec hp hwork] at h
    split at h
    next ht =>
      obtain ⟨tag, htag, rfl⟩ := Option.map_eq_some_iff.1 h
      exact .inr ⟨w, tag, rfl, ht, htag, rfl⟩
    · cases h

theorem internalWork_outcome {s t : State} (h : internalWork s = .next t) : BlockOutcome s t := by
  unfold internalWork at h
  split at h
  · cases h
    exact .unchanged
  · cases h
    exact .error .illegalCmd s.dict
  next w hwork _ =>
    split at h
    next hpc => exact encStep_outcome hwork hpc h
    · exact encEnd_outcome hwork h
  next w hwork _ =>
    split at h
    · cases h
    · exact decEnd_outcome hwork h

/-- The block's turn, a whole instruction at a time (R259). -/
theorem blockTurn_outcome {s t : State} (h : blockTurn s = .next t) : BlockOutcome s t := by
  unfold blockTurn at h
  split at h
  next i hf =>
    rcases fetch_eq_some hf with ⟨-, -, hd⟩ | ⟨w, tag, hwork, ht, htag, rfl⟩
    · rcases decodeCommand_isCommand hd with rfl | rfl | rfl
      · exact execEncode_outcome h
      · exact decCommand_outcome (hw := 4) h
      · exact decCommand_outcome (hw := 3) h
    · exact execTag_outcome hwork ht htag h
  · exact internalWork_outcome h

/-- A tag is one unit of the block's work (log 3). -/
theorem beginCommand_decodeTag (tag : Tag) (s : State) : beginCommand (decodeTag tag) s = exec (decodeTag tag) s := by
  rcases tag_cases tag with rfl | rfl | rfl | rfl <;> rfl

/-- The block's turn, one unit at a time (log 3). -/
theorem blockUnit_outcome {s t : State} (h : blockUnit s = .next t) : BlockOutcome s t := by
  unfold blockUnit at h
  split at h
  next i hf =>
    rcases fetch_eq_some hf with ⟨hwork, hp, hd⟩ | ⟨w, tag, hwork, ht, htag, rfl⟩
    · rcases decodeCommand_isCommand hd with rfl | rfl | rfl
      · exact encBegin_outcome hwork hp hd h
      · exact decBegin_outcome (.inr rfl) hwork hp hd h
      · exact decBegin_outcome (.inl rfl) hwork hp hd h
    · rw [beginCommand_decodeTag] at h
      exact execTag_outcome hwork ht htag h
  · exact internalWork_outcome h

/-- One round of a poll reads STATUS and is over, or is the block's turn (R85, log 13). -/
theorem pollRound_eq_next {rest : List Input} {s t : State} (h : pollRound rest s = .next t) :
    t = logRead s.status (s.setInputs rest) ∨ blockTurn s = .next t := by
  unfold pollRound at h
  split at h
  · cases h
    exact .inl rfl
  · exact .inr h

/-! ### Who writes the registers and the windows -/

/-- OUT stays, or changes at an end without error, which leaves the block IDLE with DONE alone set (R56, R228). -/
def OutKeptOrGoodEnd (s t : State) : Prop :=
  t.outMem ≠ s.outMem → isBusy t = false ∧ t.status = 0x00000002 ∧ t.phase = .idle

theorem BlockOutcome.outKeptOrGoodEnd {s t : State} (h : BlockOutcome s t) : OutKeptOrGoodEnd s t := by
  cases h with
  | unchanged => exact fun hne => absurd rfl hne
  | goesOn d w hw => exact fun hne => absurd rfl hne
  | error e d => exact fun hne => absurd rfl hne
  | done d ws n hfit hn => exact fun _ => ⟨busyBit_ended .none, rfl, rfl⟩

theorem startCommand_outMem (c : Word) (s : State) : (startCommand c s).outMem = s.outMem := by
  cases h : decodeCommand c with
  | ok i => rw [startCommand_legal h]; rfl
  | error e => rw [startCommand_illegal h]; rfl

/-- The host cannot write OUT (R59). -/
theorem hostAccess_outMem {a : HostAccess} {s t : State} (h : hostAccess a s = .next t) : t.outMem = s.outMem := by
  rcases hostAccess_eq_next h with ⟨v, rfl⟩ | ⟨off, size, v, h⟩
  · rfl
  rcases writeOffset_eq_next h with rfl | rfl | rfl | ⟨m, rfl⟩
  · rfl
  · exact startCommand_outMem v s
  · rfl
  · rfl

/-- What only the host writes: CMD, IN_LEN and IN (R21, R23, R55). -/
def HostSideKept (s t : State) : Prop := t.cmd = s.cmd ∧ t.inLen = s.inLen ∧ t.inMem = s.inMem

theorem BlockFrame.hostSideKept {s t : State} (h : BlockFrame s t) : HostSideKept s t := ⟨h.cmd, h.inLen, h.inMem⟩

/-- Settles O10, by the kind of turn: the block's work keeps its frame and writes OUT at a good end only, and a host
access does not write OUT. -/
theorem onlyRuledAgentsWrite : Obligations.OnlyRuledAgentsWrite := by
  intro s t h hreset
  rcases step_cases s with ⟨-, e⟩ | ⟨rest, -, e⟩ | ⟨rest, -, e⟩ | ⟨a, rest, ha, e⟩ | ⟨rest, hr, -⟩
  · rw [e] at h
    exact ⟨fun _ => (blockTurn_keepsFrame s t h).hostSideKept, (blockTurn_outcome h).outKeptOrGoodEnd⟩
  · rw [e] at h
    exact ⟨fun _ => (blockUnit_keepsFrame _ t h).hostSideKept, (blockUnit_outcome h).outKeptOrGoodEnd⟩
  · rw [e] at h
    rcases pollRound_eq_next h with rfl | h
    · exact ⟨fun _ => ⟨rfl, rfl, rfl⟩, fun hne => absurd rfl hne⟩
    · exact ⟨fun _ => (blockTurn_keepsFrame s t h).hostSideKept, (blockTurn_outcome h).outKeptOrGoodEnd⟩
  · rw [e] at h
    exact ⟨fun hno => absurd ha (hno a rest), fun hne => absurd (hostAccess_outMem h) hne⟩
  · exact absurd hr (hreset rest)

/-! ### Every step keeps the invariant -/

theorem statusOk_running : StatusOk statusRunning where
  reservedLow := by decide
  reservedHigh := by decide
  exclusive := by decide
  code := by decide
  codeWhenDone := by decide

theorem statusOk_ended (e : ErrCode) : StatusOk (statusEnded e) := by
  constructor <;> cases e <;> decide

/-- Bytes written below the capacity keep the window's canonical form (R52). -/
theorem WindowOk.writeRun {cap : Nat} {m : Memory} (h : WindowOk cap m) {off : Nat} {bytes : List Byte}
    (hfit : off + bytes.length ≤ cap) : WindowOk cap (Machine.writeRun m off bytes) where
  sorted := writeRun_wf h.sorted off bytes
  bounded := fun c hc => by
    rcases mem_writeRun hc with hc | hc
    · exact h.bounded c hc
    · omega

section StateInv
variable {s : State} (h : StateInv s)
include h

/-- While no command runs the block is IDLE and has no working state (R32). -/
theorem StateInv.idle_work (hidle : isBusy s = false) : s.phase = .idle ∧ s.work = .none :=
  ⟨h.idle.2 hidle, h.work.work_idle (h.idle.2 hidle)⟩

theorem StateInv.setInputs (l : List Input) : StateInv (s.setInputs l) := { h with }

theorem StateInv.logRead (v : Word) : StateInv (Machine.logRead v s) := { h with }

theorem StateInv.setInLen (v : Word) : StateInv (s.setInLen v) := { h with }

theorem StateInv.setInMem {m : Memory} (hm : WindowOk s.params.inCap m) : StateInv (s.setInMem m) :=
  { h with inWindow := hm }

theorem StateInv.commitOut {ws : List Word} (hfit : 4 * ws.length ≤ s.params.outCap) :
    StateInv (Machine.commitOut s ws) :=
  { h with outWindow := h.outWindow.writeRun (by simpa using hfit) }

theorem StateInv.goesOn {d : Dict} {w : Work} (hw : WorkOk ((s.setDict d).setWork w)) :
    StateInv ((s.setDict d).setWork w) :=
  { h with work := hw }

/-- A command's end with a legal length, which is 0 after an error (R227, R228). -/
theorem StateInv.endCommand (d : Dict) {e : ErrCode} {n : Nat} (hn : OutLenOk (BitVec.ofNat 32 n))
    (he : e = .none ∨ n = 0) : StateInv (Machine.endCommand e n (s.setDict d)) :=
  { h with
    status := statusOk_ended e
    outLen := hn
    outLenZero := by
      rcases he with rfl | rfl
      · simp [errValue]
      · exact fun _ => rfl
    idle := by simp
    work := fun hp => absurd rfl hp }

theorem StateInv.raiseError (e : ErrCode) (d : Dict) : StateInv (Machine.raiseError e (s.setDict d)) :=
  h.endCommand d (.inl rfl) (.inr rfl)

theorem StateInv.hardReset : StateInv (Machine.hardReset s) :=
  { h with
    status := statusOk_zero
    outLen := .inl rfl
    outLenZero := fun _ => rfl
    idle := ⟨fun _ => busyBit_zero, fun _ => rfl⟩
    inWindow := windowOk_empty _
    outWindow := windowOk_empty _
    work := fun hp => absurd rfl hp }

/-- Whatever the block's own turn leaves keeps the invariant. -/
theorem StateInv.blockOutcome {t : State} (ho : BlockOutcome s t) : StateInv t := by
  cases ho with
  | unchanged => exact h
  | goesOn d w hw => exact h.goesOn (hw h.work)
  | error e d => exact h.raiseError e d
  | done d ws n hfit hn => exact (h.commitOut hfit).endCommand d (hn h.work) (.inl rfl)

/-- A CMD write that starts a command, or ends at once with ILLEGAL_CMD (R221, R252). -/
theorem StateInv.startCommand (hidle : isBusy s = false) (c : Word) : StateInv (Machine.startCommand c s) := by
  obtain ⟨hphase, hwork⟩ := h.idle_work hidle
  cases hc : decodeCommand c with
  | ok i =>
    have hrun : phaseOf i ≠ .idle := by rcases decodeCommand_isCommand hc with rfl | rfl | rfl <;> decide
    rw [startCommand_legal hc]
    exact { h with
      status := statusOk_running
      outLen := .inl rfl
      outLenZero := fun _ => rfl
      idle := by simp [hrun]
      work := (workOk_none rfl).2 fun _ => by simp [hc, Except.toOption] }
  | error e =>
    have hlatch : StateInv (latchCommand c s) := { h with
      status := statusOk_zero
      outLen := .inl rfl
      outLenZero := fun _ => rfl
      idle := ⟨fun _ => busyBit_zero, fun _ => hphase⟩
      work := (workOk_none (s := latchCommand c s) hwork).2 fun hp => absurd hphase hp }
    rw [startCommand_illegal hc]
    exact hlatch.raiseError .illegalCmd s.dict

/-- A host access keeps the invariant. -/
theorem StateInv.hostAccess {a : HostAccess} {t : State} (ht : Machine.hostAccess a s = .next t) : StateInv t := by
  rcases hostAccess_eq_next ht with ⟨v, rfl⟩ | ⟨off, size, v, ht⟩
  · exact h.logRead v
  rcases writeOffset_served ht with rfl | ⟨hidle, rfl | rfl | ⟨at0, bytes, hfit, rfl⟩⟩
  · exact h
  · exact h.startCommand hidle v
  · exact h.setInLen v
  · exact h.setInMem (h.inWindow.writeRun hfit)

end StateInv

/-- Settles O7, by the kind of turn: the block's own turn, a host access and reset each keep the invariant. -/
theorem stepKeepsInvariant : Obligations.StepKeepsInvariant := by
  intro s t h ht
  rcases step_cases s with ⟨-, e⟩ | ⟨rest, -, e⟩ | ⟨rest, -, e⟩ | ⟨a, rest, -, e⟩ | ⟨rest, -, e⟩ <;> rw [e] at ht
  · exact h.blockOutcome (blockTurn_outcome ht)
  · exact (h.setInputs rest).blockOutcome (blockUnit_outcome ht)
  · rcases pollRound_eq_next ht with rfl | ht
    · exact (h.setInputs rest).logRead s.status
    · exact h.blockOutcome (blockTurn_outcome ht)
  · exact (h.setInputs rest).hostAccess ht
  · cases ht
    exact (h.setInputs rest).hardReset

end Sys2Proof.Machine


/-! PROOFS. The statements about the windows: which accesses are refused, what a permitted access to IN, OUT or a
reserved address does, and what a whole command can answer and leaves of the windows (R50 to R59, R229, R250). -/

namespace Sys2Proof.Machine

/-! ### Accesses that are refused -/

/-- A chain is refused where one of its parts is. -/
theorem andThen_eq_refused {α β : Type} {r : Result α} {f : α → Result β} {e : Refusal} :
    andThen r f = .refused e ↔ r = .refused e ∨ ∃ a, r = .next a ∧ f a = .refused e := by
  cases r <;> simp

/-- An access at an offset from BASE in a form that is not permitted is refused (R58). -/
theorem accessOffset_unpermitted (s : State) {off size : Nat} (h : ¬ accessPermitted off size) :
    accessOffset s (s.params.base + off) size = .refused .hostAccessForm := by
  unfold accessOffset
  rw [if_neg (by omega), Nat.add_sub_cancel_left, if_neg h]

/-- Settles O17: neither clause of the permitted forms holds, so the access has no offset to be served at. -/
theorem unpermittedAccessFormsRefused : Obligations.UnpermittedAccessFormsRefused := by
  intro s rest off size v hform haccess
  have hp : ¬ accessPermitted off size := by
    rintro (⟨hreg, hok⟩ | ⟨hwin, hok⟩) <;> rcases hform with ⟨hoff, hbad⟩ | ⟨hoff, hbad⟩
    · exact hbad hok
    · omega
    · omega
    · exact hbad hok
  have hrefused := accessOffset_unpermitted (s.setInputs rest) hp
  rcases haccess with hread | hwrite
  · rw [step_access hread]
    exact andThen_eq_refused.2 (.inl hrefused)
  · rw [step_access hwrite]
    exact andThen_eq_refused.2 (.inl hrefused)

/-! ### A write to IN -/

/-- A naturally aligned access of 1, 2 or 4 bytes at an offset of a window, which starts at a multiple of 4, is
permitted (R58). -/
theorem accessPermitted_window {at0 off size : Nat} (h0 : 0x100 ≤ at0) (h4 : at0 % 4 = 0)
    (hsize : size = 1 ∨ size = 2 ∨ size = 4) (ha : off % size = 0) : accessPermitted (at0 + off) size := by
  refine .inr ⟨by omega, hsize, ?_⟩
  rcases hsize with rfl | rfl | rfl <;> omega

/-- A write to a byte of IN by an idle block writes the data's bytes from there on, up to IN_CAP (R52, R59). -/
theorem writeOffset_inWindow {s : State} {off : Nat} (hidle : isBusy s = false) (hoff : off < 0x2000)
    (hcap : off < s.params.inCap) (size : Nat) (v : Word) :
    writeOffset (0x2000 + off) size v s
      = .next (s.setInMem (writeRun s.inMem off ((wordBytes size v).take (s.params.inCap - off)))) := by
  have hin : isInByte s.params (0x2000 + off) := by omega
  rw [writeOffset, if_neg (by omega), writeWindow, if_pos hin, hidle]
  simp

theorem wordBytes_getElem? {n j : Nat} (h : j < n) (w : Word) :
    (wordBytes n w)[j]? = some (w.extractLsb' (8 * j) 8) := by
  simp [wordBytes, h]

/-- Settles O18: the write puts in IN the run of the data's bytes that lie below IN_CAP. -/
theorem inWindowWriteIsLittleEndian : Obligations.InWindowWriteIsLittleEndian := by
  intro s rest off size v hidle hsize ha hoff hcap hwrite
  refine ⟨writeRun s.inMem off ((wordBytes size v).take (s.params.inCap - off)), ?_, fun j hj hin => ?_,
    fun a houtside => ?_⟩
  · rw [step_hostWrite hwrite (accessPermitted_window (by decide) rfl hsize ha),
      writeOffset_inWindow (s := s.setInputs rest) hidle hoff hcap]
    rfl
  · rw [memGet_writeRun, if_pos (by simp; omega), Nat.add_sub_cancel_left, List.getElem?_take_of_lt (by omega),
      wordBytes_getElem? hj]
  · rw [memGet_writeRun, if_neg (by simp; omega)]

/-! ### Reads outside the register window -/

/-- Byte `j` of a word joined from bytes, lowest first; the bytes it was not given are 0 (R53). -/
theorem joinBytes_extract (bs : List Byte) {j : Nat} (hj : j < 4) :
    (joinBytes bs).extractLsb' (8 * j) 8 = bs[j]?.getD 0 := by
  induction bs generalizing j with
  | nil => simp [joinBytes]
  | cons b rest ih =>
    apply BitVec.eq_of_getLsbD_eq
    intro i hi
    rw [joinBytes, BitVec.getLsbD_extractLsb', BitVec.getLsbD_or, BitVec.getLsbD_setWidth, BitVec.getLsbD_shiftLeft]
    cases j with
    | zero => simp [hi]; omega
    | succ j =>
      have hrest := congrArg (·.getLsbD i) (ih (show j < 4 by omega))
      have hb : b.getLsbD (8 * (j + 1) + i) = false := BitVec.getLsbD_of_ge _ _ (by omega)
      simp only [BitVec.getLsbD_extractLsb', hi, decide_true, Bool.true_and] at hrest
      rw [List.getElem?_cons_succ, ← hrest, hb, show 8 * (j + 1) + i - 8 = 8 * j + i by omega]
      simp [hi, show 8 * (j + 1) + i < 32 by omega, show ¬ 8 * (j + 1) + i < 8 by omega]

/-- A word joined from `n` bytes has no bit at or above `8 n` (R58). -/
theorem joinBytes_lt (bs : List Byte) : (joinBytes bs).toNat < 2 ^ (8 * bs.length) := by
  induction bs with
  | nil => decide
  | cons b rest ih =>
    rw [joinBytes, BitVec.toNat_or, List.length_cons, Nat.mul_add]
    refine Nat.or_lt_two_pow ?_ ?_
    · rw [BitVec.toNat_setWidth]
      exact (Nat.mod_le _ _).trans_lt (b.isLt.trans_le (Nat.pow_le_pow_right (by decide) (by omega)))
    · rw [BitVec.toNat_shiftLeft, Nat.shiftLeft_eq, Nat.pow_add]
      exact (Nat.mod_le _ _).trans_lt (Nat.mul_lt_mul_of_pos_right ih (by decide))

theorem readBytesAt_next {s : State} {n off : Nat} {f : Nat → Byte}
    (h : ∀ j < n, readByteAt s (off + j) = .next (f j)) : readBytesAt s off n = .next ((List.range n).map f) := by
  induction n generalizing off f with
  | zero => rfl
  | succ n ih =>
    have hrest := ih (off := off + 1) (f := fun j => f (j + 1)) fun j hj => by
      rw [Nat.add_assoc, Nat.add_comm 1 j]
      exact h (j + 1) (by omega)
    rw [readBytesAt, show readByteAt s off = .next (f 0) from h 0 (by omega), andThen_next, hrest, andThen_next,
      List.range_succ_eq_map, List.map_cons, List.map_map]
    rfl

/-- A read of bytes that have values logs them joined, lowest first (R53, R58). -/
theorem step_readBytes {s : State} {rest : List Input} {off size : Nat} (hread : HostReads s off size rest)
    (hp : accessPermitted off size) (hoff : 0x100 ≤ off) {f : Nat → Byte}
    (h : ∀ j < size, readByteAt (s.setInputs rest) (off + j) = .next (f j)) :
    step s = .next (logRead (joinBytes ((List.range size).map f)) (s.setInputs rest)) := by
  rw [step_hostRead hread hp, readOffset, if_neg (by omega), readBytesAt_next h]
  rfl

/-! ### Reads of IN and OUT -/

/-- One byte of a window of `cap` bytes with contents `m`: its value, a stop where it has none, or 0 at and beyond the
capacity (R52, R250). -/
def windowByte (cap : Nat) (m : Memory) (missing : Nat → Fault) (off : Nat) : Result Byte :=
  if off < cap then
    match memGet m off with
    | some b => .next b
    | none => .fault (missing off)
  else .next 0

/-- The value such a byte reads as where it has one. -/
def windowValue (cap : Nat) (m : Memory) (off : Nat) : Byte :=
  if off < cap then (memGet m off).getD 0 else 0

section WindowByte
variable {cap : Nat} {m : Memory} {missing : Nat → Fault} {off : Nat}

theorem windowByte_written {b : Byte} (h : off < cap) (hb : memGet m off = some b) :
    windowByte cap m missing off = .next b := by
  simp [windowByte, h, hb]

theorem windowByte_unwritten (h : off < cap) (hn : memGet m off = none) :
    windowByte cap m missing off = .fault (missing off) := by
  simp [windowByte, h, hn]

theorem windowByte_beyond (h : cap ≤ off) : windowByte cap m missing off = .next 0 := by
  simp [windowByte, h]

theorem windowValue_beyond (h : cap ≤ off) : windowValue cap m off = 0 := by
  simp [windowValue, h]

theorem windowByte_value (h : off < cap → memGet m off ≠ none) :
    windowByte cap m missing off = .next (windowValue cap m off) := by
  by_cases hcap : off < cap
  · obtain ⟨b, hb⟩ := Option.ne_none_iff_exists'.1 (h hcap)
    simp [windowByte_written hcap hb, windowValue, hcap, hb]
  · rw [windowByte_beyond (by omega), windowValue_beyond (by omega)]

end WindowByte

/-- Neither a byte of IN nor one of OUT: the address reads 0 (R52). -/
theorem readByteAt_reserved {s : State} {off : Nat} (hin : ¬ isInByte s.params off)
    (hout : ¬ isOutByte s.params off) : readByteAt s off = .next 0 := by
  rw [readByteAt, if_neg hin, if_neg hout]

theorem readByteAt_inWindow (s : State) {off : Nat} (h : off < 0x2000) :
    readByteAt s (0x2000 + off) = windowByte s.params.inCap s.inMem .inByteUnwritten off := by
  by_cases hcap : off < s.params.inCap
  · rw [readByteAt, if_pos (by omega), Nat.add_sub_cancel_left]
    cases hm : memGet s.inMem off with
    | none => rw [windowByte_unwritten hcap hm]
    | some b => rw [windowByte_written hcap hm]
  · rw [readByteAt_reserved (by omega) (by omega), windowByte_beyond (by omega)]

theorem readByteAt_outWindow (s : State) {off : Nat} (h : off < 0x2000) :
    readByteAt s (0x4000 + off) = windowByte s.params.outCap s.outMem .outByteUnwritten off := by
  by_cases hcap : off < s.params.outCap
  · rw [readByteAt, if_neg (by omega), if_pos (by omega), Nat.add_sub_cancel_left]
    cases hm : memGet s.outMem off with
    | none => rw [windowByte_unwritten hcap hm]
    | some b => rw [windowByte_written hcap hm]
  · rw [readByteAt_reserved (by omega) (by omega), windowByte_beyond (by omega)]

/-- The host finds at `at0` a window of `cap` bytes with contents `m`, above the register window and aligned, whatever
it does next. -/
structure WindowAt (s : State) (at0 cap : Nat) (m : Memory) (missing : Nat → Fault) : Prop where
  aboveRegisters : 0x100 ≤ at0
  aligned : at0 % 4 = 0
  byte : ∀ (rest : List Input), ∀ off < 0x2000,
    readByteAt (s.setInputs rest) (at0 + off) = windowByte cap m missing off

theorem windowAt_in (s : State) : WindowAt s 0x2000 s.params.inCap s.inMem .inByteUnwritten where
  aboveRegisters := by decide
  aligned := rfl
  byte := fun rest _ h => readByteAt_inWindow (s.setInputs rest) h

theorem windowAt_out (s : State) : WindowAt s 0x4000 s.params.outCap s.outMem .outByteUnwritten where
  aboveRegisters := by decide
  aligned := rfl
  byte := fun rest _ h => readByteAt_outWindow (s.setInputs rest) h

/-- Within the capacity a host read takes the window's bytes (R250). -/
theorem WindowAt.readBytesAt_eq {s : State} {at0 cap : Nat} {m : Memory} {missing : Nat → Fault}
    (hwin : WindowAt s at0 cap m missing) (rest : List Input) {n off : Nat} (hfit : off + n ≤ 0x2000)
    (hcap : off + n ≤ cap) : readBytesAt (s.setInputs rest) (at0 + off) n = readBytes missing m off n := by
  induction n generalizing off with
  | zero => rfl
  | succ n ih =>
    rw [readBytesAt, readBytes, hwin.byte rest off (by omega), Nat.add_assoc, ih (by omega) (by omega)]
    cases hm : memGet m off with
    | none => rw [windowByte_unwritten (by omega) hm]; rfl
    | some b => rw [windowByte_written (by omega) hm]; rfl

section WindowAt
variable {s : State} {at0 cap : Nat} {m : Memory} {missing : Nat → Fault} (hwin : WindowAt s at0 cap m missing)
  {rest : List Input} {off size : Nat} (hsize : size = 1 ∨ size = 2 ∨ size = 4) (ha : off % size = 0)
  (hfit : off + size ≤ 0x2000) (hread : HostReads s (at0 + off) size rest)
include hwin hsize ha hfit hread

/-- Bytes with values are returned lowest first, the upper bits 0 (R53, R58). -/
theorem WindowAt.step_values {f : Nat → Byte} (h : ∀ j < size, windowByte cap m missing (off + j) = .next (f j)) :
    ∃ v, step s = .next { s with inputs := rest, readLog := v :: s.readLog } ∧ v.toNat < 2 ^ (8 * size) ∧
      ∀ j < size, v.extractLsb' (8 * j) 8 = f j := by
  have habove := hwin.aboveRegisters
  refine ⟨joinBytes ((List.range size).map f), step_readBytes hread ?_ (by omega) fun j hj => ?_,
    by simpa using joinBytes_lt ((List.range size).map f), fun j hj => ?_⟩
  · exact accessPermitted_window habove hwin.aligned hsize ha
  · rw [Nat.add_assoc, hwin.byte rest _ (by omega), h j hj]
  · rw [joinBytes_extract _ (by omega)]
    simp [hj]

/-- A byte without a value stops the read (R250). -/
theorem WindowAt.step_unwritten (hcap : off + size ≤ cap) (h : ∃ j, j < size ∧ memGet m (off + j) = none) :
    ∃ k, step s = .fault (missing k) := by
  obtain ⟨j, hj, hnone⟩ := h
  have habove := hwin.aboveRegisters
  rw [step_hostRead hread (accessPermitted_window habove hwin.aligned hsize ha), readOffset, if_neg (by omega),
    hwin.readBytesAt_eq rest hfit hcap]
  cases hr : readBytes missing m off size with
  | next bs =>
    obtain ⟨hlen, hbs⟩ := readBytes_eq_next.1 hr
    exact absurd (List.getElem?_eq_none_iff.1 ((hbs j hj).symm.trans hnone)) (by omega)
  | fault e =>
    obtain ⟨k, -, -, -, rfl⟩ := readBytes_fault hr
    exact ⟨k, rfl⟩
  | refused e => exact absurd hr readBytes_ne_refused

/-- A read across the capacity, its bytes below it written, returns 0 in those beyond (R52). -/
theorem WindowAt.step_across (h : ∀ j, j < size → off + j < cap → memGet m (off + j) ≠ none) :
    ∃ v, step s = .next { s with inputs := rest, readLog := v :: s.readLog } ∧
      ∀ j, j < size → cap ≤ off + j → v.extractLsb' (8 * j) 8 = 0 := by
  obtain ⟨v, hstep, -, hv⟩ := hwin.step_values hsize ha hfit hread (f := fun j => windowValue cap m (off + j))
    fun j hj => windowByte_value (h j hj)
  exact ⟨v, hstep, fun j hj hbeyond => (hv j hj).trans (windowValue_beyond hbeyond)⟩

end WindowAt

/-- Settles O19: both windows are read byte by byte, and within the capacity each byte has its value or stops the
read. -/
theorem windowReadsAreLittleEndian : Obligations.WindowReadsAreLittleEndian := by
  intro s rest off size hsize ha hfit
  refine ⟨fun hcap hread => ⟨fun f hf => ?_, fun hnone => ?_⟩, fun hcap hread => ⟨fun f hf => ?_, fun hnone => ?_⟩⟩
  · exact (windowAt_in s).step_values hsize ha hfit hread fun j hj => windowByte_written (by omega) (hf j hj)
  · exact (windowAt_in s).step_unwritten hsize ha hfit hread hcap hnone
  · exact (windowAt_out s).step_values hsize ha hfit hread fun j hj => windowByte_written (by omega) (hf j hj)
  · exact (windowAt_out s).step_unwritten hsize ha hfit hread hcap hnone

/-! ### Reads of reserved addresses -/

theorem joinBytes_zeros (n : Nat) : joinBytes (List.replicate n 0) = 0 := by
  induction n with
  | zero => rfl
  | succ n ih => rw [List.replicate_succ, joinBytes, ih]; rfl

/-- A reserved address outside the register window: below IN, at or beyond a capacity, or above OUT (R52). -/
def ReservedOffset (p : Params) (off : Nat) : Prop :=
  (0x100 ≤ off ∧ off < 0x2000) ∨ (0x2000 + p.inCap ≤ off ∧ off < 0x4000) ∨
    (0x4000 + p.outCap ≤ off ∧ off < 0x6000) ∨ 0x6000 ≤ off

/-- A naturally aligned access that starts at a reserved address ends before the next window. -/
theorem ReservedOffset.access {p : Params} {off size : Nat} (h : ReservedOffset p off)
    (hsize : size = 1 ∨ size = 2 ∨ size = 4) (ha : off % size = 0) {j : Nat} (hj : j < size) :
    ¬ isInByte p (off + j) ∧ ¬ isOutByte p (off + j) := by
  unfold ReservedOffset at h
  rcases hsize with rfl | rfl | rfl <;> omega

theorem step_readReserved {s : State} {rest : List Input} {off size : Nat} (h : ReservedOffset s.params off)
    (hsize : size = 1 ∨ size = 2 ∨ size = 4) (ha : off % size = 0) (hread : HostReads s off size rest) :
    step s = .next { s with inputs := rest, readLog := 0 :: s.readLog } := by
  have habove : 0x100 ≤ off := by
    unfold ReservedOffset at h
    omega
  rw [step_readBytes (f := fun _ => 0) hread (.inr ⟨habove, hsize, ha⟩) habove fun j hj =>
    readByteAt_reserved (h.access hsize ha hj).1 (h.access hsize ha hj).2, List.map_const', joinBytes_zeros]
  rfl

/-- Settles O20: every byte of a reserved access reads 0, and so do the bytes of a window access beyond its capacity. -/
theorem reservedAddressesReadZero : Obligations.ReservedAddressesReadZero := by
  intro s rest off size hsize ha
  refine ⟨fun hreserved hread => ?_, fun hfit hread hwritten => ?_, fun hfit hread hwritten => ?_⟩
  · exact step_readReserved hreserved hsize ha hread
  · exact (windowAt_in s).step_across hsize ha hfit hread hwritten
  · exact (windowAt_out s).step_across hsize ha hfit hread hwritten

/-! ### What a whole command can answer -/

/-- A read of input bytes below `n`: a value, or a stop at one of them that has none (R250). -/
inductive InputRead (s : State) (n : Nat) {α : Type} : Result α → Prop
  | value (a : α) : InputRead s n (.next a)
  | unwritten (k : Nat) (hk : k < n) (hnone : memGet s.inMem k = none) : InputRead s n (.fault (.inByteUnwritten k))

section InputRead
variable {s : State} {n : Nat}

theorem InputRead.andThen {α β : Type} {r : Result α} {f : α → Result β} (hr : InputRead s n r)
    (hf : ∀ a, InputRead s n (f a)) : InputRead s n (andThen r f) := by
  cases hr with
  | value a => exact hf a
  | unwritten k hk hnone => exact .unwritten k hk hnone

theorem InputRead.ne_refused {α : Type} {r : Result α} (h : InputRead s n r) (e : Refusal) : r ≠ .refused e := by
  rintro rfl
  cases h

theorem le32_inputRead {k : Nat} (h : 4 * k + 4 ≤ n) : InputRead s n (le32 s k) := by
  cases hr : le32 s k with
  | next v => exact .value v
  | fault e =>
    obtain ⟨j, -, hj, hnone, rfl⟩ := le32_fault hr
    exact .unwritten j (by omega) hnone
  | refused e => exact absurd hr le32_ne_refused

theorem readWords_inputRead {m k : Nat} (h : 4 * (k + m) ≤ n) : InputRead s n (readWords s k m) := by
  induction m generalizing k with
  | zero => exact .value []
  | succ m ih =>
    exact (le32_inputRead (by omega)).andThen fun v => (ih (by omega)).andThen fun ws => .value (v :: ws)

/-- The header lies below `4 hw` (R185). -/
theorem readHeader_inputRead {hw : Nat} (h0 : 0 < hw) (h : 4 * hw ≤ n) : InputRead s n (readHeader hw s) :=
  (readWords_inputRead (by omega)).andThen fun _ => (le32_inputRead (by omega)).andThen fun _ =>
    (le32_inputRead (by omega)).andThen fun _ => (le32_inputRead (by omega)).andThen fun _ => .value _

/-- The sections of a valid header lie below IN_LEN (R186 to R190). -/
theorem unpackStreams_inputRead {hw : Nat} {h : Nat × Nat × Nat} (hb : ¬ headerBad hw (inWords s) h) :
    InputRead s s.inLen.toNat (unpackStreams hw h s) := by
  obtain ⟨q, l, e⟩ := h
  simp only [headerBad, inWords, Config.tagAreaWords, not_or, Nat.not_lt, Nat.max_le] at hb
  obtain ⟨⟨⟨hq, hl⟩, he⟩, hql, hle, hstart⟩ := hb
  unfold unpackStreams
  simp only [Config.tagAreaWords]
  exact (readWords_inputRead (by omega)).andThen fun _ => (readWords_inputRead (by omega)).andThen fun _ =>
    (readWords_inputRead (by omega)).andThen fun _ => (readWords_inputRead (by omega)).andThen fun _ => .value _

end InputRead

/-- What a command can answer: an error, a result of a legal number of words committed, a stop at an input byte without
a value (R250), or a stop for want of room (log 8). -/
inductive CommandAnswer (s : State) (legal : Nat → Prop) : Result State → Prop
  | error (e : ErrCode) (he : e ≠ .none) (d : Dict) : CommandAnswer s legal (.next (raiseError e (s.setDict d)))
  | done (d : Dict) (ws : List Word) (hfit : 4 * ws.length ≤ s.params.outCap) (hws : legal ws.length) :
      CommandAnswer s legal (.next (endCommand .none (4 * ws.length) (commitOut (s.setDict d) ws)))
  | unwritten (k : Nat) (hk : k < s.inLen.toNat) (hin : s.inLen.toNat ≤ s.params.inCap)
      (hnone : memGet s.inMem k = none) : CommandAnswer s legal (.fault (.inByteUnwritten k))
  | noRoom (n : Nat) (hroom : s.params.outCap < 4 * n) (hn : legal n) :
      CommandAnswer s legal (.fault (.outputBeyondWindow (4 * n)))

section CommandAnswer
variable {s : State} {legal : Nat → Prop}

/-- A command that reads its input and goes on with the value. -/
theorem InputRead.commandAnswer {α : Type} {r : Result α} {f : α → Result State}
    (hr : InputRead s s.inLen.toNat r) (hin : s.inLen.toNat ≤ s.params.inCap)
    (hf : ∀ a, r = .next a → CommandAnswer s legal (f a)) : CommandAnswer s legal (Machine.andThen r f) := by
  cases hr with
  | value a => exact hf a rfl
  | unwritten k hk hnone => exact .unwritten k hk hin hnone

/-- A good end, from the dictionary and working state the command has reached. -/
theorem endOk_commandAnswer (d : Dict) (w : Work) {ws : List Word} {n : Nat} (hn : n = 4 * ws.length)
    (hws : legal ws.length) : CommandAnswer s legal (endOk ws n ((s.setDict d).setWork w)) := by
  subst hn
  by_cases hfit : 4 * ws.length ≤ s.params.outCap
  · rw [endOk_fits (s := (s.setDict d).setWork w) hfit]
    exact .done d ws hfit hws
  · rw [endOk_overflows (s := (s.setDict d).setWork w) (Nat.lt_of_not_le hfit)]
    exact .noRoom ws.length (Nat.lt_of_not_le hfit) hws

end CommandAnswer

/-- The words of an encoded buffer (log 7). -/
def BufferWords (n : Nat) : Prop := 68 ≤ n ∧ n ≤ 1093

theorem encodedBuffer_bufferWords (table : HashTable) (lay : PackLayout) {page : List Word} (h : page.length = 1024) :
    BufferWords (encodedBuffer table lay page).length := by
  refine ⟨?_, encodedBuffer_length_le table lay h⟩
  rw [encodedBuffer, bufferWords_length 4 (.inr rfl)]
  simp only [bufferLength, sectionStarts, Config.tagAreaWords]
  omega

/-- ENCODE's answers (R150 to R162, R228). -/
theorem execEncode_answer (s : State) : CommandAnswer s BufferWords (execEncode s) := by
  rw [execEncode_eq]
  split
  · exact .error .inputError nofun s.dict
  next hlen =>
  push Not at hlen
  obtain ⟨hin, hpage⟩ := hlen
  refine (readWords_inputRead (by omega)).commandAnswer hin fun page hread => ?_
  exact endOk_commandAnswer _ _ rfl (encodedBuffer_bufferWords _ _ (readWords_length hread))

/-- The answers of a decode whose streams are unpacked (R197 to R199). -/
theorem decodeEnd_answer {s : State} {w : DecWork} (htags : w.tags.length = 1024) (ht : w.t = 0) (hout : w.out = []) :
    CommandAnswer s (· = 1024) (decodeEnd s w) := by
  unfold decodeEnd
  simp only
  split
  · exact .error .formatUnderflow nofun _
  next hunder =>
  split
  · exact .error .formatResidue nofun _
  have hlen : (walkPure s.hashTable 1024 sentinelDict w).2.2.out.length = 1024 := by
    simpa [hout] using (walkPure_advances 1024 sentinelDict w (by omega) (by simpa using hunder)).2
  exact endOk_commandAnswer _ _ (by rw [hlen]) hlen

/-- The answers of a decode of either layout (R180 to R199). -/
theorem decCommand_answer {hw : Nat} (h0 : 0 < hw) (s : State) : CommandAnswer s (· = 1024) (decCommand hw s) := by
  rw [decCommand_eq]
  split
  · exact .error .inputError nofun s.dict
  next hin =>
  split
  · exact .error .formatHeader nofun s.dict
  next hlen =>
  refine (readHeader_inputRead h0 (by omega)).commandAnswer (by omega) fun h _ => ?_
  split
  · exact .error .formatHeader nofun s.dict
  next hb =>
  refine (unpackStreams_inputRead hb).commandAnswer (by omega) fun w hw' => ?_
  obtain ⟨htags, ht, hout⟩ := unpackStreams_start hw'
  exact decodeEnd_answer htags ht hout

/-- The words a command's result can have. -/
def ResultWords (i : Instr) (n : Nat) : Prop := if i = .encode then BufferWords n else n = 1024

/-- Every command answers in one of the four ways. -/
theorem exec_answer {i : Instr} (hi : i.isCommand = true) (s : State) : CommandAnswer s (ResultWords i) (exec i s) := by
  cases i with
  | encode => exact execEncode_answer s
  | decodeStd => exact decCommand_answer (hw := 4) (by decide) s
  | decodeAlt => exact decCommand_answer (hw := 3) (by decide) s
  | tagZero | tagPartial | tagMiss | tagExact => cases hi

theorem ResultWords.bounds {i : Instr} {n : Nat} (h : ResultWords i n) : 68 ≤ n ∧ n ≤ 1093 := by
  unfold ResultWords at h
  split at h
  · exact h
  · omega

/-- OUT_LEN holds the length of any result (R24, log 7). -/
theorem ResultWords.outLen_toNat {i : Instr} {n : Nat} (h : ResultWords i n) :
    (BitVec.ofNat 32 (4 * n)).toNat = 4 * n := by
  have hn := h.bounds
  rw [BitVec.toNat_ofNat]
  omega

/-! ### What a whole command leaves of the windows -/

/-- Only the absence of an error has the code 0 (R220). -/
theorem errValue_ne_zero {e : ErrCode} (h : e ≠ .none) : errValue e ≠ 0 :=
  fun h0 => h (errValue_injective (f := .none) h0)

/-- Settles O32: ENCODE reads the page and stops at its end, where the buffer has no room. -/
theorem encodeStopsWhereTheBufferDoesNotFit : Obligations.EncodeStopsWhereTheBufferDoesNotFit := by
  intro s page hlen hcap hpage hheld buffer hroom
  have hread : readWords s 0 1024 = .next page := by
    rw [readWords_of_holds hheld (by omega), List.drop_zero, ← hpage, List.take_length]
  show execEncode s = _
  rw [execEncode_eq, if_neg (by omega), hread, andThen_next]
  exact endOk_overflows (s := afterEnc s _) hroom _

/-- Settles O53: of a command's answers two are stops, one for each of the two causes. -/
theorem commandFaultsAreUnwrittenBytesOrNoRoom : Obligations.CommandFaultsAreUnwrittenBytesOrNoRoom := by
  intro i s f hi hf
  have h := exec_answer hi s
  rw [hf] at h
  cases h with
  | unwritten k hk hin hnone => exact .inl ⟨k, rfl, hk, hin, hnone⟩
  | noRoom n hroom hn =>
    refine .inr ⟨4 * n, rfl, hroom, ?_⟩
    by_cases he : i = .encode <;> simp only [ResultWords, BufferWords, he, if_true, if_false] at hn ⊢ <;> omega

/-- Settles O55: of a command's answers two are next states, and a result is committed whole. -/
theorem outputIsAllOrNothing : Obligations.OutputIsAllOrNothing := by
  intro i s t hi ht
  have h := exec_answer hi s
  rw [ht] at h
  cases h with
  | error e he d => exact .inr ⟨(errField_ended e).trans_ne (errValue_ne_zero he), fun _ => rfl⟩
  | done d ws hfit hws =>
    obtain ⟨hheld, hkept⟩ := commitOut_holds (s.setDict d) ws
    exact .inl ⟨rfl, hws.outLen_toNat.trans_le hfit, ws, hws.outLen_toNat, hws.bounds.1, hheld, hkept⟩

/-- Settles O56: every instruction keeps the block's frame, and a command writes OUT only where it commits a result,
below the OUT_LEN it leaves. -/
theorem commandFrame : Obligations.CommandFrame := by
  intro i s t hi ht
  obtain ⟨hcmd, hinLen, hinMem, htable, hparams, hinputs, hlog⟩ := exec_keepsFrame i s t ht
  refine ⟨hcmd, hinLen, htable, hparams, hinputs, hlog, fun k => by rw [hinMem], fun k hk => ?_⟩
  have h := exec_answer hi s
  rw [ht] at h
  cases h with
  | error e he d => rfl
  | done d ws hfit hws => exact (commitOut_holds (s.setDict d) ws).2 k (hws.outLen_toNat.symm.trans_le hk)

/-! ### What the block refuses -/

theorem CommandAnswer.ne_refused {s : State} {legal : Nat → Prop} {r : Result State} (h : CommandAnswer s legal r)
    (e : Refusal) : r ≠ .refused e := by
  rintro rfl
  cases h

/-- A tag of a running decode is executed (R192). -/
theorem execTag_ne_refused {s : State} {w : DecWork} (hwork : s.work = .dec w) (tag : Tag) (e : Refusal) :
    exec (decodeTag tag) s ≠ .refused e := by
  intro h
  rcases tag_cases tag with rfl | rfl | rfl | rfl
  · cases (execTagZero_dec hwork).symm.trans h
  · rcases execTagPartial_dec hwork with ⟨-, he⟩ | ⟨q, lb, -, -, he⟩ <;> cases he.symm.trans h
  · rcases execTagMiss_dec hwork with ⟨-, he⟩ | ⟨v, -, he⟩ <;> cases he.symm.trans h
  · rcases execTagExact_dec hwork with ⟨-, he⟩ | ⟨q, -, he⟩ <;> cases he.symm.trans h

theorem decBegin_ne_refused {hw : Nat} (h0 : 0 < hw) (s : State) (e : Refusal) : decBegin hw s ≠ .refused e := by
  unfold decBegin
  split
  · nofun
  split
  · nofun
  refine andThen_ne_refused (readHeader_inputRead (n := 4 * hw) h0 le_rfl).ne_refused fun h => ?_
  split
  · nofun
  next hb => exact andThen_ne_refused (unpackStreams_inputRead hb).ne_refused nofun

theorem encBegin_ne_refused (s : State) (e : Refusal) : encBegin s ≠ .refused e := by
  rcases encBegin_cases s with ⟨-, h⟩ | ⟨-, -, h⟩ <;> rw [h] <;> nofun

/-- What is fetched is executed (R192, R252). -/
theorem exec_fetched_ne_refused {s : State} {i : Instr} (h : fetch s = some i) (e : Refusal) :
    exec i s ≠ .refused e := by
  rcases fetch_eq_some h with ⟨-, -, hd⟩ | ⟨w, tag, hwork, -, -, rfl⟩
  · rcases decodeCommand_isCommand hd with rfl | rfl | rfl <;> exact (exec_answer rfl s).ne_refused e
  · exact execTag_ne_refused hwork tag e

theorem beginCommand_fetched_ne_refused {s : State} {i : Instr} (h : fetch s = some i) (e : Refusal) :
    beginCommand i s ≠ .refused e := by
  rcases fetch_eq_some h with ⟨-, -, hd⟩ | ⟨w, tag, hwork, -, -, rfl⟩
  · rcases decodeCommand_isCommand hd with rfl | rfl | rfl
    · exact encBegin_ne_refused s e
    · exact decBegin_ne_refused (by decide) s e
    · exact decBegin_ne_refused (by decide) s e
  · rw [beginCommand_decodeTag]
    exact execTag_ne_refused hwork tag e

/-- A running decode has a tag to fetch until its 1024 tags are done, so the work between instructions is never refused
(R30). -/
theorem internalWork_ne_refused {s : State} (hok : WorkOk s) (hfetch : fetch s = none) (e : Refusal) :
    internalWork s ≠ .refused e := by
  by_cases hp : s.phase = .idle
  · simp [internalWork, hp]
  unfold internalWork
  split
  · nofun
  · nofun
  next w hwork _ =>
    split
    · rw [encStep, hwork]
      exact andThen_ne_refused (fun _ => le32_ne_refused) nofun
    · rw [encEnd_enc hwork]
      exact endOk_ne_refused
  next w hwork _ =>
    split
    next ht =>
      obtain ⟨-, -, hdec⟩ := (workOk_dec hwork).1 hok
      rw [fetch_dec hp hwork, if_pos ht, Option.map_eq_none_iff, List.getElem?_eq_none_iff, hdec.tags] at hfetch
      exact absurd ht (Nat.not_lt.2 hfetch)
    · rw [decEnd_dec hwork]
      split
      · nofun
      · exact endOk_ne_refused

theorem blockTurn_ne_refused {s : State} (hok : WorkOk s) (e : Refusal) : blockTurn s ≠ .refused e := by
  unfold blockTurn
  split
  next i hf => exact exec_fetched_ne_refused hf e
  next hf => exact internalWork_ne_refused hok hf e

theorem blockUnit_ne_refused {s : State} (hok : WorkOk s) (e : Refusal) : blockUnit s ≠ .refused e := by
  unfold blockUnit
  split
  next i hf => exact beginCommand_fetched_ne_refused hf e
  next hf => exact internalWork_ne_refused hok hf e

theorem accessOffset_eq_refused {s : State} {addr size : Nat} {r : Refusal}
    (h : accessOffset s addr size = .refused r) : r = .hostAccessForm ∨ r = .addressBelowBase := by
  unfold accessOffset at h
  split_ifs at h <;> cases h
  · exact .inr rfl
  · exact .inl rfl

theorem readByteAt_ne_refused (s : State) (off : Nat) (e : Refusal) : readByteAt s off ≠ .refused e := by
  unfold readByteAt
  split_ifs
  · cases memGet s.inMem (off - 0x2000) <;> nofun
  · cases memGet s.outMem (off - 0x4000) <;> nofun
  · nofun

theorem readBytesAt_ne_refused (s : State) (off n : Nat) (e : Refusal) : readBytesAt s off n ≠ .refused e := by
  induction n generalizing off e with
  | zero => nofun
  | succ n ih =>
    exact andThen_ne_refused (readByteAt_ne_refused s off) fun _ => andThen_ne_refused (ih (off + 1)) nofun

theorem readOffset_ne_refused (s : State) (off size : Nat) (e : Refusal) : readOffset s off size ≠ .refused e := by
  unfold readOffset
  split
  · nofun
  · exact andThen_ne_refused (readBytesAt_ne_refused s off size) nofun

/-- At a permitted offset only a write to IN_LEN or IN while a command runs is refused (R255). -/
theorem writeOffset_eq_refused {off size : Nat} {v : Word} {s : State} {r : Refusal}
    (h : writeOffset off size v s = .refused r) : r = .hostWriteWhileBusy ∧ isBusy s = true := by
  unfold writeOffset writeReg writeWindow at h
  split_ifs at h with _ _ _ _ hbusy _ hbusy <;> cases h <;> exact ⟨rfl, hbusy⟩

/-- Why a host access can be refused (R58, R255, log 9). -/
theorem hostAccess_eq_refused {a : HostAccess} {s : State} {r : Refusal} (h : hostAccess a s = .refused r) :
    r = .hostAccessForm ∨ r = .addressBelowBase ∨ (r = .hostWriteWhileBusy ∧ isBusy s = true) := by
  cases a with
  | read addr size =>
    rcases andThen_eq_refused.1 h with h | ⟨off, -, h⟩
    · exact (accessOffset_eq_refused h).imp_right .inl
    · exact absurd h (andThen_ne_refused (readOffset_ne_refused s off size) nofun)
  | write addr size data =>
    rcases andThen_eq_refused.1 h with h | ⟨off, -, h⟩
    · exact (accessOffset_eq_refused h).imp_right .inl
    · exact .inr (.inr (writeOffset_eq_refused h))

/-- Settles O8, by the kind of turn: the block's own turn is never refused, and neither is reset. -/
theorem onlyHostAccessesAreRefused : Obligations.OnlyHostAccessesAreRefused := by
  intro s r hinv h
  rcases step_cases s with ⟨-, e⟩ | ⟨rest, -, e⟩ | ⟨rest, -, e⟩ | ⟨a, rest, ha, e⟩ | ⟨rest, -, e⟩ <;> rw [e] at h
  · exact absurd h (blockTurn_ne_refused hinv.work r)
  · exact absurd h (blockUnit_ne_refused (hinv.setInputs rest).work r)
  · unfold pollRound at h
    split at h
    · cases h
    · exact absurd h (blockTurn_ne_refused hinv.work r)
  · exact ⟨a, rest, ha, hostAccess_eq_refused (s := s.setInputs rest) h⟩
  · cases h

end Sys2Proof.Machine

/-! PROOFS. The statements about the encodings: command words and tag codes (R70 to R73), what the host's poll and RUN
expand to (R85, R86), the layout of an encoded buffer (R74 to R77, R161), and the meaning of a tag program (R87, R192 to
R196). -/

namespace Sys2Proof.Machine

/-! ### Command words and tag codes -/

/-- A word is its reserved field above its OP field: the two cover it (R70). -/
theorem reservedField_append_opField (w : Word) : reservedField w ++ opField w = w :=
  (BitVec.extractLsb'_append_extractLsb'_eq_extractLsb' rfl).trans BitVec.extractLsb'_eq_self

/-- The decoder pins both fields of a command word, so it accepts no word but the command's own (R70, R71). -/
theorem encode_of_decodeCommand {w : Word} {i : Instr} (h : decodeCommand w = .ok i) : encode i = .command w := by
  unfold decodeCommand at h
  split_ifs at h with hr h1 h2 h3 <;> cases h <;> rw [← reservedField_append_opField w, hr]
  · rw [h1]; rfl
  · rw [h2]; rfl
  · rw [h3]; rfl

/-- Each of the four tag codes is its instruction's (R72, R73). -/
theorem encode_decodeTag (t : Tag) : encode (decodeTag t) = .tag t := by
  rcases tag_cases t with rfl | rfl | rfl | rfl <;> rfl

theorem decode_encode (i : Instr) : decode (encode i) = .ok i := by
  cases i <;> rfl

/-- Settles O1: what the decoder accepts is the instruction's own code, in either format, and it accepts every code. -/
theorem decodeIsInverseOfEncode : Obligations.DecodeIsInverseOfEncode := by
  intro c i
  constructor
  · intro h
    cases c with
    | command w => exact encode_of_decodeCommand h
    | tag t =>
      cases h
      exact encode_decodeTag t
  · rintro rfl
    exact decode_encode i

/-- Settles O2: the decoder evaluates to the instruction on each word of the table. -/
theorem tableWordsDecode : Obligations.TableWordsDecode := ⟨rfl, rfl, rfl, rfl, rfl, rfl, rfl⟩

/-- The illegal command words (R71). -/
theorem decodeCommand_eq_error_iff (w : Word) : (∃ e, decodeCommand w = .error e) ↔
    opField w = 0 ∨ 4 ≤ (opField w).toNat ∨ reservedField w ≠ 0 := by
  have hop : ∀ op : BitVec 4, op = 0 ∨ 4 ≤ op.toNat ↔ op ≠ 1 ∧ op ≠ 2 ∧ op ≠ 3 := by decide
  rw [← or_assoc, hop]
  unfold decodeCommand
  split_ifs <;> simp_all

/-- Settles O3: an illegal word is latched by the idle block and raises ILLEGAL_CMD in the same write. -/
theorem illegalCommandWordEndsAtOnce : Obligations.IllegalCommandWordEndsAtOnce := by
  refine ⟨decodeCommand_eq_error_iff, fun s rest c e hidle hwrite hc => ?_⟩
  rw [step_writeReg hwrite (by decide) rfl, writeReg_cmd_idle (s := s.setInputs rest) hidle, startCommand_illegal hc]
  rfl

/-! ### The poll -/

theorem step_poll {s : State} {rest : List Input} (h : s.inputs = .poll :: rest) : step s = pollRound rest s := by
  simp [step, turn, h]

theorem pollRound_done {s : State} (h : doneBit s.status = true) (rest : List Input) :
    pollRound rest s = .next (logRead s.status (s.setInputs rest)) := if_pos h

theorem pollRound_waiting {s : State} (h : doneBit s.status = false) (rest : List Input) :
    pollRound rest s = blockTurn s := by
  simp [pollRound, h]

/-- Settles O22: a round that finds DONE = 0 is the block's own turn, whose frame holds the schedule and the log. -/
theorem pollWaitsForDone : Obligations.PollWaitsForDone := by
  intro s rest hpoll
  rw [step_poll hpoll]
  refine ⟨fun hdone => pollRound_done hdone rest, fun hwaiting t ht => ?_⟩
  rw [pollRound_waiting hwaiting] at ht
  have hframe := blockTurn_keepsFrame s t ht
  exact ⟨hframe.inputs.trans hpoll, hframe.readLog⟩

/-! ### RUN -/

theorem decodeCommand_commandWord {i : Instr} (hi : i.isCommand = true) : decodeCommand (commandWord i) = .ok i := by
  cases i with
  | encode | decodeStd | decodeAlt => rfl
  | tagZero | tagPartial | tagMiss | tagExact => cases hi

theorem phaseOf_command {i : Instr} (hi : i.isCommand = true) :
    phaseOf i = if i = .encode then .encRun else .decRun := by
  cases i with
  | encode | decodeStd | decodeAlt => rfl
  | tagZero | tagPartial | tagMiss | tagExact => cases hi

/-- The block's turn runs a started command, whole (R252, R259). -/
theorem Started.blockTurn {s : State} {i : Instr} (h : Started i s) : blockTurn s = exec i s := by
  have hp : s.phase ≠ .idle := by
    rw [h.phase]
    rcases decodeCommand_isCommand h.latched with rfl | rfl | rfl <;> decide
  rw [Machine.blockTurn, fetch_started hp h.work h.latched]

/-- A command whose input bytes have values and whose longest result fits in OUT ends, with DONE = 1 (R226). -/
theorem exec_ends {i : Instr} {s : State} (hi : i.isCommand = true)
    (hread : s.inLen.toNat ≤ s.params.inCap → InReadable s s.inLen.toNat)
    (hroom : (if i = .encode then 4372 else 4096) ≤ s.params.outCap) :
    ∃ t, exec i s = .next t ∧ doneBit t.status = true := by
  have h := exec_answer hi s
  generalize exec i s = answer at h
  cases h with
  | error e he d => exact ⟨_, rfl, doneBit_ended e⟩
  | done d ws hfit hws => exact ⟨_, rfl, doneBit_ended .none⟩
  | unwritten k hk hin hnone =>
    obtain ⟨b, hb⟩ := hread hin k hk
    cases hb.symm.trans hnone
  | noRoom n hno hn =>
    by_cases he : i = .encode <;> simp only [ResultWords, BufferWords, he, if_true, if_false] at hn hroom <;> omega

/-- Settles O58, step by step: the two writes start the command, the poll's first round runs it, and its second finds
DONE = 1. -/
theorem runExpansionRunsTheCommand : Obligations.RunExpansionRunsTheCommand := by
  intro s rest i len hi hidle hinputs hread hroom started
  have hword := decodeCommand_commandWord hi
  obtain ⟨_, hlen, rfl, -⟩ := inLenReadsBackWhatIsWritten s _ len hidle hinputs
  have hcmd := cmdWriteStartsCommand
    { s with inputs := regWrite s.params.base .cmd (commandWord i) :: .poll :: rest, inLen := len }
    (.poll :: rest) (commandWord i) i hidle rfl hword
  have hstarted : Started i started := ⟨hword, rfl, (phaseOf_command hi).symm, rfl⟩
  obtain ⟨t, ht, hdone⟩ := exec_ends (s := started) hi hread hroom
  have hframe := exec_keepsFrame i started t ht
  have hrun : step started = .next t := by
    rw [step_poll (s := started) (rest := rest) rfl, pollRound_waiting (s := started) doneBit_running,
      hstarted.blockTurn, ht]
  have hstatus : step t = .next { t with inputs := rest, readLog := t.status :: s.readLog } := by
    rw [step_poll hframe.inputs, pollRound_done hdone, logRead, State.setInputs_readLog, hframe.readLog]
    rfl
  refine ⟨t, ht, ?_⟩
  calc stepN 4 s = stepN 3 _ := congrArg (andThen · (stepN 3)) hlen
    _ = stepN 2 started := congrArg (andThen · (stepN 2)) hcmd
    _ = stepN 1 t := congrArg (andThen · (stepN 1)) hrun
    _ = _ := congrArg (andThen · (stepN 0)) hstatus

/-! ### The sections of an encoded buffer -/

section Sections
variable {hw : Nat} (hhw : hw = 3 ∨ hw = 4) (lay : PackLayout) (tags : List Tag) (Q : List Slot) (L : List Low)
  (F : List Word)

theorem bufferWords_eq_append : bufferWords hw lay tags Q L F =
    headerWords hw (sectionStarts hw F.length Q.length L.length)
      ++ (pack2 lay tags ++ (F ++ (pack4 lay Q ++ pack10 L))) := by
  simp [bufferWords]

include hhw

theorem headerWords_length (starts : Nat × Nat × Nat) : (headerWords hw starts).length = hw := by
  rcases hhw with rfl | rfl <;> rfl

theorem bufferWords_take_header : (bufferWords hw lay tags Q L F).take hw
    = headerWords hw (sectionStarts hw F.length Q.length L.length) := by
  rw [bufferWords_eq_append, List.take_left' (headerWords_length hhw _)]

/-- The three offsets stand last in the header of either layout (R74, R75). -/
theorem bufferWords_drop_offsets : (bufferWords hw lay tags Q L F).drop (hw - 3) =
    BitVec.ofNat 32 (sectionStarts hw F.length Q.length L.length).1
      :: BitVec.ofNat 32 (sectionStarts hw F.length Q.length L.length).2.1
      :: BitVec.ofNat 32 (sectionStarts hw F.length Q.length L.length).2.2
      :: (pack2 lay tags ++ (F ++ (pack4 lay Q ++ pack10 L))) := by
  rw [bufferWords_eq_append]
  rcases hhw with rfl | rfl <;> rfl

/-- The tag area follows the header (R76). -/
theorem bufferWords_drop_header : (bufferWords hw lay tags Q L F).drop hw
    = pack2 lay tags ++ (F ++ (pack4 lay Q ++ pack10 L)) := by
  rw [bufferWords_eq_append, List.drop_left' (headerWords_length hhw _)]

/-- The full patterns follow the tag area (R76). -/
theorem bufferWords_drop_tags : (bufferWords hw lay tags Q L F).drop (hw + 64)
    = F ++ (pack4 lay Q ++ pack10 L) := by
  rw [← List.drop_drop, bufferWords_drop_header hhw, List.drop_left' (pack2_length lay tags)]

/-- The packed QPos begins where the header's first offset says (R161). -/
theorem bufferWords_drop_qposStart : (bufferWords hw lay tags Q L F).drop (hw + 64 + F.length)
    = pack4 lay Q ++ pack10 L := by
  rw [← List.drop_drop, bufferWords_drop_tags hhw, List.drop_left' rfl]

/-- The packed low bits begin where the header's second offset says, and end the buffer (R161). -/
theorem bufferWords_drop_lowStart :
    (bufferWords hw lay tags Q L F).drop (hw + 64 + F.length + ceilDiv Q.length 8) = pack10 L := by
  rw [← List.drop_drop, bufferWords_drop_qposStart hhw, List.drop_left' (pack4_length lay Q)]

end Sections

/-- Settles O33: each section is what is left of the buffer where the one before it ends. -/
theorem encodedBufferHasTheStandardLayout : Obligations.EncodedBufferHasTheStandardLayout := by
  intro table lay page w buffer q l e
  have hhw : 4 = 3 ∨ 4 = 4 := .inr rfl
  have hq : buffer.drop q = pack4 lay w.Q ++ pack10 w.L := bufferWords_drop_qposStart hhw ..
  refine ⟨bufferWords_length 4 hhw .., bufferWords_take_header hhw .., ?_, ?_, ?_,
    bufferWords_drop_lowStart hhw ..⟩
  · rw [show buffer.drop 4 = _ from bufferWords_drop_header hhw .., List.take_left' (pack2_length lay w.tags)]
  · rw [show buffer.drop 68 = _ from bufferWords_drop_tags hhw .., Nat.add_sub_cancel_left, List.take_left' rfl]
  · rw [hq, Nat.add_sub_cancel_left]
    exact List.take_left' (pack4_length lay w.Q)

/-! ### Unpacking what was packed -/

/-- `ceil(n/k)` groups of `k` have room for `n` elements (R13). -/
theorem le_mul_ceilDiv (n : Nat) {k : Nat} (hk : 0 < k) : n ≤ k * ceilDiv n k := by
  unfold ceilDiv
  have := Nat.div_add_mod (n + k - 1) k
  have := Nat.mod_lt (n + k - 1) hk
  omega

/-! Each unpacker gives back what its packer was given, with the section's padding behind it (R130). -/

theorem unpack2_pack2 (lay : PackLayout) {tags : List Tag} (h : tags.length = 1024) :
    unpack2 lay (pack2 lay tags) = tags :=
  unpack_packed_chunks (pos2_ok lay) (by decide) 64 tags h

theorem unpack4_pack4 (lay : PackLayout) (q : List Slot) :
    unpack4 lay (pack4 lay q) = padTo (8 * ceilDiv q.length 8) q :=
  unpack_packed_chunks (pos4_ok lay) (by decide) _ _ (padTo_length _ _ (le_mul_ceilDiv _ (by decide)))

theorem unpack10_pack10 (l : List Low) : unpack10 (pack10 l) = padTo (3 * ceilDiv l.length 3) l :=
  unpack_packed_chunks pos10_ok (by decide) _ _ (padTo_length _ _ (le_mul_ceilDiv _ (by decide)))

/-! ### A decode of a buffer -/

theorem le32_of_getElem? {s : State} {ws : List Word} (h : Holds s.inMem (wordsBytes ws)) {k : Nat} {v : Word}
    (hv : ws[k]? = some v) : le32 s k = .next v := by
  obtain ⟨hk, rfl⟩ := List.getElem?_eq_some_iff.1 hv
  exact le32_of_holds h hk

/-- A window that holds a section's words at its offset answers them. -/
theorem readWords_of_drop {s : State} {ws : List Word} (h : Holds s.inMem (wordsBytes ws)) {k : Nat}
    {sec rest : List Word} (hsec : ws.drop k = sec ++ rest) : readWords s k sec.length = .next sec := by
  have hlen := congrArg List.length hsec
  rw [List.length_drop, List.length_append] at hlen
  by_cases h0 : sec = []
  · subst h0; rfl
  · have := List.length_pos_iff.2 h0
    rw [readWords_of_holds h (by omega), hsec, List.take_left]

/-- The header fields are the three words from `hw - 3` on, whatever stands before them (R185, R203). -/
theorem readHeader_of_drop {s : State} {ws rest : List Word} {hw : Nat} {q l e : Word} (hhw : 3 ≤ hw)
    (h : Holds s.inMem (wordsBytes ws)) (hws : ws.drop (hw - 3) = q :: l :: e :: rest) :
    readHeader hw s = .next (q.toNat, l.toNat, e.toNat) := by
  have hlen := congrArg List.length hws
  simp only [List.length_drop, List.length_cons] at hlen
  have hk : ∀ j, ws[hw - 3 + j]? = (q :: l :: e :: rest)[j]? := fun j => by rw [← hws, List.getElem?_drop]
  unfold readHeader
  rw [readWords_of_holds h (by omega), andThen_next, le32_of_getElem? (k := hw - 3) h (hk 0), andThen_next,
    show hw - 2 = hw - 3 + 1 by omega, le32_of_getElem? h (hk 1), andThen_next,
    show hw - 1 = hw - 3 + 2 by omega, le32_of_getElem? h (hk 2), andThen_next]

/-- The decoder's working state before the first tag of a buffer assembled from these tags and streams: the slot numbers
and low-bits values come with their section's padding (R187 to R191). -/
def unpackedWork (hw : Nat) (tags : List Tag) (Q : List Slot) (L : List Low) (F : List Word) : DecWork where
  hw := hw
  qposStart := (sectionStarts hw F.length Q.length L.length).1
  lowStart := (sectionStarts hw F.length Q.length L.length).2.1
  lowEnd := (sectionStarts hw F.length Q.length L.length).2.2
  tags := tags
  F := F
  Q := padTo (8 * ceilDiv Q.length 8) Q
  L := padTo (3 * ceilDiv L.length 3) L
  cf := 0
  cq := 0
  cl := 0
  t := 0
  out := []

section Buffer
variable {s : State} {hw : Nat} (hhw : hw = 3 ∨ hw = 4) {tags : List Tag} {Q : List Slot} {L : List Low}
  {F : List Word} (hheld : Holds s.inMem (wordsBytes (bufferWords hw s.params.packLayout tags Q L F)))
include hhw hheld

/-- A header that fits in IN is read as the section offsets it was made from (R77, R185). -/
theorem readHeader_buffer (hlen : bufferLength hw Q L F < 2 ^ 32) :
    readHeader hw s = .next (sectionStarts hw F.length Q.length L.length) := by
  rw [readHeader_of_drop (by omega) hheld (bufferWords_drop_offsets hhw ..)]
  simp only [bufferLength, sectionStarts] at hlen ⊢
  simp only [BitVec.toNat_ofNat]
  rw [Nat.mod_eq_of_lt, Nat.mod_eq_of_lt, Nat.mod_eq_of_lt] <;> omega

/-- The decoder unpacks the tags and streams the buffer was packed from (R187 to R191). -/
theorem unpackStreams_buffer (htags : tags.length = 1024) :
    unpackStreams hw (sectionStarts hw F.length Q.length L.length) s = .next (unpackedWork hw tags Q L F) := by
  have htag := readWords_of_drop hheld (bufferWords_drop_header hhw ..)
  have hfull := readWords_of_drop hheld (bufferWords_drop_tags hhw ..)
  have hqpos := readWords_of_drop hheld (bufferWords_drop_qposStart hhw ..)
  have hlow := readWords_of_drop hheld ((bufferWords_drop_lowStart hhw ..).trans (List.append_nil _).symm)
  rw [pack2_length] at htag
  rw [pack4_length] at hqpos
  rw [pack10_length] at hlow
  unfold unpackStreams
  simp only [sectionStarts, Config.tagAreaWords, Nat.add_sub_cancel_left, htag, hfull, hqpos, hlow, andThen_next,
    unpack2_pack2 _ htags, unpack4_pack4, unpack10_pack10]
  rfl

/-- A decode of a buffer assembled from 1024 tags and their streams passes its checks and walks over them (R182 to
R191). -/
theorem decCommand_buffer (htags : tags.length = 1024) (hlen : 4 * bufferLength hw Q L F ≤ s.inLen.toNat)
    (hin : s.inLen.toNat ≤ s.params.inCap) : decCommand hw s = decodeEnd s (unpackedWork hw tags Q L F) := by
  have hlt := s.inLen.isLt
  have hgood : ¬ headerBad hw (inWords s) (sectionStarts hw F.length Q.length L.length) := by
    simp only [bufferLength, headerBad, inWords, sectionStarts, Config.tagAreaWords] at hlen ⊢
    omega
  have hshort : ¬ s.inLen.toNat < 4 * hw := by
    simp only [bufferLength, sectionStarts] at hlen
    omega
  rw [decCommand_eq, if_neg (by omega), if_neg hshort, readHeader_buffer hhw hheld (by omega), andThen_next,
    if_neg hgood, unpackStreams_buffer hhw hheld htags, andThen_next]

end Buffer

/-! ### The walk over a tag program -/

/-- The working state after a tag that emits `v`: each cursor moved over the tag's own operands (R192, R258). -/
def afterOp (op : TagOp) (v : Word) (w : DecWork) : DecWork :=
  emitWord v { w with cf := w.cf + (opF op).length, cq := w.cq + (opQ op).length, cl := w.cl + (opL op).length }

/-- What a decode still has before it: these tags at `t`, their operands at the cursors, and behind the operands of the
two packed streams nothing but zero padding (R87, R123, R126). -/
structure Ahead (ops : List TagOp) (padQ padL : Nat) (w : DecWork) : Prop where
  tags : w.tags.drop w.t = ops.map opTag
  full : w.F.drop w.cf = ops.flatMap opF
  qpos : w.Q.drop w.cq = ops.flatMap opQ ++ List.replicate padQ 0
  low : w.L.drop w.cl = ops.flatMap opL ++ List.replicate padL 0

theorem getElem?_of_drop {α : Type} {xs rest : List α} {n : Nat} {x : α} (h : xs.drop n = x :: rest) :
    xs[n]? = some x := by
  rw [← List.head?_drop, h, List.head?_cons]

/-- The tag at the head of a program takes its operands and has its effect (R193 to R196). -/
theorem tagPure_ahead {op : TagOp} {ops : List TagOp} {padQ padL : Nat} {w : DecWork}
    (h : Ahead (op :: ops) padQ padL w) (table : HashTable) (d : Dict) :
    tagPure table d w = (false, (opEffect table d op).1, afterOp op (opEffect table d op).2 w) := by
  obtain ⟨htags, hfull, hqpos, hlow⟩ := h
  have htag := getElem?_of_drop htags
  cases op with
  | zero => simp only [tagPure, htag]; rfl
  | exact q =>
    have hq := getElem?_of_drop hqpos
    simp only [tagPure, htag, hq]; rfl
  | partialWord q lb =>
    have hq := getElem?_of_drop hqpos
    have hl := getElem?_of_drop hlow
    simp only [tagPure, htag, hq, hl]; rfl
  | miss v =>
    have hv := getElem?_of_drop hfull
    simp only [tagPure, htag, hv]; rfl

/-- Behind a tag and its operands lies the rest of the program. -/
theorem Ahead.afterOp {op : TagOp} {ops : List TagOp} {padQ padL : Nat} {w : DecWork}
    (h : Ahead (op :: ops) padQ padL w) (v : Word) : Ahead ops padQ padL (afterOp op v w) where
  tags := by
    show w.tags.drop (w.t + 1) = _
    rw [← List.tail_drop, h.tags, List.map_cons, List.tail_cons]
  full := by
    show w.F.drop (w.cf + (opF op).length) = _
    rw [← List.drop_drop, h.full, List.flatMap_cons, List.drop_left]
  qpos := by
    show w.Q.drop (w.cq + (opQ op).length) = _
    rw [← List.drop_drop, h.qpos, List.flatMap_cons, List.append_assoc, List.drop_left]
  low := by
    show w.L.drop (w.cl + (opL op).length) = _
    rw [← List.drop_drop, h.low, List.flatMap_cons, List.append_assoc, List.drop_left]

/-- The walk over a tag program emits its words and consumes its operands (R192, R257). -/
theorem walkPure_ahead (table : HashTable) {ops : List TagOp} {padQ padL : Nat} (d : Dict) {w : DecWork}
    (h : Ahead ops padQ padL w) : ∃ d' w', walkPure table ops.length d w = (false, d', w') ∧
      w'.out = w.out ++ opWords table d ops ∧ Ahead [] padQ padL w' := by
  induction ops generalizing d w with
  | nil => exact ⟨d, w, rfl, (List.append_nil _).symm, h⟩
  | cons op ops ih =>
    obtain ⟨d', w', hwalk, hout, hend⟩ := ih (opEffect table d op).1 (h.afterOp (opEffect table d op).2)
    refine ⟨d', w', ?_, ?_, hend⟩
    · rw [List.length_cons, walkPure, tagPure_ahead h]
      exact hwalk
    · rw [hout, opWords]
      exact List.append_assoc ..

/-- Padding is no residue (R198). -/
theorem Ahead.hasResidue {padQ padL : Nat} {w : DecWork} (h : Ahead [] padQ padL w) : hasResidue w = false := by
  simp [Machine.hasResidue, h.full, h.qpos, h.low]

theorem opWords_length (table : HashTable) (d : Dict) (ops : List TagOp) :
    (opWords table d ops).length = ops.length := by
  induction ops generalizing d with
  | nil => rfl
  | cons op ops ih => rw [opWords, List.length_cons, ih, List.length_cons]

/-- A decode of an assembled program has the whole program before it (R87, R191). -/
theorem ahead_unpackedWork (hw : Nat) (ops : List TagOp) : ∃ padQ padL, Ahead ops padQ padL
    (unpackedWork hw (ops.map opTag) (ops.flatMap opQ) (ops.flatMap opL) (ops.flatMap opF)) :=
  ⟨_, _, rfl, rfl, rfl, rfl⟩

/-- Settles O46: the decoder unpacks what the program was assembled from, its walk emits the program's words, and only
padding is left at the end. -/
theorem decodeExecutesTagPrograms : Obligations.DecodeExecutesTagPrograms := by
  intro s i hw ops hi hops buffer hlen hin hheld hroom
  have hhw : hw = 3 ∨ hw = 4 := by omega
  have hexec : exec i s = decCommand hw s := by
    rcases hi with ⟨rfl, rfl⟩ | ⟨rfl, rfl⟩ <;> rfl
  have hn : ops.length = 1024 := of_decide_eq_true hops
  have hbuffer : buffer.length = _ := bufferWords_length hw hhw ..
  obtain ⟨padQ, padL, hahead⟩ := ahead_unpackedWork hw ops
  obtain ⟨d, w, hwalk, hout, hend⟩ := walkPure_ahead s.hashTable sentinelDict hahead
  rw [hn] at hwalk
  have hout : w.out = opWords s.hashTable sentinelDict ops := hout
  have hwords := opWords_length s.hashTable sentinelDict ops
  rw [← hout] at hwords ⊢
  obtain ⟨hholds, hkept⟩ := commitOut_holds s w.out
  refine ⟨d, _, ?_, hholds, fun k hk => hkept k (by omega)⟩
  rw [hexec, decCommand_buffer hhw hheld (by simpa using hn) (by omega) hin,
    decodeEnd_ok hwalk hend.hasResidue (by omega)]
  rfl

end Sys2Proof.Machine

/-! PROOFS. The hash lookup and the dictionary's operations on their own (R101 to R107). -/

namespace Sys2Proof.Machine

/-! ### The hash -/

/-- The ROM is read at the key alone (R102). -/
theorem hashSlot_congr {table : HashTable} {v w : Word} (h : hashKey v = hashKey w) :
    hashSlot table v = hashSlot table w := by
  simp only [hashSlot, h]

/-- A conforming table holds slot 0 at key 0 and nowhere else (R9), so the words of key 0 alone reach it (R103). -/
theorem hashSlot_eq_zero_iff {table : HashTable} (h : hashTableOk table = true) (w : Word) :
    hashSlot table w = 0 ↔ hashKey w = 0 := by
  have hentries : ∀ k : Fin 256, table[k] = 0 ↔ k.val = 0 := of_decide_eq_true h
  calc hashSlot table w = 0
    _ ↔ (hashKey w).toNat = 0 := hentries (hashKey w).toFin
    _ ↔ hashKey w = 0 := BitVec.toNat_inj (y := 0)

/-- Settles O23: the hash reads its word through the key `w[17:10]` alone, and key 0 is where the table holds slot 0. -/
theorem hashReadsBits17To10 : Obligations.HashReadsBits17To10 :=
  fun _ v _ => ⟨hashSlot_congr, fun hok => hashSlot_eq_zero_iff hok v⟩

/-! ### The dictionary -/

/-- The high bits are what a shift by 10 leaves (R7). -/
theorem highBits_eq_shift (w : Word) : highBits w = (w >>> 10).setWidth 22 :=
  BitVec.setWidth_ushiftRight_eq_extractLsb.symm

theorem dictLookup_congr {d e : Dict} {q r : Slot} (h : dictWord d q = dictWord e r) :
    dictLookup d q = dictLookup e r := by
  simp only [dictLookup, h]

/-- A lookup returns the slot's word and that word shifted by 10 (R105). -/
theorem dictLookup_of_dictWord {d : Dict} {q : Slot} {w : Word} (h : dictWord d q = w) :
    dictLookup d q = (w, (w >>> 10).setWidth 22) := by
  rw [dictLookup, h, highBits_eq_shift]

/-- DICT_INIT leaves the sentinel 1, whose high bits are 0, in every slot (R104). -/
theorem dictLookup_dictInit (s : State) (q : Slot) : dictLookup (dictInit s).dict q = (1, 0) :=
  dictLookup_of_dictWord (dictWord_sentinel q)

/-- Settles O24: a lookup is a function of the slot's word, which DICT_INIT sets to the sentinel and DICT_STORE changes
at its own slot alone. -/
theorem dictionaryStoreAndLookup : Obligations.DictionaryStoreAndLookup := by
  refine ⟨dictLookup_dictInit, fun d q r w => ⟨?_, fun hne => ?_⟩⟩
  · exact dictLookup_of_dictWord (dictWord_store_same d q w)
  · exact dictLookup_congr (dictWord_store_other d w hne.symm)

end Sys2Proof.Machine

/-! PROOFS. The bit-packing units on whole sections: where an element lies, and what packing and unpacking keep
(R120 to R131). -/

namespace Sys2Proof.Machine

/-! ### Where an element lies -/

/-- Element `a` of word `w` in a packed section (R120, R126). -/
theorem packed_section_element {k n : Nat} {pos : Nat → Nat} (ho : PosOk k pos n) (hk : k ≤ 32) {m : Nat}
    (xs : List (BitVec k)) {w a : Nat} (hw : w < m) (ha : a < n) :
    (((chunks n m xs).map (packWordFrom pos 0))[w]?).map (fun x => x.extractLsb' (pos a) k)
      = some (xs[n * w + a]?.getD 0) := by
  have hgroup : ((xs.drop (n * w)).take n).length ≤ n := by simp
  simp [chunks_getElem? n m xs w hw, packWordFrom_element ho hk _ hgroup a ha, ha]

/-- The elements appended as padding are 0 (R123, R126). -/
theorem padTo_getElem?_getD {k : Nat} (t : Nat) (xs : List (BitVec k)) (i : Nat) :
    (padTo t xs)[i]?.getD 0 = xs[i]?.getD 0 := by
  unfold padTo
  rcases Nat.lt_or_ge i xs.length with h | h
  · rw [List.getElem?_append_left h]
  · rw [List.getElem?_append_right h, List.getElem?_eq_none h, List.getElem?_replicate]
    split <;> rfl

/-- Tag `16w + j` lies at `POS2(j)` of word `w` (R121). -/
theorem pack2_element (lay : PackLayout) {tags : List Tag} (h : tags.length = 1024) {w j : Nat} (hw : w < 64)
    (hj : j < 16) : ((pack2 lay tags)[w]?).map (fun x => x.extractLsb' (pos2 lay j) 2) = tags[16 * w + j]? := by
  have hi : 16 * w + j < tags.length := by omega
  calc ((pack2 lay tags)[w]?).map (fun x => x.extractLsb' (pos2 lay j) 2)
    _ = some (tags[16 * w + j]?.getD 0) := packed_section_element (pos2_ok lay) (by decide) tags hw hj
    _ = tags[16 * w + j]? := by rw [List.getElem?_eq_getElem hi, Option.getD_some]

/-- Slot number `8w + j` lies at `POS4(j)` of word `w` (R123). -/
theorem pack4_element (lay : PackLayout) (q : List Slot) {w j : Nat} (hw : w < ceilDiv q.length 8) (hj : j < 8) :
    ((pack4 lay q)[w]?).map (fun x => x.extractLsb' (pos4 lay j) 4) = some (q[8 * w + j]?.getD 0) := by
  rw [← padTo_getElem?_getD (8 * ceilDiv q.length 8)]
  exact packed_section_element (pos4_ok lay) (by decide) _ hw hj

/-- Low-bits value `3g + k` lies at bit `10k` of word `g` (R126). -/
theorem pack10_element (l : List Low) {g k : Nat} (hg : g < ceilDiv l.length 3) (hk : k < 3) :
    ((pack10 l)[g]?).map (fun x => x.extractLsb' (pos10 k) 10) = some (l[3 * g + k]?.getD 0) := by
  rw [← padTo_getElem?_getD (3 * ceilDiv l.length 3)]
  exact packed_section_element pos10_ok (by decide) _ hg hk

/-! ### The bits beside the elements (R129) -/

/-- No group has more than `n` elements. -/
theorem length_le_of_mem_chunks {α : Type} {n m : Nat} {xs es : List α} (h : es ∈ chunks n m xs) : es.length ≤ n := by
  induction m generalizing xs with
  | zero => cases h
  | succ m ih =>
    rcases List.mem_cons.1 h with rfl | h
    · exact List.length_take_le n xs
    · exact ih h

/-- A bit that lies above every element of a packed word is 0. -/
theorem packWordFrom_bit_above {k b : Nat} {pos : Nat → Nat} (es : List (BitVec k)) (j : Nat)
    (h : ∀ a, j ≤ a → a < j + es.length → pos a + k ≤ b) : (packWordFrom pos j es).getLsbD b = false := by
  induction es generalizing j with
  | nil => simp [packWordFrom]
  | cons e rest ih =>
    rw [List.length_cons] at h
    have helem : e.getLsbD (b - pos j) = false := by
      have := h j (by omega) (by omega)
      exact BitVec.getLsbD_of_ge _ _ (by omega)
    have hrest := ih (j + 1) fun a hja ha => h a (by omega) (by omega)
    simp [packWordFrom, hrest, helem]

/-- PACK10 writes bits 31:30 as 0. -/
theorem pack10_topBits {l : List Low} {w : Word} (h : w ∈ pack10 l) : w.extractLsb' 30 2 = 0 := by
  obtain ⟨es, hes, rfl⟩ := List.mem_map.1 h
  have hlen : es.length ≤ 3 := length_le_of_mem_chunks hes
  apply BitVec.eq_of_getLsbD_eq
  intro t ht
  have hbit := packWordFrom_bit_above (pos := pos10) (b := 30 + t) es 0 fun a _ ha => by unfold pos10; omega
  simp [hbit]

/-- Unpacking reads no bit at or beyond a bound on its elements' ends. -/
theorem unpackWord_congr {k n bound : Nat} {pos : Nat → Nat} (hpos : ∀ a < n, pos a + k ≤ bound) {v w : Word}
    (h : ∀ b < bound, v.getLsbD b = w.getLsbD b) : unpackWord k pos n v = unpackWord k pos n w := by
  refine List.map_congr_left fun a ha => BitVec.eq_of_getLsbD_eq fun t ht => ?_
  have := hpos a (List.mem_range.1 ha)
  rw [BitVec.getLsbD_extractLsb', BitVec.getLsbD_extractLsb', h (pos a + t) (by omega)]

theorem lowBitsMask_bit : ∀ b < 30, (0x3FFFFFFF : Word).getLsbD b = true := by decide

/-- UNPACK10 does not read bits 31:30. -/
theorem unpack10_masked (ws : List Word) : unpack10 (ws.map (fun w => w &&& 0x3FFFFFFF)) = unpack10 ws := by
  have hword (w : Word) : unpackWord 10 pos10 3 (w &&& 0x3FFFFFFF) = unpackWord 10 pos10 3 w :=
    unpackWord_congr (bound := 30) (by decide) fun b hb => by
      rw [BitVec.getLsbD_and, lowBitsMask_bit b hb, Bool.and_true]
  simp only [unpack10, List.flatMap_map, hword]

/-! ### Packing what was unpacked (R130) -/

/-- PACK2 after UNPACK2 gives the 64 words back. -/
theorem pack2_unpack2 (lay : PackLayout) {ws : List Word} (h : ws.length = 64) : pack2 lay (unpack2 lay ws) = ws := by
  have hback := pack_unpacked_words (pos2_ok lay) (by decide) (pos2_covers lay) ws
  rwa [h] at hback

theorem ceilDiv_mul (m : Nat) {k : Nat} (hk : 0 < k) : ceilDiv (k * m) k = m := by
  rw [ceilDiv, Nat.add_sub_assoc hk, Nat.mul_add_div hk, Nat.div_eq_of_lt (Nat.sub_one_lt_of_lt hk), Nat.add_zero]

theorem padTo_of_length {k t : Nat} {xs : List (BitVec k)} (h : xs.length = t) : padTo t xs = xs := by
  simp [padTo, h]

/-- PACK4 after UNPACK4 gives the words back: a whole number of words needs no padding. -/
theorem pack4_unpack4 (lay : PackLayout) (ws : List Word) : pack4 lay (unpack4 lay ws) = ws := by
  simp only [pack4, unpack4_length, ceilDiv_mul _ (show 0 < 8 by decide), padTo_of_length (unpack4_length lay ws)]
  exact pack_unpacked_words (pos4_ok lay) (by decide) (pos4_covers lay) ws

/-! ### The statements -/

/-- Settles O25: every word of a section is packed from its own group, and a group's elements lie where the layout's
position function says. -/
theorem packersPlaceEveryElement : Obligations.PackersPlaceEveryElement := by
  refine ⟨fun lay tags h => ⟨pack2_length lay tags, fun w j hw hj => ⟨?_, ?_⟩⟩,
    fun lay q => ⟨pack4_length lay q, fun w j hw hj => ⟨?_, ?_⟩⟩,
    fun l => ⟨pack10_length l, fun g hg => ⟨fun k hk => pack10_element l hg hk, ?_⟩⟩⟩
  · rintro rfl
    exact pack2_element .interleaved h hw hj
  · rintro rfl
    exact pack2_element .sequential h hw hj
  · rintro rfl
    exact pack4_element .interleaved q hw hj
  · rintro rfl
    exact pack4_element .sequential q hw hj
  · have hlen : g < (pack10 l).length := (pack10_length l).symm ▸ hg
    rw [List.getElem?_eq_getElem hlen, Option.map_some, pack10_topBits (List.getElem_mem hlen)]

/-- Settles O26: each group survives its word because the positions do not overlap, and each word of the 2-bit and 4-bit
sections survives its group because the positions cover it. -/
theorem packUnpackRoundTrip : Obligations.PackUnpackRoundTrip := fun lay =>
  ⟨fun _ h => unpack2_pack2 lay h, unpack4_pack4 lay, unpack10_pack10, fun _ h => pack2_unpack2 lay h,
    pack4_unpack4 lay⟩

/-- Settles O27: the three values of a low-bits word end at bit 30. -/
theorem lowBitsTopBitsIgnored : Obligations.LowBitsTopBitsIgnored :=
  ⟨fun ws => (unpack10_masked ws).symm, fun _ _ => pack10_topBits⟩

end Sys2Proof.Machine

/-! PROOFS. The encoder: one element, the tags and streams of a page, and the length of its buffer (R150 to R166). -/

namespace Sys2Proof.Machine

/-! ### One word's classification -/

/-- Two words have the same high bits when a shift by 10 makes them equal (R7). -/
theorem highBits_eq_iff {v w : Word} : highBits v = highBits w ↔ v >>> 10 = w >>> 10 := by
  rw [highBits_eq_shift, highBits_eq_shift]
  refine ⟨fun h => BitVec.eq_of_toNat_eq ?_, congrArg _⟩
  have hnat := congrArg BitVec.toNat h
  simp only [BitVec.toNat_setWidth, BitVec.toNat_ushiftRight, Nat.shiftRight_eq_div_pow] at hnat ⊢
  omega

/-- The low bits are a word's low ten (R7). -/
theorem lowBits_eq_setWidth (v : Word) : lowBits v = v.setWidth 10 := BitVec.eq_of_toNat_eq rfl

section Classification
variable {table : HashTable} {v : Word} {d : Dict} (w : EncWork)

theorem encElement_exact (h : v = dictWord d (hashSlot table v)) :
    encElement table v (d, w) = (d, encExact (hashSlot table v) w) := if_pos h

theorem encElement_zero (h : v ≠ dictWord d (hashSlot table v)) (h0 : v = 0) :
    encElement table v (d, w) = (d, encZero w) := (if_neg h).trans (if_pos h0)

theorem encElement_partial (h : v ≠ dictWord d (hashSlot table v)) (h0 : v ≠ 0)
    (hhigh : highBits v = highBits (dictWord d (hashSlot table v))) : encElement table v (d, w)
      = (dictStore d (hashSlot table v) v, encPartial (hashSlot table v) v w) :=
  (if_neg h).trans ((if_neg h0).trans (if_pos hhigh))

theorem encElement_miss (h : v ≠ dictWord d (hashSlot table v)) (h0 : v ≠ 0)
    (hhigh : highBits v ≠ highBits (dictWord d (hashSlot table v))) :
    encElement table v (d, w) = (dictStore d (hashSlot table v) v, encMiss v w) :=
  (if_neg h).trans ((if_neg h0).trans (if_neg hhigh))

end Classification

theorem step_tick {s : State} {rest : List Input} (h : s.inputs = .tick :: rest) :
    step s = blockUnit (s.setInputs rest) := by
  simp [step, turn, h]

/-- ENCODE's unit of work before its end is ENC_STEP (R153). -/
theorem blockUnit_enc {s : State} {w : EncWork} (hp : s.phase = .encRun) (hwork : s.work = .enc w) (hi : w.i < 1024) :
    blockUnit s = encStep s := by
  simp [blockUnit, fetch_enc hwork, internalWork, hp, hwork, hi]

/-- ENC_STEP classifies the input word it reads (R153). -/
theorem encStep_read {s : State} {w : EncWork} {v : Word} (hwork : s.work = .enc w) (hv : le32 s w.i = .next v) :
    encStep s = .next (afterEnc s (encElement s.hashTable v (s.dict, w))) :=
  encStep_eq_next.2 ⟨w, v, hwork, hv, rfl⟩

/-- Settles O28: the tick is one ENC_STEP, and each guard picks its own branch of the classifier. -/
theorem encoderClassifiesEachWord : Obligations.EncoderClassifiesEachWord := by
  intro s w v rest hphase hwork hi hv hinputs slot found
  have hstep : step s = .next (afterEnc (s.setInputs rest) (encElement s.hashTable v (s.dict, w))) := by
    rw [step_tick hinputs, blockUnit_enc (s := s.setInputs rest) hphase hwork hi]
    exact encStep_read (s := s.setInputs rest) hwork hv
  refine ⟨fun h => ?_, fun h h0 => ?_, fun h h0 hhigh => ?_, fun h h0 hhigh => ?_⟩
  · rw [hstep, encElement_exact w h]
    rfl
  · rw [hstep, encElement_zero w h h0]
    rfl
  · rw [hstep, encElement_partial w h h0 (highBits_eq_iff.2 hhigh), ← lowBits_eq_setWidth]
    rfl
  · rw [hstep, encElement_miss w h h0 (hhigh ∘ highBits_eq_iff.1)]
    rfl

/-! ### The tag a word gets, and what its tag adds to the streams -/

/-- The tag of a word (R153, R158). -/
def encTag (table : HashTable) (d : Dict) (v : Word) : Tag :=
  if v = dictWord d (hashSlot table v) then codeExact
  else if v = 0 then codeZero
  else if highBits v = highBits (dictWord d (hashSlot table v)) then codePartial
  else codeMiss

/-- The dictionary after a word: stored in its slot exactly when it is not 0 (R159). -/
def encStore (table : HashTable) (d : Dict) (v : Word) : Dict :=
  if v = 0 then d else dictStore d (hashSlot table v) v

/-- The QPos element of a tagged word, if it has one (R154, R156). -/
def qposEntry (table : HashTable) (p : Word × Tag) : Option Slot :=
  if p.2 = codeExact ∨ p.2 = codePartial then some (hashSlot table p.1) else none

/-- The low-bits element of a tagged word, if it has one (R156). -/
def lowEntry (p : Word × Tag) : Option Low := if p.2 = codePartial then some (p.1.setWidth 10) else none

/-- The full pattern of a tagged word, if it has one (R157). -/
def fullEntry (p : Word × Tag) : Option Word := if p.2 = codeMiss then some p.1 else none

/-- The working state after these tagged words, in order: one tag each, and each stream's elements (R160). -/
def EncWork.addTagged (table : HashTable) (w : EncWork) (tagged : List (Word × Tag)) : EncWork where
  i := w.i + tagged.length
  tags := w.tags ++ tagged.map Prod.snd
  Q := w.Q ++ tagged.filterMap (qposEntry table)
  L := w.L ++ tagged.filterMap lowEntry
  F := w.F ++ tagged.filterMap fullEntry

theorem EncWork.addTagged_nil (table : HashTable) (w : EncWork) : w.addTagged table [] = w := by
  simp [addTagged]

theorem EncWork.addTagged_append (table : HashTable) (w : EncWork) (xs ys : List (Word × Tag)) :
    (w.addTagged table xs).addTagged table ys = w.addTagged table (xs ++ ys) := by
  simp [addTagged, Nat.add_assoc]

/-- Storing a slot's own word changes nothing (R154). -/
theorem dictStore_dictWord (d : Dict) (q : Slot) : dictStore d q (dictWord d q) = d := by
  simp [dictStore, dictWord]

section AddTagged
variable (table : HashTable) (w : EncWork) (v : Word)

/-! What one tag adds to the streams (R154 to R157). -/

theorem EncWork.addTagged_exact : w.addTagged table [(v, codeExact)] = encExact (hashSlot table v) w := by
  simp [addTagged, encExact, qposEntry, lowEntry, fullEntry, codeExact, codePartial, codeMiss]

theorem EncWork.addTagged_zero : w.addTagged table [(v, codeZero)] = encZero w := by
  simp [addTagged, encZero, qposEntry, lowEntry, fullEntry, codeZero, codeExact, codePartial, codeMiss]

theorem EncWork.addTagged_partial : w.addTagged table [(v, codePartial)] = encPartial (hashSlot table v) v w := by
  simp [addTagged, encPartial, qposEntry, lowEntry, fullEntry, lowBits_eq_setWidth, codePartial, codeMiss]

theorem EncWork.addTagged_miss : w.addTagged table [(v, codeMiss)] = encMiss v w := by
  simp [addTagged, encMiss, qposEntry, lowEntry, fullEntry, codeExact, codePartial, codeMiss]

end AddTagged

theorem encStore_of_eq_zero {v : Word} (h : v = 0) (table : HashTable) (d : Dict) : encStore table d v = d := if_pos h

theorem encStore_of_ne_zero {v : Word} (h : v ≠ 0) (table : HashTable) (d : Dict) :
    encStore table d v = dictStore d (hashSlot table v) v := if_neg h

/-- An EXACT word is in its slot already, so a store of it changes nothing (R154, R159). -/
theorem encStore_of_exact {table : HashTable} {d : Dict} {v : Word} (h : v = dictWord d (hashSlot table v)) :
    encStore table d v = d := by
  unfold encStore
  split
  · rfl
  · exact (congrArg (dictStore d _) h).trans (dictStore_dictWord d _)

/-- One element: the word is stored unless it is 0, and its tag adds what the tag stands for (R153 to R159). -/
theorem encElement_eq (table : HashTable) (v : Word) (d : Dict) (w : EncWork) :
    encElement table v (d, w) = (encStore table d v, w.addTagged table [(v, encTag table d v)]) := by
  rcases encElement_cases table v d w with ⟨h, e⟩ | ⟨h, h0, e⟩ | ⟨h, h0, hhigh, e⟩ | ⟨h, h0, hhigh, e⟩
  · have htag : encTag table d v = codeExact := if_pos h
    rw [e, htag, encStore_of_exact h, EncWork.addTagged_exact]
  · have htag : encTag table d v = codeZero := (if_neg h).trans (if_pos h0)
    rw [e, htag, encStore_of_eq_zero h0, EncWork.addTagged_zero]
  · have htag : encTag table d v = codePartial := (if_neg h).trans ((if_neg h0).trans (if_pos hhigh))
    rw [e, htag, encStore_of_ne_zero h0, EncWork.addTagged_partial]
  · have htag : encTag table d v = codeMiss := (if_neg h).trans ((if_neg h0).trans (if_neg hhigh))
    rw [e, htag, encStore_of_ne_zero h0, EncWork.addTagged_miss]

/-- Settles O29: the element's dictionary is a store of the word, or the old one where the word is 0. -/
theorem encoderStoresExactlyNonzeroWords : Obligations.EncoderStoresExactlyNonzeroWords := by
  intro table v d w r
  rw [encElement_eq]
  by_cases h0 : v = 0
  · rw [encStore_of_eq_zero h0, if_neg fun h => h.2 h0]
  rw [encStore_of_ne_zero h0]
  by_cases hr : r = hashSlot table v
  · rw [if_pos ⟨hr, h0⟩, hr, dictWord_store_same]
  · rw [if_neg fun h => hr h.1, dictWord_store_other _ _ (Ne.symm hr)]

/-! ### ENCODE as a command -/

/-- Settles O30: both length checks stand before any read of IN. -/
theorem badLengthIsInputError : Obligations.BadLengthIsInputError := by
  intro i s hi hlen
  cases i with
  | encode =>
    have hbad : s.params.inCap < s.inLen.toNat ∨ s.inLen.toNat ≠ 4096 := hlen.imp_right And.right
    exact (execEncode_eq s).trans (if_pos hbad)
  | decodeStd => exact (decCommand_eq 4 s).trans (if_pos (hlen.resolve_right nofun))
  | decodeAlt => exact (decCommand_eq 3 s).trans (if_pos (hlen.resolve_right nofun))
  | tagZero | tagPartial | tagMiss | tagExact => cases hi

/-- ENCODE of a page that IN holds reads it whole and comes to its end (R150). -/
theorem execEncode_of_holds {s : State} {page : List Word} (hlen : s.inLen.toNat = 4096)
    (hcap : 4096 ≤ s.params.inCap) (hpage : page.length = 1024) (hheld : Holds s.inMem (wordsBytes page)) :
    execEncode s = encodeEnd s page := by
  have hread : readWords s 0 1024 = .next page := by
    rw [readWords_of_holds hheld (by omega), List.drop_zero, ← hpage, List.take_length]
  rw [execEncode_eq, if_neg (by omega), hread, andThen_next]

/-- Settles O31: ENCODE comes to its end with the page read, and commits the buffer. -/
theorem encodeProducesTheBuffer : Obligations.EncodeProducesTheBuffer := by
  intro s page hlen hcap hpage hheld buffer hfit
  have hend := endOk_fits (s := afterEnc s (encodeWords s.hashTable page)) hfit (4 * buffer.length)
  have hcommit := commitOut_holds (afterEnc s (encodeWords s.hashTable page)) buffer
  exact ⟨_, _, (execEncode_of_holds hlen hcap hpage hheld).trans hend, hcommit⟩

/-! ### The tags of a page -/

/-- The tags of words in order, each word on the dictionary its predecessor left (R153, R257). -/
def pageTags (table : HashTable) (d : Dict) : List Word → List Tag
  | [] => []
  | v :: page => encTag table d v :: pageTags table (encStore table d v) page

@[simp] theorem pageTags_length (table : HashTable) (d : Dict) (page : List Word) :
    (pageTags table d page).length = page.length := by
  induction page generalizing d with
  | nil => rfl
  | cons v page ih => simp [pageTags, ih]

/-- The encoder's streams are what its tags add, word by word (R160). -/
theorem encodeFrom_streams (table : HashTable) (d : Dict) (w : EncWork) (page : List Word) :
    (encodeFrom table (d, w) page).2 = w.addTagged table (page.zip (pageTags table d page)) := by
  induction page generalizing d w with
  | nil => exact (w.addTagged_nil table).symm
  | cons v page ih =>
    rw [encodeFrom_cons, encElement_eq, ih, EncWork.addTagged_append]
    rfl

theorem encodeWords_streams (table : HashTable) (page : List Word) : (encodeWords table page).2
    = encWorkInit.addTagged table (page.zip (pageTags table sentinelDict page)) :=
  encodeFrom_streams table sentinelDict encWorkInit page

theorem encodeWords_tags (table : HashTable) (page : List Word) :
    (encodeWords table page).2.tags = pageTags table sentinelDict page := by
  rw [encodeWords_streams]
  exact List.map_snd_zip (pageTags_length table sentinelDict page).le

theorem sentinelDict_nonzero (q : Slot) : dictWord sentinelDict q ≠ 0 := by simp

theorem encStore_dict_nonzero {d : Dict} (hd : ∀ q, dictWord d q ≠ 0) (table : HashTable) (v : Word) (q : Slot) :
    dictWord (encStore table d v) q ≠ 0 := by
  by_cases h0 : v = 0
  · rw [encStore_of_eq_zero h0]
    exact hd q
  · rw [encStore_of_ne_zero h0]
    exact dictStore_nonzero hd h0 _ q

/-- Over a dictionary without zero, ZERO is the tag of 0 alone (R166). -/
theorem encTag_eq_zero_iff {d : Dict} (hd : ∀ q, dictWord d q ≠ 0) (table : HashTable) (v : Word) :
    encTag table d v = codeZero ↔ v = 0 := by
  unfold encTag
  split
  next h => exact ⟨nofun, fun h0 => absurd (h.symm.trans h0) (hd _)⟩
  split
  next h0 => exact ⟨fun _ => h0, fun _ => rfl⟩
  next h0 => split <;> exact ⟨nofun, fun h => absurd h h0⟩

/-- ZERO stands exactly on the zero words of a page (R166). -/
theorem pageTags_zero_iff {table : HashTable} {d : Dict} (hd : ∀ q, dictWord d q ≠ 0) {page : List Word} {v : Word}
    {tag : Tag} (h : (v, tag) ∈ page.zip (pageTags table d page)) : tag = codeZero ↔ v = 0 := by
  induction page generalizing d with
  | nil => cases h
  | cons u page ih =>
    rcases List.mem_cons.1 h with h | h
    · cases h
      exact encTag_eq_zero_iff hd table v
    · exact ih (encStore_dict_nonzero hd table u) h

/-! Each stream has as many elements as the tags that add to it (R160). -/

theorem qposEntries_length (table : HashTable) (tagged : List (Word × Tag)) :
    (tagged.filterMap (qposEntry table)).length
      = (tagged.map Prod.snd).count codeExact + (tagged.map Prod.snd).count codePartial := by
  induction tagged with
  | nil => rfl
  | cons p tagged ih =>
    obtain ⟨v, tag⟩ := p
    rcases tag_cases tag with rfl | rfl | rfl | rfl <;>
      simp [qposEntry, ih, codeZero, codeExact, codePartial, codeMiss] <;> omega

theorem lowEntries_length (tagged : List (Word × Tag)) :
    (tagged.filterMap lowEntry).length = (tagged.map Prod.snd).count codePartial := by
  induction tagged with
  | nil => rfl
  | cons p tagged ih => by_cases h : p.2 = codePartial <;> simp [lowEntry, ih, h]

theorem fullEntries_length (tagged : List (Word × Tag)) :
    (tagged.filterMap fullEntry).length = (tagged.map Prod.snd).count codeMiss := by
  induction tagged with
  | nil => rfl
  | cons p tagged ih => by_cases h : p.2 = codeMiss <;> simp [fullEntry, ih, h]

theorem mem_fullEntries {tagged : List (Word × Tag)} {v : Word} (h : v ∈ tagged.filterMap fullEntry) :
    (v, codeMiss) ∈ tagged := by
  obtain ⟨⟨u, tag⟩, hmem, hentry⟩ := List.mem_filterMap.1 h
  unfold fullEntry at hentry
  split at hentry
  next htag =>
    cases hentry
    exact htag ▸ hmem
  · cases hentry

/-- Settles O34: the streams are what the tags add to empty ones, and a page's dictionary never holds 0. -/
theorem encoderStreamsFollowTheTags : Obligations.EncoderStreamsFollowTheTags := by
  intro table page w tagged
  have htags : w.tags = pageTags table sentinelDict page := encodeWords_tags table page
  have htagged : tagged = page.zip (pageTags table sentinelDict page) := congrArg page.zip htags
  have hw : w = encWorkInit.addTagged table tagged := htagged ▸ encodeWords_streams table page
  have hzero {v : Word} {tag : Tag} (h : (v, tag) ∈ tagged) : tag = codeZero ↔ v = 0 :=
    pageTags_zero_iff sentinelDict_nonzero (htagged ▸ h)
  have hcodes : w.tags = tagged.map Prod.snd := congrArg EncWork.tags hw
  have hQ : w.Q = tagged.filterMap (qposEntry table) := congrArg EncWork.Q hw
  have hL : w.L = tagged.filterMap lowEntry := congrArg EncWork.L hw
  have hF : w.F = tagged.filterMap fullEntry := congrArg EncWork.F hw
  refine ⟨by rw [htags, pageTags_length], fun _ _ h => hzero h, hQ, hL, hF, ?_, ?_, ?_, fun v hv h0 => ?_⟩
  · rw [hQ, hcodes]
    exact qposEntries_length table tagged
  · rw [hL, hcodes]
    exact lowEntries_length tagged
  · rw [hF, hcodes]
    exact fullEntries_length tagged
  · exact absurd ((hzero (mem_fullEntries (hF ▸ hv))).2 h0) (by decide)

/-! ### The length of a page's buffer -/

/-- A buffer's length by its tags alone: R161's formula with R160's counts. -/
theorem encodedBuffer_length_eq {table : HashTable} {page : List Word} (lay : PackLayout) {tags : List Tag}
    (h : (encodeWords table page).2.tags = tags) : (encodedBuffer table lay page).length
      = 68 + tags.count codeMiss + ceilDiv (tags.count codeExact + tags.count codePartial) 8
        + ceilDiv (tags.count codePartial) 3 := by
  obtain ⟨-, -, -, -, -, hQ, hL, hF, -⟩ := encoderStreamsFollowTheTags table page
  rw [encodedBuffer, bufferWords_length 4 (.inr rfl), bufferLength, sectionStarts, hQ, hL, hF, h]
  rfl

/-- A tag list without MISS, EXACT and PARTIAL has ZERO only (R72). -/
theorem counts_eq_zero_iff (tags : List Tag) :
    (tags.count codeMiss = 0 ∧ tags.count codeExact = 0 ∧ tags.count codePartial = 0) ↔
      ∀ tag ∈ tags, tag = codeZero := by
  simp only [List.count_eq_zero]
  constructor
  · rintro ⟨hmiss, hexact, hpartial⟩ tag hmem
    rcases tag_cases tag with rfl | rfl | rfl | rfl
    · rfl
    · exact absurd hmem hpartial
    · exact absurd hmem hmiss
    · exact absurd hmem hexact
  · intro h
    refine ⟨fun hmem => ?_, fun hmem => ?_, fun hmem => ?_⟩ <;> exact absurd (h _ hmem) (by decide)

/-- The tags of a page are all ZERO exactly when its words are all 0 (R163, R166). -/
theorem pageTags_all_zero_iff {d : Dict} (hd : ∀ q, dictWord d q ≠ 0) (table : HashTable) (page : List Word) :
    (∀ tag ∈ pageTags table d page, tag = codeZero) ↔ ∀ v ∈ page, v = 0 := by
  induction page generalizing d with
  | nil => simp [pageTags]
  | cons v page ih =>
    simp only [pageTags, List.forall_mem_cons, encTag_eq_zero_iff hd, ih (encStore_dict_nonzero hd table v)]

/-- Settles O35: the bounds and both characterisations are arithmetic on R161's formula, and only 0 is tagged ZERO. -/
theorem encodedBufferLengthBounds : Obligations.EncodedBufferLengthBounds := by
  intro table lay page hpage
  have htags := encodeWords_tags table page
  have hlen := encodedBuffer_length_eq lay htags
  have hcount := count_miss_exact_partial_le (pageTags table sentinelDict page)
  rw [pageTags_length, hpage] at hcount
  have hbounds := encodedBuffer_bufferWords table lay hpage
  refine ⟨hbounds.1, hbounds.2, ?_, ?_⟩
  · rw [← pageTags_all_zero_iff sentinelDict_nonzero table page, ← counts_eq_zero_iff, hlen]
    unfold ceilDiv
    omega
  · rw [htags, hlen]
    show _ ↔ (pageTags table sentinelDict page).count codeMiss = 1023 ∧
      (pageTags table sentinelDict page).count codePartial = 1
    unfold ceilDiv
    omega

/-! ### The longest buffers (log 7) -/

/-- The words of hash key 0 whose other bits below 18 are 0: their high bits all differ (R7, R101). -/
def missWord (j : Nat) : Word := BitVec.ofNat 32 (j * 2 ^ 18)

theorem missWord_toNat {j : Nat} (h : j < 2 ^ 14) : (missWord j).toNat = j * 2 ^ 18 := by
  rw [missWord, BitVec.toNat_ofNat]
  omega

theorem missWord_ne_zero {j : Nat} (h : j < 2 ^ 14) (hpos : 0 < j) : missWord j ≠ 0 := fun h0 => by
  have hnat : 0 = j * 2 ^ 18 := (congrArg BitVec.toNat h0).symm.trans (missWord_toNat h)
  omega

theorem highBits_toNat (v : Word) : (highBits v).toNat = v.toNat / 2 ^ 10 := by
  rw [highBits_eq_shift, BitVec.toNat_setWidth, BitVec.toNat_ushiftRight, Nat.shiftRight_eq_div_pow]
  omega

/-- They share the slot of the word 0, whatever the table holds (R102). -/
theorem hashSlot_missWord (table : HashTable) {j : Nat} (h : j < 2 ^ 14) :
    hashSlot table (missWord j) = hashSlot table 0 := by
  refine hashSlot_congr (BitVec.eq_of_toNat_eq ?_)
  rw [hashKey, BitVec.extractLsb'_toNat, missWord_toNat h, Nat.shiftRight_eq_div_pow]
  show _ = 0
  omega

/-- `missWord k` is MISS where its slot holds a smaller word: their high bits differ (R157). -/
theorem encTag_missWord {table : HashTable} {d : Dict} {k : Nat} (hk : k < 2 ^ 14)
    (hd : (dictWord d (hashSlot table 0)).toNat < k * 2 ^ 18) : encTag table d (missWord k) = codeMiss := by
  have hslot := hashSlot_missWord table hk
  have hhigh : highBits (missWord k) ≠ highBits (dictWord d (hashSlot table (missWord k))) := fun h => by
    have hnat := congrArg BitVec.toNat h
    rw [hslot, highBits_toNat, highBits_toNat, missWord_toNat hk] at hnat
    omega
  have h0 := missWord_ne_zero hk (by omega)
  exact (if_neg fun h => hhigh (congrArg highBits h)).trans ((if_neg h0).trans (if_neg hhigh))

/-- Rising words of key 0 evict each other, so all of them are MISS (R102, R157). -/
theorem pageTags_missWords {table : HashTable} {d : Dict} {k n : Nat} (hn : k + n ≤ 2 ^ 14)
    (hd : (dictWord d (hashSlot table 0)).toNat < k * 2 ^ 18) :
    pageTags table d ((List.range' k n).map missWord) = List.replicate n codeMiss := by
  induction n generalizing d k with
  | zero => rfl
  | succ n ih =>
    have hk : k < 2 ^ 14 := by omega
    have h0 := missWord_ne_zero hk (by omega)
    have hstore : (dictWord (encStore table d (missWord k)) (hashSlot table 0)).toNat < (k + 1) * 2 ^ 18 := by
      rw [encStore_of_ne_zero h0, hashSlot_missWord table hk, dictWord_store_same, missWord_toNat hk]
      omega
    rw [List.range'_succ, List.map_cons, pageTags, encTag_missWord hk hd, ih (by omega) hstore, List.replicate_succ]

/-- 1024 rising words of key 0. -/
def allMissPage : List Word := (List.range' 1 1024).map missWord

/-- The word 5, which the sentinel makes PARTIAL, and 1023 rising words of key 0. -/
def longestPage : List Word := 5 :: (List.range' 1 1023).map missWord

theorem allMissPage_tags (table : HashTable) :
    (encodeWords table allMissPage).2.tags = List.replicate 1024 codeMiss := by
  rw [encodeWords_tags]
  exact pageTags_missWords (by decide) (by rw [dictWord_sentinel]; decide)

theorem longestPage_tags (table : HashTable) :
    (encodeWords table longestPage).2.tags = codePartial :: List.replicate 1023 codeMiss := by
  have hslot : hashSlot table 5 = hashSlot table 0 := hashSlot_congr (by decide)
  have htag : encTag table sentinelDict 5 = codePartial := by
    rw [encTag, dictWord_sentinel]
    decide
  have hstore : dictWord (encStore table sentinelDict 5) (hashSlot table 0) = 5 := by
    rw [encStore_of_ne_zero (by decide), hslot, dictWord_store_same]
  rw [encodeWords_tags, longestPage, pageTags, htag,
    pageTags_missWords (by decide) (by rw [hstore]; decide)]

theorem count_replicate_codeMiss (n : Nat) : (List.replicate n codeMiss).count codeMiss = n ∧
    (List.replicate n codeMiss).count codeExact = 0 ∧ (List.replicate n codeMiss).count codePartial = 0 := by
  simp [List.count_replicate, codeMiss, codeExact, codePartial]

/-- One PARTIAL before `n` MISS. -/
theorem count_partial_misses (n : Nat) : (codePartial :: List.replicate n codeMiss).count codeMiss = n ∧
    (codePartial :: List.replicate n codeMiss).count codeExact = 0 ∧
    (codePartial :: List.replicate n codeMiss).count codePartial = 1 := by
  simp [List.count_replicate, codeMiss, codeExact, codePartial]

/-- Settles O36: the two pages are `allMissPage` and `longestPage`. -/
theorem encodedBufferExceedsR163 : Obligations.EncodedBufferExceedsR163 := by
  intro table lay
  constructor
  · have htags := allMissPage_tags table
    obtain ⟨hmiss, hexact, hpartial⟩ := count_replicate_codeMiss 1024
    refine ⟨allMissPage, by rw [allMissPage, List.length_map, List.length_range'], htags ▸ hmiss, ?_⟩
    rw [encodedBuffer_length_eq lay htags, hmiss, hexact, hpartial]
    rfl
  · have htags := longestPage_tags table
    obtain ⟨hmiss, hexact, hpartial⟩ := count_partial_misses 1023
    refine ⟨longestPage, by rw [longestPage, List.length_cons, List.length_map, List.length_range'], htags ▸ hmiss,
      htags ▸ hpartial, ?_⟩
    rw [encodedBuffer_length_eq lay htags, hmiss, hexact, hpartial]
    rfl

end Sys2Proof.Machine

/-! PROOFS. The decoder: the four tags, the header check, the end of a decode, the bytes it reads, and the round trip
with ENCODE (R180 to R203). -/

namespace Sys2Proof.Machine

/-! ### The instruction a step runs -/

/-- The block has its turn when nothing from the host is pending, and in a round of a poll that finds DONE = 0 (log 1,
log 13). -/
theorem step_blockTurn {s : State} {rest : List Input}
    (h : s.inputs = [] ∨ (s.inputs = .poll :: rest ∧ doneBit s.status = false)) : step s = blockTurn s := by
  rcases h with h | ⟨h, hwaiting⟩
  · simp [step, turn, h]
  · rw [step_poll h, pollRound_waiting hwaiting]

theorem blockTurn_fetched {s : State} {i : Instr} (h : fetch s = some i) : blockTurn s = exec i s := by
  simp [blockTurn, h]

theorem blockUnit_fetched {s : State} {i : Instr} (h : fetch s = some i) : blockUnit s = beginCommand i s := by
  simp [blockUnit, h]

/-- Settles O4: the turn is the block's, and what it fetches is the latched command or the tag at `t`. -/
theorem stepRunsFetchedInstruction : Obligations.StepRunsFetchedInstruction := by
  constructor
  · intro s i rest hphase hwork hlatched hturn
    rw [step_blockTurn hturn, blockTurn_fetched (fetch_started hphase hwork hlatched)]
  · intro s w tag rest hphase hwork ht htag
    refine ⟨fun hturn => ?_, fun htick => ?_⟩
    · rw [step_blockTurn hturn, blockTurn_fetched (fetch_tag hphase hwork ht htag)]
    · have hfetch : fetch (s.setInputs rest) = some (decodeTag tag) := fetch_tag hphase hwork ht htag
      rw [step_tick htick, blockUnit_fetched hfetch, beginCommand_decodeTag]
      rfl

/-! ### The four tags -/

/-- A tag with an operand whose stream is exhausted: QPos for EXACT and PARTIAL, low bits for PARTIAL, full patterns for
MISS (R194 to R197). -/
def TagExhausted (i : Instr) (w : DecWork) : Prop :=
  ((i = .tagExact ∨ i = .tagPartial) ∧ w.cq = w.Q.length) ∨ (i = .tagPartial ∧ w.cl = w.L.length) ∨
    (i = .tagMiss ∧ w.cf = w.F.length)

theorem getElem?_exhausted {α : Type} {xs : List α} {n : Nat} (h : n = xs.length) : xs[n]? = none :=
  List.getElem?_eq_none h.ge

section Tags
variable {s : State} {w : DecWork} (hwork : s.work = .dec w)
include hwork

theorem execTagExact_emits {q : Slot} (hq : w.Q[w.cq]? = some q) : execTagExact s
    = .next (afterTag s s.dict (emitWord (dictWord s.dict q) { w with cq := w.cq + 1 })) := by
  rcases execTagExact_dec hwork with ⟨h, -⟩ | ⟨_, h, e⟩ <;> cases h.symm.trans hq
  exact e

theorem execTagExact_underflows (hq : w.Q[w.cq]? = none) :
    execTagExact s = .next (raiseError .formatUnderflow s) := by
  rcases execTagExact_dec hwork with ⟨-, e⟩ | ⟨_, h, -⟩
  · exact e
  · cases h.symm.trans hq

theorem execTagPartial_emits {q : Slot} {lb : Low} (hq : w.Q[w.cq]? = some q) (hl : w.L[w.cl]? = some lb) :
    execTagPartial s = .next (afterTag s (dictStore s.dict q (rebuildWord (dictWord s.dict q) lb))
      (emitWord (rebuildWord (dictWord s.dict q) lb) { w with cq := w.cq + 1, cl := w.cl + 1 })) := by
  rcases execTagPartial_dec hwork with ⟨h | h, -⟩ | ⟨_, _, h, h2, e⟩
  · cases h.symm.trans hq
  · cases h.symm.trans hl
  · cases h.symm.trans hq
    cases h2.symm.trans hl
    exact e

theorem execTagPartial_underflows (h : w.Q[w.cq]? = none ∨ w.L[w.cl]? = none) :
    execTagPartial s = .next (raiseError .formatUnderflow s) := by
  rcases execTagPartial_dec hwork with ⟨-, e⟩ | ⟨_, _, hq, hl, -⟩
  · exact e
  · rcases h with h | h
    · cases h.symm.trans hq
    · cases h.symm.trans hl

theorem execTagMiss_emits {v : Word} (hv : w.F[w.cf]? = some v) : execTagMiss s
    = .next (afterTag s (dictStore s.dict (hashSlot s.hashTable v) v) (emitWord v { w with cf := w.cf + 1 })) := by
  rcases execTagMiss_dec hwork with ⟨h, -⟩ | ⟨_, h, e⟩ <;> cases h.symm.trans hv
  exact e

theorem execTagMiss_underflows (hv : w.F[w.cf]? = none) :
    execTagMiss s = .next (raiseError .formatUnderflow s) := by
  rcases execTagMiss_dec hwork with ⟨-, e⟩ | ⟨_, h, -⟩
  · exact e
  · cases h.symm.trans hv

/-- A tag with an exhausted stream ends the command with FORMAT_UNDERFLOW (R197). -/
theorem execTag_underflows {i : Instr} (h : TagExhausted i w) :
    exec i s = .next (raiseError .formatUnderflow s) := by
  rcases h with ⟨rfl | rfl, h⟩ | ⟨rfl, h⟩ | ⟨rfl, h⟩
  · exact execTagExact_underflows hwork (getElem?_exhausted h)
  · exact execTagPartial_underflows hwork (.inl (getElem?_exhausted h))
  · exact execTagPartial_underflows hwork (.inr (getElem?_exhausted h))
  · exact execTagMiss_underflows hwork (getElem?_exhausted h)

end Tags

/-- Settles O37: it is ZERO's one outcome. -/
theorem tagZeroEmitsZero : Obligations.TagZeroEmitsZero := fun _ _ hwork => execTagZero_dec hwork

/-- Settles O38, by whether the QPos stream has an element at its cursor. -/
theorem tagExactEmitsTheSlot : Obligations.TagExactEmitsTheSlot := fun _ _ hwork =>
  ⟨fun _ hq => execTagExact_emits hwork hq, fun hend => execTag_underflows hwork (.inl ⟨.inl rfl, hend⟩)⟩

/-- The mask `0xFFFFFC00` keeps what a shift right and left by 10 keeps (R7, R195). -/
theorem and_mask_eq_shifts (v : Word) : v &&& (0xFFFFFC00 : Word) = v >>> 10 <<< 10 := by
  apply BitVec.eq_of_getLsbD_eq
  intro i hi
  rw [BitVec.getLsbD_and, BitVec.getLsbD_shiftLeft, BitVec.getLsbD_ushiftRight]
  by_cases h : i < 10
  · rw [mask_low h]
    simp [h]
  · rw [mask_high (Nat.le_of_not_lt h) hi, Nat.add_sub_cancel' (Nat.le_of_not_lt h)]
    simp [h, hi]

theorem rebuildWord_eq_shifts (dw : Word) (lb : Low) :
    rebuildWord dw lb = (dw >>> 10 <<< 10) ||| lb.setWidth 32 := by
  rw [rebuildWord, and_mask_eq_shifts]

/-- Settles O39, by whether both streams have an element at their cursors; R195's mask is two shifts. -/
theorem tagPartialRebuildsAndStores : Obligations.TagPartialRebuildsAndStores := by
  intro s w hwork
  refine ⟨fun q lb hq hl => ?_, fun hend => ?_⟩
  · rw [← rebuildWord_eq_shifts]
    exact execTagPartial_emits hwork hq hl
  · exact execTag_underflows hwork (hend.imp (⟨.inr rfl, ·⟩) (.inl ⟨rfl, ·⟩))

/-- Settles O40, by whether there is a full pattern at the cursor. -/
theorem tagMissStoresAtTheHashSlot : Obligations.TagMissStoresAtTheHashSlot := fun _ _ hwork =>
  ⟨fun _ hv => execTagMiss_emits hwork hv, fun hend => execTag_underflows hwork (.inr (.inr ⟨rfl, hend⟩))⟩

/-- Settles O42: an exhausted stream ends the command, and an IDLE block does nothing. -/
theorem underflowStopsTheWalk : Obligations.UnderflowStopsTheWalk := by
  intro i s w hwork hend
  refine ⟨raiseError .formatUnderflow s, execTag_underflows hwork hend, rfl, rfl, rfl, fun hinputs => ?_⟩
  have hturn : step (raiseError .formatUnderflow s) = _ := step_blockTurn (rest := []) (.inl hinputs)
  rw [hturn, blockTurn_idle rfl]

/-! ### What a tag leaves unchanged -/

/-- The slots a completed tag leaves: all, but the one PARTIAL or MISS stores to (R193 to R196). -/
def TagKeepsDict (i : Instr) (s : State) (w : DecWork) (d : Dict) : Prop :=
  (i = .tagZero ∨ i = .tagExact → ∀ r, dictWord d r = dictWord s.dict r) ∧
  (i = .tagPartial → ∀ q r, w.Q[w.cq]? = some q → r ≠ q → dictWord d r = dictWord s.dict r) ∧
  (i = .tagMiss → ∀ v r, w.F[w.cf]? = some v → r ≠ hashSlot s.hashTable v → dictWord d r = dictWord s.dict r)

/-- A tag that does not underflow emits one word and moves cursors (R192). -/
theorem execTag_emits {i : Instr} {s t : State} {w w' : DecWork} (hi : i.isCommand = false) (h : exec i s = .next t)
    (hwork : s.work = .dec w) (hwork' : t.work = .dec w') : ∃ d v cf cq cl, t = afterTag s d w' ∧
      w' = emitWord v { w with cf := cf, cq := cq, cl := cl } ∧ TagKeepsDict i s w d := by
  cases i with
  | encode | decodeStd | decodeAlt => cases hi
  | tagZero =>
    cases (execTagZero_dec hwork).symm.trans h
    cases hwork'
    exact ⟨_, _, _, _, _, rfl, rfl, fun _ _ => rfl, nofun, nofun⟩
  | tagExact =>
    rcases execTagExact_dec hwork with ⟨-, e⟩ | ⟨q, -, e⟩ <;> cases e.symm.trans h <;> cases hwork'
    exact ⟨_, _, _, _, _, rfl, rfl, fun _ _ => rfl, nofun, nofun⟩
  | tagPartial =>
    rcases execTagPartial_dec hwork with ⟨-, e⟩ | ⟨q, lb, hq, -, e⟩ <;> cases e.symm.trans h <;> cases hwork'
    refine ⟨_, _, _, _, _, rfl, rfl, nofun, fun _ q' r hq' hne => ?_, nofun⟩
    cases hq.symm.trans hq'
    exact dictWord_store_other _ _ hne.symm
  | tagMiss =>
    rcases execTagMiss_dec hwork with ⟨-, e⟩ | ⟨v, hv, e⟩ <;> cases e.symm.trans h <;> cases hwork'
    refine ⟨_, _, _, _, _, rfl, rfl, nofun, nofun, fun _ v' r hv' hne => ?_⟩
    cases hv.symm.trans hv'
    exact dictWord_store_other _ _ hne.symm

/-- No tag writes OUT (R56). -/
theorem execTag_outMem {i : Instr} {s t : State} (hi : i.isCommand = false) (h : exec i s = .next t) :
    t.outMem = s.outMem := by
  rcases execTag_eq_next hi h with rfl | ⟨d, w, rfl⟩ <;> rfl

/-- Settles O41: the block's frame holds of every instruction, and a tag that goes on changes no more than its cursors,
its output and one slot. -/
theorem tagFrame : Obligations.TagFrame := by
  intro i s t hi h
  obtain ⟨hcmd, hinLen, hinMem, htable, hparams, hinputs, hlog⟩ := exec_keepsFrame i s t h
  have houtMem := execTag_outMem hi h
  refine ⟨hcmd, hinLen, htable, hparams, hinputs, hlog, fun k => by rw [hinMem], fun k => by rw [houtMem], ?_⟩
  intro w w' hwork hwork'
  obtain ⟨d, v, cf, cq, cl, rfl, rfl, hdict⟩ := execTag_emits hi h hwork hwork'
  exact ⟨rfl, rfl, rfl, rfl, rfl, rfl, rfl, rfl, rfl, rfl, rfl, rfl, ⟨v, rfl⟩, hdict⟩

/-! ### A decode's checks -/

/-- Both decode commands are the shared core, each with its own header (R180, R181). -/
theorem exec_decode {i : Instr} {hw : Nat} (hi : (i = .decodeStd ∧ hw = 4) ∨ (i = .decodeAlt ∧ hw = 3)) (s : State) :
    exec i s = decCommand hw s := by
  rcases hi with ⟨rfl, rfl⟩ | ⟨rfl, rfl⟩ <;> rfl

theorem decode_isCommand {i : Instr} (hi : i = .decodeStd ∨ i = .decodeAlt) : i.isCommand = true ∧ i ≠ .encode := by
  rcases hi with rfl | rfl <;> exact ⟨rfl, nofun⟩

/-- A buffer shorter than the header is found before IN is read (R184). -/
theorem decCommand_short {hw : Nat} {s : State} (hin : s.inLen.toNat ≤ s.params.inCap) (h : s.inLen.toNat < 4 * hw) :
    decCommand hw s = .next (raiseError .formatHeader s) := by
  rw [decCommand_eq, if_neg (Nat.not_lt.2 hin), if_pos h]

/-- Settles O43: the length check stands before the header's read in either layout. -/
theorem shortBufferIsFormatHeader : Obligations.ShortBufferIsFormatHeader := fun _ hin =>
  ⟨fun h => decCommand_short (hw := 4) hin h, fun h => decCommand_short (hw := 3) hin h⟩

section Header
variable {hw : Nat} {s : State} (hin : s.inLen.toNat ≤ s.params.inCap) (hlen : 4 * hw ≤ s.inLen.toNat)
include hin hlen

/-- A decode whose header is in IN reads it and goes on by R186's checks. -/
theorem decCommand_long : decCommand hw s = andThen (readHeader hw s) fun h =>
    if headerBad hw (inWords s) h then .next (raiseError .formatHeader s)
    else andThen (unpackStreams hw h s) (decodeEnd s) := by
  rw [decCommand_eq, if_neg (Nat.not_lt.2 hin), if_neg (Nat.not_lt.2 hlen)]

theorem decCommand_headerBad {h : Nat × Nat × Nat} (hread : readHeader hw s = .next h)
    (hbad : headerBad hw (inWords s) h) : decCommand hw s = .next (raiseError .formatHeader s) := by
  rw [decCommand_long hin hlen, hread, andThen_next, if_pos hbad]

theorem decCommand_headerGood {h : Nat × Nat × Nat} (hread : readHeader hw s = .next h)
    (hgood : ¬ headerBad hw (inWords s) h) :
    decCommand hw s = andThen (unpackStreams hw h s) (decodeEnd s) := by
  rw [decCommand_long hin hlen, hread, andThen_next, if_neg hgood]

end Header

/-- The header fields are the words at `hw - 3` on, where the words before them can be read (R185). -/
theorem readHeader_eq_next {hw : Nat} {s : State} {ws : List Word} {q l e : Word}
    (hws : readWords s 0 (hw - 3) = .next ws) (hq : le32 s (hw - 3) = .next q) (hl : le32 s (hw - 2) = .next l)
    (he : le32 s (hw - 1) = .next e) : readHeader hw s = .next (q.toNat, l.toNat, e.toNat) := by
  rw [readHeader, hws, andThen_next, hq, andThen_next, hl, andThen_next, he, andThen_next]

section DecodeEnd
variable {s : State} {w w' : DecWork} {d : Dict}

/-! The three ends of a decode whose header passed its checks (R197 to R199). -/

theorem decodeEnd_underflows (hr : walkPure s.hashTable 1024 sentinelDict w = (true, d, w')) :
    decodeEnd s w = .next (raiseError .formatUnderflow (afterTag s d w')) := by
  simp [decodeEnd, hr]

theorem decodeEnd_residue (hr : walkPure s.hashTable 1024 sentinelDict w = (false, d, w'))
    (hres : hasResidue w' = true) : decodeEnd s w = .next (raiseError .formatResidue (afterTag s d w')) := by
  simp [decodeEnd, hr, hres]

theorem decodeEnd_emits (hr : walkPure s.hashTable 1024 sentinelDict w = (false, d, w'))
    (hres : hasResidue w' = false) : decodeEnd s w = endOk w'.out 4096 (afterTag s d w') := by
  simp [decodeEnd, hr, hres]

end DecodeEnd

/-- FORMAT_HEADER is the header check's code alone: past it a decode ends otherwise (R226). -/
theorem decodeEnd_status_ne {s t : State} {w : DecWork} (h : decodeEnd s w = .next t) :
    t.status ≠ statusEnded .formatHeader := by
  rcases hr : walkPure s.hashTable 1024 sentinelDict w with ⟨_ | _, d, w'⟩
  · cases hres : hasResidue w' with
    | true =>
      cases (decodeEnd_residue hr hres).symm.trans h
      show statusEnded .formatResidue ≠ _
      decide
    | false =>
      obtain ⟨-, rfl⟩ := endOk_eq_next.1 ((decodeEnd_emits hr hres).symm.trans h)
      show statusEnded .none ≠ _
      decide
  · cases (decodeEnd_underflows hr).symm.trans h
    show statusEnded .formatUnderflow ≠ _
    decide

/-- Settles O44: the header is read, and FORMAT_HEADER is raised by its checks and by nothing behind them. -/
theorem headerChecksDecideFormatHeader : Obligations.HeaderChecksDecideFormatHeader := by
  intro s i hw q l e hi hin hlen hreadable hq hl he hroom
  obtain ⟨hcommand, hne⟩ := decode_isCommand (hi.imp And.left And.left)
  obtain ⟨t, ht, -⟩ := exec_ends (s := s) hcommand (fun _ => hreadable) (by rwa [if_neg hne])
  obtain ⟨ws, hws⟩ := readWords_readable hreadable (show 4 * (0 + (hw - 3)) ≤ s.inLen.toNat by omega)
  have hheader := readHeader_eq_next hws hq hl he
  have hbad_iff : headerBad hw (inWords s) (q.toNat, l.toNat, e.toNat) ↔
      s.inLen.toNat / 4 < q.toNat ∨ s.inLen.toNat / 4 < l.toNat ∨ s.inLen.toNat / 4 < e.toNat ∨
      l.toNat < q.toNat ∨ e.toNat < l.toNat ∨ q.toNat < hw + 64 := by
    simp only [headerBad, inWords, Config.tagAreaWords, lt_max_iff, or_assoc]
  refine ⟨t, ht, ?_⟩
  rw [← hbad_iff]
  rw [exec_decode hi] at ht
  by_cases hbad : headerBad hw (inWords s) (q.toNat, l.toNat, e.toNat)
  · cases (decCommand_headerBad hin hlen hheader hbad).symm.trans ht
    exact ⟨⟨fun _ => hbad, fun _ => rfl⟩, fun _ => ⟨rfl, rfl⟩⟩
  · obtain ⟨w, -, hend⟩ := andThen_eq_next.1 ((decCommand_headerGood hin hlen hheader hbad).symm.trans ht)
    have hstatus : t.status ≠ 0x00000022 := decodeEnd_status_ne hend
    exact ⟨⟨fun h => absurd h hstatus, fun h => absurd h hbad⟩, fun h => absurd h hstatus⟩

/-! ### The end of a decode -/

/-- Is some element from a cursor on nonzero (R198)? -/
theorem any_drop_ne_zero_iff {k : Nat} (xs : List (BitVec k)) (n : Nat) :
    (xs.drop n).any (fun v => v ≠ 0) = true ↔ ∃ j v, n ≤ j ∧ xs[j]? = some v ∧ v ≠ 0 := by
  simp only [List.any_eq_true, List.mem_iff_getElem?, List.getElem?_drop, decide_eq_true_eq]
  constructor
  · rintro ⟨v, ⟨j, hj⟩, hv⟩
    exact ⟨n + j, v, Nat.le_add_right n j, hj, hv⟩
  · rintro ⟨j, v, hn, hj, hv⟩
    exact ⟨v, ⟨j - n, by rwa [Nat.add_sub_cancel' hn]⟩, hv⟩

/-- The residue check finds a nonzero element beyond a cursor of any stream (R198). -/
theorem hasResidue_iff (w : DecWork) : hasResidue w = true ↔
    (∃ k v, w.cf ≤ k ∧ w.F[k]? = some v ∧ v ≠ 0) ∨ (∃ k v, w.cq ≤ k ∧ w.Q[k]? = some v ∧ v ≠ 0) ∨
      (∃ k v, w.cl ≤ k ∧ w.L[k]? = some v ∧ v ≠ 0) := by
  rw [hasResidue, Bool.or_eq_true, Bool.or_eq_true, any_drop_ne_zero_iff, any_drop_ne_zero_iff, any_drop_ne_zero_iff,
    or_assoc]

/-- After the last tag the block's turn is the decode's end (R198, R199). -/
theorem blockTurn_decEnd {s : State} {w : DecWork} (hphase : s.phase = .decRun) (hwork : s.work = .dec w)
    (ht : w.t = 1024) : blockTurn s = decEnd s := by
  have hfetch : fetch s = none := by rw [fetch_dec (by rw [hphase]; nofun) hwork, ht]; rfl
  simp [blockTurn, hfetch, internalWork, hphase, hwork, ht]

/-- Settles O45: the turn after the last tag is the decode's end, and it branches on the residue. -/
theorem residueDecidesTheEnd : Obligations.ResidueDecidesTheEnd := by
  intro s w hphase hwork ht hout hroom hinputs residue
  have hstep : step s = if hasResidue w then .next (raiseError .formatResidue s) else endOk w.out 4096 s := by
    rw [step_blockTurn (rest := []) (.inl hinputs), blockTurn_decEnd hphase hwork ht, decEnd_dec hwork]
  refine ⟨fun hres => ?_, fun hres => ?_⟩
  · rw [hstep, if_pos ((hasResidue_iff w).2 hres)]
    rfl
  · have hfit : 4 * w.out.length ≤ s.params.outCap := by omega
    obtain ⟨hholds, hkept⟩ := commitOut_holds s w.out
    refine ⟨_, ?_, hholds, fun k hk => hkept k (by omega)⟩
    rw [hstep, if_neg (mt (hasResidue_iff w).1 hres), endOk_fits hfit]
    rfl

/-- Settles O49: of a decode's answers the one without an error commits 1024 words. -/
theorem decodeOutputIsOnePage : Obligations.DecodeOutputIsOnePage := by
  intro i s t hi ht hstatus
  obtain ⟨hcommand, hne⟩ := decode_isCommand hi
  have h := exec_answer hcommand s
  rw [ht] at h
  cases h with
  | error e he d =>
    have herr : errValue e = 0 := (errField_ended e).symm.trans (congrArg errField hstatus)
    exact absurd herr (errValue_ne_zero he)
  | done d ws hfit hws =>
    have hwords : ws.length = 1024 := by rwa [ResultWords, if_neg hne] at hws
    obtain ⟨hholds, hkept⟩ := commitOut_holds (s.setDict d) ws
    refine ⟨?_, ws, hwords, hholds, fun k hk => hkept k (by omega)⟩
    rw [endCommand_outLen, hwords]
    rfl

/-! ### What a decode reads -/

theorem readBytes_congr {missing : Nat → Fault} {m m' : Memory} {n off : Nat}
    (h : ∀ j, off ≤ j → j < off + n → memGet m j = memGet m' j) :
    readBytes missing m off n = readBytes missing m' off n := by
  induction n generalizing off with
  | zero => rfl
  | succ n ih =>
    rw [readBytes, readBytes, h off le_rfl (by omega), ih fun j hj hlt => h j (by omega) (by omega)]

/-- A valid header's sections come one after another, behind the tag area (R186). -/
theorem sections_ordered {hw nw q l e : Nat} (h : ¬ headerBad hw nw (q, l, e)) : hw + 64 ≤ q ∧ q ≤ l ∧ l ≤ e := by
  simp only [headerBad, Config.tagAreaWords, not_or, Nat.not_lt] at h
  obtain ⟨-, hql, hle, hq⟩ := h
  exact ⟨hq, hql, hle⟩

section ReadsFrom
variable {s t : State} {a : Nat} (h : ∀ j, 4 * a ≤ j → memGet s.inMem j = memGet t.inMem j)
include h

/-! A read from word `a` on depends on the bytes from `4a` on alone (R54, R55). -/

theorem le32_agree_from {k : Nat} (hk : a ≤ k) : le32 s k = le32 t k := by
  unfold le32 memReadIn
  rw [readBytes_congr fun j hj _ => h j (by omega)]

theorem readWords_agree_from {k : Nat} (hk : a ≤ k) (n : Nat) : readWords s k n = readWords t k n := by
  induction n generalizing k with
  | zero => rfl
  | succ n ih => rw [readWords, readWords, le32_agree_from h hk, ih (by omega)]

end ReadsFrom

/-- A good end reads nothing of IN (R228). -/
theorem endOk_setInMem (ws : List Word) (n : Nat) (s : State) (m : Memory) :
    endOk ws n (s.setInMem m) = andThen (endOk ws n s) fun t => .next (t.setInMem m) := by
  by_cases hfit : 4 * ws.length ≤ s.params.outCap
  · rw [endOk_fits hfit, endOk_fits (s := s.setInMem m) hfit]
    rfl
  · have hover := Nat.lt_of_not_le hfit
    rw [endOk_overflows hover, endOk_overflows (s := s.setInMem m) hover]
    rfl

/-- A decode's end reads nothing of IN (R198, R199). -/
theorem decodeEnd_setInMem (s : State) (m : Memory) (w : DecWork) :
    decodeEnd (s.setInMem m) w = andThen (decodeEnd s w) fun t => .next (t.setInMem m) := by
  rcases hr : walkPure s.hashTable 1024 sentinelDict w with ⟨_ | _, d, w'⟩
  · cases hres : hasResidue w' with
    | true =>
      rw [decodeEnd_residue hr hres, decodeEnd_residue (s := s.setInMem m) hr hres]
      rfl
    | false =>
      rw [decodeEnd_emits hr hres, decodeEnd_emits (s := s.setInMem m) hr hres]
      exact endOk_setInMem _ _ (afterTag s d w') m
  · rw [decodeEnd_underflows hr, decodeEnd_underflows (s := s.setInMem m) hr]
    rfl

/-- Another IN that gives the same header and the same streams makes no other difference to a decode than itself. -/
theorem decCommand_setInMem {hw : Nat} {s : State} {m : Memory}
    (hheader : readHeader hw (s.setInMem m) = readHeader hw s)
    (hstreams : ∀ h, ¬ headerBad hw (inWords s) h → unpackStreams hw h (s.setInMem m) = unpackStreams hw h s) :
    decCommand hw (s.setInMem m) = andThen (decCommand hw s) fun t => .next (t.setInMem m) := by
  rw [decCommand_eq, decCommand_eq, hheader, State.setInMem_inLen, State.setInMem_params]
  split
  · rfl
  split
  · rfl
  rw [andThen_assoc]
  refine andThen_congr fun h _ => ?_
  rw [show inWords (s.setInMem m) = inWords s from rfl]
  split
  · rfl
  next hgood =>
  rw [hstreams h hgood, andThen_assoc]
  exact andThen_congr fun w _ => decodeEnd_setInMem s m w

/-- The reserved word is written below every other word (R53, R74). -/
theorem memGet_writeReserved (m : Memory) (v : Word) {j : Nat} (h : 4 * 1 ≤ j) :
    memGet (writeRun m 0 (wordBytes 4 v)) j = memGet m j := by
  rw [memGet_writeRun, if_neg]
  rw [wordBytes_length]
  omega

theorem inReadable_writeReserved (m : Memory) (v : Word) {j : Nat} (h : j < 4) :
    ∃ b, memGet (writeRun m 0 (wordBytes 4 v)) j = some b := by
  have hj : j < (wordBytes 4 v).length := by rwa [wordBytes_length]
  refine ⟨(wordBytes 4 v)[j], ?_⟩
  rw [memGet_writeRun, if_pos ⟨Nat.zero_le j, by omega⟩]
  exact List.getElem?_eq_getElem hj

section Reserved
variable {s t : State} (hagree : ∀ j, 4 * 1 ≤ j → memGet s.inMem j = memGet t.inMem j)
include hagree

/-- The standard header's fields stand behind the reserved word, which is read and dropped (R185, R203, log 11). -/
theorem readHeader_reserved (hs : InReadable s 4) (ht : InReadable t 4) : readHeader 4 s = readHeader 4 t := by
  obtain ⟨ws, hws⟩ := readWords_readable (n := 1) (k := 0) hs (by decide)
  obtain ⟨ws', hws'⟩ := readWords_readable (n := 1) (k := 0) ht (by decide)
  unfold readHeader
  rw [hws, hws', andThen_next, andThen_next, le32_agree_from hagree (by decide), le32_agree_from hagree (by decide),
    le32_agree_from hagree (by decide)]

theorem unpackStreams_reserved (hlay : s.params.packLayout = t.params.packLayout) {nw : Nat} {h : Nat × Nat × Nat}
    (hgood : ¬ headerBad 4 nw h) : unpackStreams 4 h s = unpackStreams 4 h t := by
  obtain ⟨q, l, e⟩ := h
  obtain ⟨hq, hl, he⟩ := sections_ordered hgood
  unfold unpackStreams
  simp only [Config.tagAreaWords, hlay]
  rw [readWords_agree_from hagree (by decide), readWords_agree_from hagree (by decide),
    readWords_agree_from hagree (k := q) (by omega), readWords_agree_from hagree (k := l) (by omega)]

end Reserved

/-- Two inputs that differ in a written reserved word alone make no other difference to DECODE_STD (R203). -/
theorem decCommand_reserved {s : State} {m : Memory} (hagree : ∀ j, 4 * 1 ≤ j → memGet m j = memGet s.inMem j)
    (hm : InReadable (s.setInMem m) 4) (hs : InReadable s 4) :
    decCommand 4 (s.setInMem m) = andThen (decCommand 4 s) fun t => .next (t.setInMem m) :=
  decCommand_setInMem (readHeader_reserved hagree hm hs) fun _ hgood =>
    unpackStreams_reserved (s := s.setInMem m) hagree rfl hgood

/-- Settles O48: the reserved word is read in both states and dropped, and every other read agrees. -/
theorem reservedWordIgnored : Obligations.ReservedWordIgnored := by
  intro s t v hwritten ht
  have hexec := decCommand_reserved (fun _ => memGet_writeReserved s.inMem v)
    (fun _ => inReadable_writeReserved s.inMem v) hwritten
  rw [show decCommand 4 s = .next t from ht] at hexec
  exact hexec

/-! ### A decode that meets a byte without a value -/

/-- The bytes of the words from `a` up to `b` have values. -/
def WordsReadable (s : State) (a b : Nat) : Prop := ∀ j, 4 * a ≤ j → j < 4 * b → ∃ v, memGet s.inMem j = some v

theorem WordsReadable.append {s : State} {a b c : Nat} (h : WordsReadable s a b) (h' : WordsReadable s b c) :
    WordsReadable s a c := fun j ha hc => if hb : j < 4 * b then h j ha hb else h' j (Nat.le_of_not_lt hb) hc

theorem wordsReadable_of_le32 {s : State} {k : Nat} {v : Word} (h : le32 s k = .next v) :
    WordsReadable s k (k + 1) := by
  intro j hj hlt
  obtain ⟨bs, hbs, -⟩ := andThen_eq_next.1 h
  obtain ⟨hlen, hget⟩ := readBytes_eq_next.1 hbs
  have hbyte := hget (j - 4 * k) (by omega)
  rw [Nat.add_sub_cancel' hj, List.getElem?_eq_getElem (by omega)] at hbyte
  exact ⟨_, hbyte⟩

/-- Words that are read have values (R250). -/
theorem wordsReadable_of_readWords {s : State} {n k : Nat} {ws : List Word} (h : readWords s k n = .next ws) :
    WordsReadable s k (k + n) := by
  induction n generalizing k ws with
  | zero => intro j hj hlt; omega
  | succ n ih =>
    obtain ⟨v, hv, h⟩ := andThen_eq_next.1 h
    obtain ⟨vs, hvs, -⟩ := andThen_eq_next.1 h
    rw [Nat.add_comm n 1, ← Nat.add_assoc]
    exact (wordsReadable_of_le32 hv).append (ih hvs)

/-- A header that is read has values, the reserved word before it included (R185, log 11). -/
theorem wordsReadable_of_readHeader {s : State} {hw : Nat} (hhw : 3 ≤ hw) {h : Nat × Nat × Nat}
    (hread : readHeader hw s = .next h) : WordsReadable s 0 hw := by
  obtain ⟨ws, hws, hread⟩ := andThen_eq_next.1 hread
  obtain ⟨q, hq, hread⟩ := andThen_eq_next.1 hread
  obtain ⟨l, hl, hread⟩ := andThen_eq_next.1 hread
  obtain ⟨e, he, -⟩ := andThen_eq_next.1 hread
  have hws := wordsReadable_of_readWords hws
  have hq := wordsReadable_of_le32 hq
  have hl := wordsReadable_of_le32 hl
  have he := wordsReadable_of_le32 he
  rw [Nat.zero_add] at hws
  rw [show hw - 3 + 1 = hw - 2 by omega] at hq
  rw [show hw - 2 + 1 = hw - 1 by omega] at hl
  rw [show hw - 1 + 1 = hw by omega] at he
  exact ((hws.append hq).append hl).append he

section Sections
variable {s : State} {hw q l e : Nat} (hq : hw + 64 ≤ q) (hl : q ≤ l) (he : l ≤ e)
include hq hl he

/-- The tag area and the three sections lie between the header and `low_end` (R187 to R190). -/
theorem unpackStreams_inputRead_lowEnd : InputRead s (4 * e) (unpackStreams hw (q, l, e) s) := by
  unfold unpackStreams
  simp only [Config.tagAreaWords]
  exact (readWords_inputRead (by omega)).andThen fun _ => (readWords_inputRead (by omega)).andThen fun _ =>
    (readWords_inputRead (by omega)).andThen fun _ => (readWords_inputRead (by omega)).andThen fun _ => .value _

/-- They fill it: sections that are unpacked have values from the header to `low_end` (R187 to R190). -/
theorem wordsReadable_of_unpackStreams {w : DecWork} (h : unpackStreams hw (q, l, e) s = .next w) :
    WordsReadable s hw e := by
  obtain ⟨tagWords, htags, h⟩ := andThen_eq_next.1 h
  obtain ⟨full, hfull, h⟩ := andThen_eq_next.1 h
  obtain ⟨qWords, hqs, h⟩ := andThen_eq_next.1 h
  obtain ⟨lWords, hls, -⟩ := andThen_eq_next.1 h
  have htags := wordsReadable_of_readWords htags
  have hfull := wordsReadable_of_readWords hfull
  have hqs := wordsReadable_of_readWords hqs
  have hls := wordsReadable_of_readWords hls
  simp only [Config.tagAreaWords] at htags hfull hqs hls
  rw [Nat.add_sub_cancel' hq] at hfull
  rw [Nat.add_sub_cancel' hl] at hqs
  rw [Nat.add_sub_cancel' he] at hls
  exact ((htags.append hfull).append hqs).append hls

end Sections

/-- A read that cannot give a value stops the command at a byte that has none (R250). -/
theorem InputRead.stops {s : State} {n : Nat} {α β : Type} {r : Result α} (hr : InputRead s n r)
    (hno : ∀ a, r ≠ .next a) (f : α → Result β) :
    ∃ k, k < n ∧ memGet s.inMem k = none ∧ Machine.andThen r f = .fault (.inByteUnwritten k) := by
  cases hr with
  | value a => exact absurd rfl (hno a)
  | unwritten k hk hnone => exact ⟨k, hk, hnone, rfl⟩

/-- Settles O52: a header or sections that hold a byte without a value cannot be read whole, and their reads can do
nothing else but stop at such a byte. -/
theorem decodeOfUnwrittenByteFaults : Obligations.DecodeOfUnwrittenByteFaults := by
  intro s i hw hi hin hlen
  have hhw : 3 ≤ hw := by omega
  rw [exec_decode hi]
  constructor
  · rintro ⟨k, hk, hnone⟩
    rw [decCommand_long hin hlen]
    refine (readHeader_inputRead (by omega) le_rfl).stops (fun h hread => ?_) _
    obtain ⟨b, hb⟩ := wordsReadable_of_readHeader hhw hread k (Nat.zero_le _) hk
    cases hb.symm.trans hnone
  · rintro q l e hreadable hq hl he hstart hql hle hfit ⟨k, hk, hnone⟩
    obtain ⟨ws, hws⟩ := readWords_readable hreadable (show 4 * (0 + (hw - 3)) ≤ 4 * hw by omega)
    have hgood : ¬ headerBad hw (inWords s) (q.toNat, l.toNat, e.toNat) := by
      simp only [headerBad, inWords, Config.tagAreaWords]
      omega
    rw [decCommand_headerGood hin hlen (readHeader_eq_next hws hq hl he) hgood]
    refine (unpackStreams_inputRead_lowEnd hstart hql hle).stops (fun w hunpack => ?_) _
    have hheader : WordsReadable s 0 hw := fun j _ hj => hreadable j hj
    obtain ⟨b, hb⟩ := hheader.append (wordsReadable_of_unpackStreams hstart hql hle hunpack) k (Nat.zero_le _) hk
    cases hb.symm.trans hnone

/-! ### The round trip -/

/-- The tag-program entry of a tagged word: the tag with the operands ENCODE gives it (R87, R154 to R157). -/
def taggedOp (table : HashTable) (p : Word × Tag) : TagOp :=
  if p.2 = codeZero then .zero
  else if p.2 = codeExact then .exact (hashSlot table p.1)
  else if p.2 = codePartial then .partialWord (hashSlot table p.1) (p.1.setWidth 10)
  else .miss p.1

section TaggedOp
variable (table : HashTable) (p : Word × Tag)

/-! An entry's tag is the word's, and its operands are what the tag adds to the streams (R160). -/

theorem opTag_taggedOp : opTag (taggedOp table p) = p.2 := by
  obtain ⟨v, tag⟩ := p
  rcases tag_cases tag with rfl | rfl | rfl | rfl <;> rfl

theorem opQ_taggedOp : opQ (taggedOp table p) = (qposEntry table p).toList := by
  obtain ⟨v, tag⟩ := p
  rcases tag_cases tag with rfl | rfl | rfl | rfl <;> rfl

theorem opL_taggedOp : opL (taggedOp table p) = (lowEntry p).toList := by
  obtain ⟨v, tag⟩ := p
  rcases tag_cases tag with rfl | rfl | rfl | rfl <;> rfl

theorem opF_taggedOp : opF (taggedOp table p) = (fullEntry p).toList := by
  obtain ⟨v, tag⟩ := p
  rcases tag_cases tag with rfl | rfl | rfl | rfl <;> rfl

end TaggedOp

/-- The tag program ENCODE makes of words from a dictionary on (R153, R160). -/
def pageOps (table : HashTable) (d : Dict) (page : List Word) : List TagOp :=
  (page.zip (pageTags table d page)).map (taggedOp table)

theorem pageOps_length (table : HashTable) (d : Dict) (page : List Word) :
    (pageOps table d page).length = page.length := by
  simp [pageOps]

theorem pageOps_cons (table : HashTable) (d : Dict) (v : Word) (page : List Word) : pageOps table d (v :: page)
    = taggedOp table (v, encTag table d v) :: pageOps table (encStore table d v) page := rfl

/-- The buffer of a page is its tag program, assembled with the standard header (R87, R162). -/
theorem encodedBuffer_eq_assembleTags (table : HashTable) (lay : PackLayout) (page : List Word) :
    encodedBuffer table lay page = assembleTags 4 lay (pageOps table sentinelDict page) := by
  unfold encodedBuffer assembleTags pageOps
  simp only [encodeWords_streams, EncWork.addTagged, encWorkInit, List.nil_append, List.map_map, List.flatMap_map,
    Function.comp_def, opTag_taggedOp, opQ_taggedOp, opL_taggedOp, opF_taggedOp, List.filterMap_eq_flatMap_toList]

/-- The decoder's effect of a word's tag is the encoder's: the same store, and the word itself emitted (R159, R201). -/
theorem opEffect_encTag (table : HashTable) (d : Dict) (v : Word) :
    opEffect table d (taggedOp table (v, encTag table d v)) = (encStore table d v, v) := by
  unfold encTag
  split
  next h =>
    rw [encStore_of_exact h]
    exact congrArg (d, ·) h.symm
  split
  next h0 =>
    rw [encStore_of_eq_zero h0]
    exact congrArg (d, ·) h0.symm
  next h0 =>
  rw [encStore_of_ne_zero h0]
  split
  next hhigh =>
    have hv : rebuildWord (dictWord d (hashSlot table v)) (v.setWidth 10) = v :=
      lowBits_eq_setWidth v ▸ rebuildWord_of_high hhigh
    exact congrArg (fun u => (dictStore d (hashSlot table v) u, u)) hv
  · rfl

/-- The tag program of words emits the words: after each tag the decoder's dictionary is the encoder's (R201). -/
theorem opWords_pageOps (table : HashTable) (d : Dict) (page : List Word) :
    opWords table d (pageOps table d page) = page := by
  induction page generalizing d with
  | nil => rfl
  | cons v page ih => rw [pageOps_cons, opWords, opEffect_encTag, ih]

theorem ofNat_succ_sub_one (n : Nat) : BitVec.ofNat 32 (n + 1) - 1#32 = BitVec.ofNat 32 n := by
  rw [BitVec.ofNat_add]
  exact BitVec.add_sub_cancel ..

/-- The standard header without its reserved word moves every section down by one word (R77). -/
theorem sectionStarts_std (nF nQ nL : Nat) : sectionStarts 4 nF nQ nL = ((sectionStarts 3 nF nQ nL).1 + 1,
    (sectionStarts 3 nF nQ nL).2.1 + 1, (sectionStarts 3 nF nQ nL).2.2 + 1) := by
  simp only [sectionStarts, Config.tagAreaWords, Prod.mk.injEq]
  omega

/-- The alternate form of an assembled program is the program assembled with the alternate header (R75, R201). -/
theorem altForm_assembleTags (lay : PackLayout) (ops : List TagOp) :
    altForm (assembleTags 4 lay ops) = assembleTags 3 lay ops := by
  unfold assembleTags
  rw [bufferWords_eq_append, bufferWords_eq_append, sectionStarts_std]
  simp [headerWords, altForm, ofNat_succ_sub_one]

/-- Either decoder gives a page back from its tag program, assembled with the decoder's header. -/
theorem exec_decode_pageOps {s : State} {i : Instr} {hw : Nat}
    (hi : (i = .decodeStd ∧ hw = 4) ∨ (i = .decodeAlt ∧ hw = 3)) {page : List Word} (hpage : page.length = 1024)
    (hroom : 4096 ≤ s.params.outCap) (hin : s.inLen.toNat ≤ s.params.inCap) {buffer : List Word}
    (hbuffer : buffer = assembleTags hw s.params.packLayout (pageOps s.hashTable sentinelDict page))
    (hheld : Holds s.inMem (wordsBytes buffer)) (hlen : s.inLen.toNat = 4 * buffer.length) :
    ∃ t, exec i s = .next t ∧ t.status = 0x00000002 ∧ t.outLen = 4096 ∧ Holds t.outMem (wordsBytes page) := by
  have hops : tagProgramOk (pageOps s.hashTable sentinelDict page) = true :=
    decide_eq_true ((pageOps_length ..).trans hpage)
  subst hbuffer
  obtain ⟨d, m, hexec, hholds, -⟩ := decodeExecutesTagPrograms s i hw _ hi hops hlen.ge hin hheld hroom
  rw [opWords_pageOps] at hholds
  exact ⟨_, hexec, rfl, rfl, hholds⟩

/-- Settles O47: ENCODE's buffer is a tag program whose words are the page, and its alternate form is the same program
with the alternate header. -/
theorem encodeThenDecodeIsIdentity : Obligations.EncodeThenDecodeIsIdentity := by
  intro s page hlen hcap hpage hheld buffer hfit
  obtain ⟨d, m, hexec, hholds, -⟩ := encodeProducesTheBuffer s page hlen hcap hpage hheld hfit
  have hle : buffer.length ≤ 1093 := encodedBuffer_length_le s.hashTable s.params.packLayout hpage
  have hbuffer : buffer = assembleTags 4 s.params.packLayout (pageOps s.hashTable sentinelDict page) :=
    encodedBuffer_eq_assembleTags ..
  have houtLen : (BitVec.ofNat 32 (4 * buffer.length)).toNat = 4 * buffer.length := by
    rw [BitVec.toNat_ofNat]
    omega
  refine ⟨_, hexec, rfl, houtLen, hholds, fun s2 htable hlay hroom hin => ?_⟩
  rw [← htable, ← hlay] at hbuffer
  have halt := (congrArg altForm hbuffer).trans (altForm_assembleTags ..)
  exact ⟨exec_decode_pageOps (.inl ⟨rfl, rfl⟩) hpage hroom hin hbuffer,
    exec_decode_pageOps (.inr ⟨rfl, rfl⟩) hpage hroom hin halt⟩

end Sys2Proof.Machine

/-! PROOFS. The exceptions: which code a command can end with (R220, R226), and what an error leaves of the state
(R227). -/

namespace Sys2Proof.Machine

/-! ### The code a command ends with -/

/-- The codes a command can end with: the header, residue and underflow errors are a decode's alone, and ILLEGAL_CMD is
no command's (R226). -/
def CanEndWith (i : Instr) : ErrCode → Prop
  | .none | .inputError => True
  | .formatHeader | .formatResidue | .formatUnderflow => i ≠ .encode
  | .illegalCmd => False

/-- The STATUS words of those codes (R220, R227, R228). -/
theorem CanEndWith.statusEnded_values {i : Instr} {e : ErrCode} (h : CanEndWith i e) :
    statusEnded e = 0x00000002 ∨ statusEnded e = 0x00000012 ∨ (i ≠ .encode ∧
      (statusEnded e = 0x00000022 ∨ statusEnded e = 0x00000032 ∨ statusEnded e = 0x00000042)) := by
  cases e with
  | none => exact .inl rfl
  | inputError => exact .inr (.inl rfl)
  | formatHeader => exact .inr (.inr ⟨h, .inl rfl⟩)
  | formatResidue => exact .inr (.inr ⟨h, .inr (.inl rfl)⟩)
  | formatUnderflow => exact .inr (.inr ⟨h, .inr (.inr rfl)⟩)
  | illegalCmd => exact h.elim

/-- A state in which the command has come to its end, with one of its codes (R227, R228). -/
inductive Ended (i : Instr) : State → Prop
  | withCode (e : ErrCode) (he : CanEndWith i e) (n : Nat) (s : State) : Ended i (endCommand e n s)

theorem raiseError_ended {i : Instr} {e : ErrCode} (he : CanEndWith i e) (s : State) : Ended i (raiseError e s) :=
  .withCode e he 0 s

theorem endOk_ended (i : Instr) {ws : List Word} {n : Nat} {s t : State} (h : endOk ws n s = .next t) : Ended i t := by
  obtain ⟨-, rfl⟩ := endOk_eq_next.1 h
  exact .withCode .none trivial n _

/-- ENCODE fails with INPUT_ERROR only (R151, R226). -/
theorem execEncode_ended {s t : State} (h : execEncode s = .next t) : Ended .encode t := by
  rw [execEncode_eq] at h
  split at h
  · cases h
    exact raiseError_ended (e := .inputError) trivial s
  · obtain ⟨page, -, h⟩ := andThen_eq_next.1 h
    exact endOk_ended .encode h

section Decode
variable {i : Instr} (hi : i ≠ .encode) {s t : State}
include hi

/-- A decode behind its header check ends with underflow, with residue, or well (R197 to R199). -/
theorem decodeEnd_ended {w : DecWork} (h : decodeEnd s w = .next t) : Ended i t := by
  rcases hr : walkPure s.hashTable 1024 sentinelDict w with ⟨_ | _, d, w'⟩
  · cases hres : hasResidue w' with
    | true =>
      cases (decodeEnd_residue hr hres).symm.trans h
      exact raiseError_ended (e := .formatResidue) hi _
    | false => exact endOk_ended i ((decodeEnd_emits hr hres).symm.trans h)
  · cases (decodeEnd_underflows hr).symm.trans h
    exact raiseError_ended (e := .formatUnderflow) hi _

/-- A decode of either layout ends at one of its checks, or where the walk ends (R184, R186, R222). -/
theorem decCommand_ended {hw : Nat} (h : decCommand hw s = .next t) : Ended i t := by
  rw [decCommand_eq] at h
  split at h
  · cases h
    exact raiseError_ended (e := .inputError) trivial s
  split at h
  · cases h
    exact raiseError_ended (e := .formatHeader) hi s
  obtain ⟨header, -, h⟩ := andThen_eq_next.1 h
  split at h
  · cases h
    exact raiseError_ended (e := .formatHeader) hi s
  obtain ⟨w, -, h⟩ := andThen_eq_next.1 h
  exact decodeEnd_ended hi h

end Decode

/-- A command that answers a next state has ended in it (R259). -/
theorem exec_ended {i : Instr} (hi : i.isCommand = true) {s t : State} (h : exec i s = .next t) : Ended i t := by
  cases i with
  | encode => exact execEncode_ended h
  | decodeStd => exact decCommand_ended (hw := 4) (by decide) h
  | decodeAlt => exact decCommand_ended (hw := 3) (by decide) h
  | tagZero | tagPartial | tagMiss | tagExact => cases hi

/-- Settles O50: a command with readable input and room for its result answers a next state, and a command's next
states are its ends. -/
theorem commandsEnd : Obligations.CommandsEnd := by
  intro i s hi hread hroom
  obtain ⟨t, ht, -⟩ := exec_ends hi hread hroom
  obtain ⟨e, he, n, u⟩ := exec_ended hi ht
  exact ⟨_, ht, rfl, rfl, he.statusEnded_values⟩

/-! ### What an error leaves -/

/-- An instruction that ends a running command with an error raises it from the state it started in, but for the
dictionary: a command's only ends are an error and a commit, which has code 0, and a tag that does not underflow leaves
the command running (R227). -/
theorem exec_eq_raiseError {i : Instr} {s t : State} (hbusy : busyBit s.status = true) (h : exec i s = .next t)
    (hidle : busyBit t.status = false) (herr : errField t.status ≠ 0) : ∃ e d, t = raiseError e (s.setDict d) := by
  cases hi : i.isCommand with
  | true =>
    have hanswer := exec_answer hi s
    rw [h] at hanswer
    cases hanswer with
    | error e he d => exact ⟨e, d, rfl⟩
    | done d ws hfit hws => exact absurd (errField_ended .none) herr
  | false =>
    rcases execTag_eq_next hi h with rfl | ⟨d, w, rfl⟩
    · exact ⟨.formatUnderflow, s.dict, rfl⟩
    · cases hbusy.symm.trans hidle

/-- Settles O54: the error is raised from the starting state, dictionary apart, and raising it writes neither window,
IN_LEN nor CMD. -/
theorem errorsLeaveNoEffect : Obligations.ErrorsLeaveNoEffect := by
  intro i s t hbusy h hidle herr
  obtain ⟨e, d, rfl⟩ := exec_eq_raiseError hbusy h hidle herr
  exact ⟨doneBit_ended e, rfl, rfl, rfl, rfl, rfl, rfl, rfl⟩

end Sys2Proof.Machine


/-! PROOFS. Reset, the accesses that meet a running command, and the command run one unit at a time (R250 to R256,
R259). -/

namespace Sys2Proof.Machine

/-! ### Reset -/

theorem step_reset {s : State} {rest : List Input} (h : s.inputs = .reset :: rest) :
    step s = .next (hardReset (s.setInputs rest)) := by
  simp [step, turn, h]

/-- Settles O5: reset leaves the state after reset, with the ROM, the parameters and the rest of the schedule kept. -/
theorem resetAbandonsEverything : Obligations.ResetAbandonsEverything := fun s rest hreset =>
  ⟨hardReset (s.setInputs rest), step_reset hreset, rfl, rfl, rfl, rfl, busyBit_zero, doneBit_zero, errField_zero, rfl,
    rfl, fun _ => rfl, fun _ => rfl, rfl, rfl, rfl⟩

/-! ### Host writes while a command runs -/

section Busy
variable {s : State} (hbusy : isBusy s = true)
include hbusy

theorem writeReg_cmd_busy (v : Word) : writeReg 0x000 v s = .next s := by
  simp [writeReg, hbusy]

theorem writeReg_inLen_busy (v : Word) : writeReg 0x008 v s = .refused .hostWriteWhileBusy := by
  simp [writeReg, hbusy]

/-- A write that starts in a byte of IN is refused by a busy block (R255). -/
theorem writeOffset_inWindow_busy {off : Nat} (hoff : off < 0x2000) (hcap : off < s.params.inCap) (size : Nat)
    (v : Word) : writeOffset (0x2000 + off) size v s = .refused .hostWriteWhileBusy := by
  have hin : isInByte s.params (0x2000 + off) := by omega
  rw [writeOffset, if_neg (by omega), writeWindow, if_pos hin, if_pos hbusy]

end Busy

/-- Settles O12: the write reaches CMD, which a busy block ignores; the access is consumed. -/
theorem cmdWriteWhileBusyIgnored : Obligations.CmdWriteWhileBusyIgnored := by
  intro s rest c hbusy hwrite
  rw [step_writeReg hwrite (by decide) rfl, writeReg_cmd_busy (s := s.setInputs rest) hbusy]
  rfl

/-- Settles O13: the permitted forms reach IN_LEN or a byte of IN, and a busy block refuses the write to either. -/
theorem inputWritesWhileBusyRefused : Obligations.InputWritesWhileBusyRefused := by
  intro s rest v hbusy
  refine ⟨fun hwrite => ?_, fun off size hsize ha hoff hcap hwrite => ?_⟩
  · rw [step_writeReg hwrite (by decide) rfl, writeReg_inLen_busy (s := s.setInputs rest) hbusy]
  · rw [step_hostWrite hwrite (accessPermitted_window (by decide) rfl hsize ha),
      writeOffset_inWindow_busy (s := s.setInputs rest) hbusy hoff hcap]

/-! ### What the host reads while a command runs -/

/-- A read of a register whose value is known (R33, R51). -/
theorem step_readReg_value {s : State} {off : Nat} {v : Word} {rest : List Input} (h : HostReads s off 4 rest)
    (hoff : off < 0x100) (ha : off % 4 = 0) (hv : readReg s off = v) :
    step s = .next (logRead v (s.setInputs rest)) := by
  rw [step_readReg h hoff ha, hv]

/-- The bits of a field that is 0 are 0. -/
theorem getLsbD_of_field_eq_zero {w : Word} {a n i : Nat} (h : w.extractLsb' a n = 0) (ha : a ≤ i) (hi : i < a + n) :
    w.getLsbD i = false := by
  have hbit := congrArg (fun x => x.getLsbD (i - a)) h
  simpa [BitVec.getLsbD_extractLsb', show i - a < n by omega, Nat.add_sub_cancel' ha] using hbit

/-- BUSY excludes DONE and with it every error code, so STATUS has one value while a command runs (R22, R256). -/
theorem StatusOk.eq_running {w : Word} (h : StatusOk w) (hbusy : busyBit w = true) : w = statusRunning := by
  have hdone : doneBit w = false := by simpa [hbusy] using h.exclusive
  have herr : errField w = 0 := by
    by_contra hne
    cases hdone.symm.trans (h.codeWhenDone hne)
  apply BitVec.eq_of_getLsbD_eq
  intro i hi
  rcases (by omega : i = 0 ∨ i = 1 ∨ (2 ≤ i ∧ i < 4) ∨ (4 ≤ i ∧ i < 8) ∨ 8 ≤ i) with
    rfl | rfl | ⟨hlo, hhi⟩ | ⟨hlo, hhi⟩ | hlo
  · exact hbusy
  · exact hdone
  · rw [getLsbD_of_field_eq_zero h.reservedLow hlo hhi,
      getLsbD_of_field_eq_zero statusOk_running.reservedLow hlo hhi]
  · rw [getLsbD_of_field_eq_zero herr hlo hhi, getLsbD_of_field_eq_zero errField_running hlo hhi]
  · rw [getLsbD_of_field_eq_zero h.reservedHigh hlo hi,
      getLsbD_of_field_eq_zero statusOk_running.reservedHigh hlo hi]

/-- A step that leaves a command running does not write OUT: reset leaves none running, and so does the only other turn
that changes OUT, a good end (R56, R251). -/
theorem outMem_of_step_busy {s t : State} (h : step s = .next t) (hbusy : isBusy t = true) : t.outMem = s.outMem := by
  by_contra hne
  by_cases hreset : ∃ rest, s.inputs = .reset :: rest
  · obtain ⟨rest, hr⟩ := hreset
    cases (step_reset hr).symm.trans h
    cases busyBit_zero.symm.trans hbusy
  · obtain ⟨-, hend⟩ := onlyRuledAgentsWrite s t h fun rest hr => hreset ⟨rest, hr⟩
    obtain ⟨hidle, -⟩ := hend hne
    cases hidle.symm.trans hbusy

/-- Settles O21: the invariant fixes STATUS and OUT_LEN while BUSY = 1 and every step keeps it, and OUT changes at a
command's end only. -/
theorem readsWhileBusyAreSafe : Obligations.ReadsWhileBusyAreSafe := by
  intro s h hbusy
  refine ⟨fun rest hread => ?_, fun rest hread => ?_, fun t ht hrunning => ⟨outMem_of_step_busy ht hrunning, ?_⟩⟩
  · exact step_readReg_value hread (by decide) rfl (h.status.eq_running hbusy)
  · exact step_readReg_value hread (by decide) rfl (h.outLenZero (.inl hbusy))
  · exact (stepKeepsInvariant s t h ht).outLenZero (.inl hrunning)

/-! ### An ENCODE that meets a byte without a value -/

/-- Settles O51: a page with such a byte cannot be read whole, and its read can do nothing else but stop at one. -/
theorem encodeOfUnwrittenByteFaults : Obligations.EncodeOfUnwrittenByteFaults := by
  rintro s hlen hcap ⟨k, hk, hnone⟩
  show ∃ k, k < 4096 ∧ _ ∧ execEncode s = _
  rw [execEncode_eq, if_neg (by omega)]
  refine (readWords_inputRead (n := 4096) (by decide)).stops (fun page hread => ?_) _
  obtain ⟨b, hb⟩ := wordsReadable_of_readWords hread k (Nat.zero_le _) hk
  cases hb.symm.trans hnone

/-! ### A command run one unit at a time -/

/-- `s` with `n` units of the block's own work scheduled and nothing else (log 3). -/
def State.withTicks (n : Nat) (s : State) : State := s.setInputs (List.replicate n .tick)

/-- The first tick of a schedule is one unit of work, the others are still scheduled. -/
theorem stepN_withTicks_succ (n : Nat) (s : State) :
    stepN (n + 1) (s.withTicks (n + 1)) = andThen (blockUnit (s.withTicks n)) (stepN n) := rfl

/-- With one tick left the unit is the last. -/
theorem stepN_one_tick (s : State) : stepN 1 (s.withTicks 1) = blockUnit (s.withTicks 0) := by
  rw [stepN_withTicks_succ]
  cases blockUnit (s.withTicks 0) <;> rfl

/-- The ticks after a command's end do nothing (R238). -/
theorem stepN_withTicks_idle {s : State} (h : s.phase = .idle) (n : Nat) :
    stepN n (s.withTicks n) = .next (s.withTicks 0) := by
  induction n with
  | zero => rfl
  | succ n ih => rw [stepN_withTicks_succ, blockUnit_idle (s := s.withTicks n) h, andThen_next, ih]

/-- What the atomic command does after its set-up: its loop and its end (R150, R182). -/
def finishCommand (i : Instr) (s : State) : Result State :=
  if i = .encode then andThen (encLoop 1024 s) encEnd else andThen (decLoop 1024 s) decEnd

theorem exec_eq_begin_finish {i : Instr} (hi : i.isCommand = true) (s : State) :
    exec i s = andThen (beginCommand i s) (finishCommand i) := by
  cases i with
  | encode | decodeStd | decodeAlt => rfl
  | tagZero | tagPartial | tagMiss | tagExact => cases hi

/-! Nothing of a loop or of an end happens once the command has ended (R150, R182). -/

theorem encLoop_ended {s : State} (h : s.work = .none) (n : Nat) : encLoop n s = .next s := by
  cases n <;> simp [encLoop, h]

theorem encEnd_ended {s : State} (h : s.work = .none) : encEnd s = .next s := by
  simp [encEnd, h]

theorem decEnd_ended {s : State} (h : s.work = .none) : decEnd s = .next s := by
  simp [decEnd, h]

/-- A command that has ended in its set-up has nothing to finish. -/
theorem finishCommand_ended {s : State} (h : s.work = .none) (i : Instr) : finishCommand i s = .next s := by
  unfold finishCommand
  split
  · rw [encLoop_ended h, andThen_next, encEnd_ended h]
  · rw [decLoop_ended h, andThen_next, decEnd_ended h]

/-! The units behind the set-up: one for each element, and one for the end (R153, R192). -/

theorem blockUnit_encEnd {s : State} {w : EncWork} (hp : s.phase = .encRun) (hwork : s.work = .enc w)
    (hi : w.i = 1024) : blockUnit s = encEnd s := by
  simp [blockUnit, fetch_enc hwork, internalWork, hp, hwork, hi]

theorem blockUnit_decStep {s : State} {w : DecWork} (hp : s.phase = .decRun) (hwork : s.work = .dec w)
    (ht : w.t < 1024) (htags : w.tags.length = 1024) : blockUnit s = decStep s := by
  have htag : w.tags[w.t]? = some w.tags[w.t] := List.getElem?_eq_getElem (by omega)
  rw [blockUnit_fetched (fetch_tag (by simp [hp]) hwork ht htag), beginCommand_decodeTag, decStep_exec hwork htag]

theorem blockUnit_decEnd {s : State} {w : DecWork} (hp : s.phase = .decRun) (hwork : s.work = .dec w)
    (ht : w.t = 1024) : blockUnit s = decEnd s := by
  have hfetch : fetch s = none := by rw [fetch_dec (by simp [hp]) hwork, if_neg (by omega)]
  simp [blockUnit, hfetch, internalWork, hp, hwork, ht]

/-- ENCODE with `n` words left: a unit for each, and one for the end (R153, R162). -/
theorem stepN_withTicks_enc {s : State} (hp : s.phase = .encRun) {n : Nat} {p : Dict × EncWork}
    (hn : p.2.i + n = 1024) : stepN (n + 1) ((afterEnc s p).withTicks (n + 1))
      = andThen (encLoop n ((afterEnc s p).withTicks 0)) encEnd := by
  induction n generalizing p with
  | zero =>
    rw [stepN_one_tick]
    exact blockUnit_encEnd (s := (afterEnc s p).withTicks 0) (w := p.2) hp rfl hn
  | succ n ih =>
    have hunit : blockUnit ((afterEnc s p).withTicks (n + 1)) = andThen (le32 s p.2.i) fun v =>
        .next ((afterEnc s (encElement s.hashTable v p)).withTicks (n + 1)) :=
      blockUnit_enc (s := (afterEnc s p).withTicks (n + 1)) (w := p.2) hp rfl (by omega)
    have hloop : encLoop (n + 1) ((afterEnc s p).withTicks 0) = andThen (le32 s p.2.i) fun v =>
        encLoop n ((afterEnc s (encElement s.hashTable v p)).withTicks 0) :=
      andThen_assoc (le32 s p.2.i) (fun v => .next ((afterEnc s (encElement s.hashTable v p)).withTicks 0)) (encLoop n)
    rw [stepN_withTicks_succ, hunit, hloop, andThen_assoc, andThen_assoc]
    refine andThen_congr fun v _ => ih ?_
    rw [(encElement_pc s.hashTable v p).1]
    omega

theorem walkState_underflows {s : State} {r : Bool × Dict × DecWork} (h : r.1 = true) :
    walkState s r = raiseError .formatUnderflow (afterTag s r.2.1 r.2.2) := if_pos h

/-- A decode with `n` tags left: a unit for each up to the first that underflows, and one for the end (R192, R197 to
R199). -/
theorem stepN_withTicks_dec {s : State} (hp : s.phase = .decRun) {n : Nat} {d : Dict} {w : DecWork}
    (hn : w.t + n = 1024) (htags : w.tags.length = 1024) : stepN (n + 1) ((afterTag s d w).withTicks (n + 1))
      = andThen (decLoop n ((afterTag s d w).withTicks 0)) decEnd := by
  induction n generalizing d w with
  | zero =>
    rw [stepN_one_tick]
    exact blockUnit_decEnd (s := (afterTag s d w).withTicks 0) (w := w) hp rfl hn
  | succ n ih =>
    have hstep : ∀ m, decStep ((afterTag s d w).withTicks m)
        = .next (walkState (s.withTicks m) (tagPure s.hashTable d w)) := fun m =>
      decStep_eq (s := s.withTicks m) (by omega)
    have hloop : decLoop (n + 1) ((afterTag s d w).withTicks 0)
        = andThen (decStep ((afterTag s d w).withTicks 0)) (decLoop n) := rfl
    have hunit : blockUnit ((afterTag s d w).withTicks (n + 1)) = decStep ((afterTag s d w).withTicks (n + 1)) :=
      blockUnit_decStep hp rfl (by omega) htags
    rw [stepN_withTicks_succ, hunit, hloop, hstep, hstep, andThen_next, andThen_next]
    cases hunder : (tagPure s.hashTable d w).1 with
    | true =>
      rw [walkState_underflows hunder, walkState_underflows hunder, decLoop_ended rfl, andThen_next, decEnd_ended rfl]
      exact stepN_withTicks_idle
        (s := raiseError .formatUnderflow (afterTag s (tagPure s.hashTable d w).2.1 (tagPure s.hashTable d w).2.2)) rfl
        (n + 1)
    | false =>
      obtain ⟨ht, htags', -⟩ := tagPure_advances (by omega) hunder
      rw [walkState_continues hunder, walkState_continues hunder]
      exact ih (by omega) (by rw [htags', htags])

/-! The set-up (R150, R182) does the same whatever is scheduled. -/

theorem encBegin_withTicks (n : Nat) (s : State) :
    encBegin (s.withTicks n) = andThen (encBegin s) fun t => .next (t.withTicks n) := by
  rcases encBegin_cases s with ⟨hbad, h⟩ | ⟨hin, hlen, h⟩
  · rw [h]
    exact if_pos hbad
  · rw [h]
    exact if_neg (not_or.2 ⟨Nat.not_lt.2 hin, not_not.2 hlen⟩)

theorem readHeader_withTicks (hw n : Nat) (s : State) : readHeader hw (s.withTicks n) = readHeader hw s := by
  unfold readHeader
  rw [readWords_congr (s := s.withTicks n) (t := s) rfl]
  rfl

theorem unpackStreams_withTicks (hw n : Nat) (h : Nat × Nat × Nat) (s : State) :
    unpackStreams hw h (s.withTicks n) = unpackStreams hw h s := by
  have hread : readWords (s.withTicks n) = readWords s :=
    funext₂ fun k m => readWords_congr (s := s.withTicks n) (t := s) rfl m k
  unfold unpackStreams
  rw [hread]
  rfl

theorem decBegin_withTicks (hw n : Nat) (s : State) :
    decBegin hw (s.withTicks n) = andThen (decBegin hw s) fun t => .next (t.withTicks n) := by
  unfold decBegin
  rw [readHeader_withTicks, show (s.withTicks n).params = s.params from rfl,
    show (s.withTicks n).inLen = s.inLen from rfl, show inWords (s.withTicks n) = inWords s from rfl]
  split
  · rfl
  split
  · rfl
  rw [andThen_assoc]
  refine andThen_congr fun h _ => ?_
  split
  · rfl
  rw [unpackStreams_withTicks, andThen_assoc]
  rfl

theorem beginCommand_withTicks {i : Instr} (hi : i.isCommand = true) (n : Nat) (s : State) :
    beginCommand i (s.withTicks n) = andThen (beginCommand i s) fun t => .next (t.withTicks n) := by
  cases i with
  | encode => exact encBegin_withTicks n s
  | decodeStd => exact decBegin_withTicks 4 n s
  | decodeAlt => exact decBegin_withTicks 3 n s
  | tagZero | tagPartial | tagMiss | tagExact => cases hi

/-- Whatever follows the set-up finds the schedule as it was. -/
theorem andThen_beginCommand_withTicks {i : Instr} (hi : i.isCommand = true) (n : Nat) (s : State)
    (f : State → Result State) :
    andThen (beginCommand i (s.withTicks n)) f = andThen (beginCommand i s) fun t => f (t.withTicks n) := by
  rw [beginCommand_withTicks hi, andThen_assoc]
  rfl

/-! The set-up ends the command or leaves it at its first element (R151, R152, R184 to R191). -/

theorem stepN_withTicks_ended {s : State} (hp : s.phase = .idle) (hwork : s.work = .none) (n : Nat) (i : Instr) :
    stepN n (s.withTicks n) = finishCommand i (s.withTicks 0) := by
  rw [stepN_withTicks_idle hp, finishCommand_ended (s := s.withTicks 0) hwork]

theorem stepN_withTicks_encBegun {s t : State} (hp : s.phase = .encRun) (h : encBegin s = .next t) :
    stepN 1025 (t.withTicks 1025) = finishCommand .encode (t.withTicks 0) := by
  rcases encBegin_cases s with ⟨-, e⟩ | ⟨-, -, e⟩ <;> cases e.symm.trans h
  · exact stepN_withTicks_ended rfl rfl _ _
  · rw [finishCommand, if_pos rfl]
    exact stepN_withTicks_enc (n := 1024) (p := (sentinelDict, encWorkInit)) hp rfl

theorem stepN_withTicks_decBegun {hw : Nat} {s t : State} (hp : s.phase = .decRun) (h : decBegin hw s = .next t)
    {i : Instr} (hi : i ≠ .encode) : stepN 1025 (t.withTicks 1025) = finishCommand i (t.withTicks 0) := by
  rcases decBegin_eq_next h with ⟨-, rfl⟩ | ⟨-, -, rfl⟩ | ⟨-, -, q, l, e, -, ⟨-, rfl⟩ | ⟨-, w, hw', rfl⟩⟩
  · exact stepN_withTicks_ended rfl rfl _ _
  · exact stepN_withTicks_ended rfl rfl _ _
  · exact stepN_withTicks_ended rfl rfl _ _
  · obtain ⟨htags, ht, -⟩ := unpackStreams_start hw'
    rw [finishCommand, if_neg hi]
    exact stepN_withTicks_dec (n := 1024) (d := sentinelDict) hp (by omega) htags

/-- The units behind the set-up finish the command (R259). -/
theorem Started.stepN_begun {i : Instr} {s t : State} (h : Started i s) (ht : beginCommand i s = .next t) :
    stepN 1025 (t.withTicks 1025) = finishCommand i (t.withTicks 0) := by
  rcases decodeCommand_isCommand h.latched with rfl | rfl | rfl
  · exact stepN_withTicks_encBegun h.phase ht
  · exact stepN_withTicks_decBegun h.phase ht nofun
  · exact stepN_withTicks_decBegun h.phase ht nofun

/-- A started command's first unit is its set-up (R252, log 3). -/
theorem Started.blockUnit {i : Instr} {s : State} (h : Started i s) : blockUnit s = beginCommand i s := by
  have hp : s.phase ≠ .idle := by
    rw [h.phase]
    rcases decodeCommand_isCommand h.latched with rfl | rfl | rfl <;> decide
  rw [blockUnit_fetched (fetch_started hp h.work h.latched)]

theorem Started.withTicks {i : Instr} {s : State} (h : Started i s) (n : Nat) : Started i (s.withTicks n) :=
  ⟨h.latched, h.busy, h.phase, h.work⟩

/-- Its 1026 units are its set-up, and then what the atomic command does after its set-up (R259). -/
theorem Started.stepN_withTicks {i : Instr} {s : State} (h : Started i s) :
    stepN 1026 (s.withTicks 1026) = exec i (s.withTicks 0) := by
  have hi : i.isCommand = true := by rcases decodeCommand_isCommand h.latched with rfl | rfl | rfl <;> rfl
  calc stepN 1026 (s.withTicks 1026)
    _ = andThen (Machine.blockUnit (s.withTicks 1025)) (stepN 1025) := stepN_withTicks_succ 1025 s
    _ = andThen (beginCommand i s) fun t => stepN 1025 (t.withTicks 1025) := by
      rw [(h.withTicks 1025).blockUnit, andThen_beginCommand_withTicks hi]
    _ = andThen (beginCommand i s) fun t => finishCommand i (t.withTicks 0) :=
      andThen_congr fun t ht => h.stepN_begun ht
    _ = andThen (beginCommand i (s.withTicks 0)) (finishCommand i) :=
      (andThen_beginCommand_withTicks hi 0 s _).symm
    _ = exec i (s.withTicks 0) := (exec_eq_begin_finish hi _).symm

/-- Settles O59: the first tick sets the command up, as the atomic command does first, and the other 1025 do what it
does then. -/
theorem ticksReachTheAtomicResult : Obligations.TicksReachTheAtomicResult := fun _ _ h => h.stepN_withTicks

end Sys2Proof.Machine
